-- ==== Sys2Proof/Word.lean ====
section
/-!
DEFINITION. The words of the escpos RFE: the byte of a memory and the 32-bit register and command word
(00_scope.md R4 "register width", 30_encoding.md R60).
-/

namespace Sys2Proof

/-- One byte of PIX, GRAY, BMP or LUT. -/
abbrev Byte := BitVec 8

/-- One 32-bit register, HIST bucket, command word or bus transfer. -/
abbrev Word := BitVec 32

end Sys2Proof
end

