-- ==== Sys2Proof/Syntax.lean ====
section
/-!
DEFINITION. What can be asked of the block: the six commands (30_encoding.md R61), the six address spaces
(20_memory.md R40), the Host's accesses (R42, R43) and the inputs that reach the block from outside.
-/

namespace Sys2Proof

/-- The six commands of 30_encoding.md R61. No command carries an operand field (R64): every operand is
read from the operand registers and the memories when the command is performed. -/
inductive Instr where
  /-- Luminance Converter, stage 1 (41_luminance.md R70). -/
  | lum
  /-- Tone Mapper, stage 2 (42_tone_mapper.md R80). -/
  | eq
  /-- Disperser, stage 3 (43_disperser.md R90). -/
  | dth
  /-- Canvas Compositor, stage 4 (44_canvas_compositor.md R100). -/
  | pack
  /-- A whole conversion (45_sequencing_commands.md R114). -/
  | run
  /-- End of a conversion, or recovery from FAIL (45_sequencing_commands.md R115). -/
  | clr
  deriving DecidableEq, Repr

/-- The six address spaces of 20_memory.md R40. -/
inductive Space where
  | reg
  | pix
  | gray
  | bmp
  | hist
  | lut
  deriving DecidableEq, Repr

/-- The named registers of the REG space (10_state.md R23). -/
inductive RegName where
  | id
  | cmd
  | status
  | errcode
  | errinfo
  | irqEn
  | width
  | height
  | canvasWidth
  | opts
  | distinct
  | offset
  deriving DecidableEq, Repr

/-- A Host access (20_memory.md R42, R43): space, byte offset, size in bytes and, for a write, the data. The
size is any number: one that the space does not admit is refused (R44), not unrepresentable. -/
inductive Access where
  | read (space : Space) (addr n : Nat)
  | write (space : Space) (addr n : Nat) (data : Word)
  deriving DecidableEq, Repr

/-- One thing the world outside the state does next (00_scope.md R6): the Host makes an access, the Engine is
given its turn, or the platform asserts reset. DESIGN CHOICE (log 1): a list of inputs held in the state is one
order of the steps of all agents; every order the spec allows is some list. -/
inductive Input where
  | access (a : Access)
  | engine
  | reset
  deriving DecidableEq, Repr

end Sys2Proof
end

