-- ==== Sys2Proof/Config.lean ====
section
/-!
DEFINITION. What the spec leaves to the implementation or leaves open: the capacities NMAX and BMAX
(00_scope.md R4) as plain data that the state carries, and the free values, constants without a body, of which
nothing can be proved.
-/

namespace Sys2Proof

/-- The capacities of the memories (00_scope.md R4): `nmax` pixels in PIX and GRAY, `bmax` bytes in BMP. OPEN
parameters (93_implementation_defined.md U3); the state carries them and no step changes them (log 4). -/
structure Params where
  nmax : Nat
  bmax : Nat
  deriving DecidableEq, Repr

/-- The capacities 95_test_vectors.md assumes. DESIGN CHOICE (log 4): State.reset takes them; unsafe for a
claim about State.reset that rests on them. -/
def Params.ofTestVectors : Params := { nmax := 4194304, bmax := 524288 }

/-- The value of byte `addr` of a space that neither the Host nor a command has written (10_state.md R32,
93_implementation_defined.md U1 "any value", fixed once drawn). Free value; `draw` gives a new family after a
reset that interrupts a command (U2). -/
opaque Config.unwrittenByte (space : Space) (draw addr : Nat) : Byte

/-- The value of HIST bucket `v` that no command has written (10_state.md R26, R32; U1). Free value. -/
opaque Config.unwrittenBucket (draw v : Nat) : Word

/-- The paper-cut trailer the host software appends when `cut` is set: an uninterpreted byte string
(48_host_framing.md R126, 93_implementation_defined.md U8). Free value. -/
opaque Config.cutTrailer : List Byte

end Sys2Proof
end

