-- ==== Sys2Proof/WellFormed.lean ====
section
/-!
DEFINITION. The checks on syntax and parameters. A command has no operand field (30_encoding.md R60, R64), so
every `Instr` is well-formed; what can be ill-formed is a 32-bit word offered as a command, the parameters of
00_scope.md R4, the data of a Host write, and the name of a register offset.
-/

namespace Sys2Proof

/-- The op codes of 30_encoding.md R61. -/
def opCodes : List Nat := [0x01, 0x02, 0x03, 0x04, 0x05, 0x0F]

/-- A word of format C with an assigned op code (30_encoding.md R60, R61, R63): bits 31:8 are zero and bits 7:0
are one of the six codes. -/
def commandWordOk (w : Word) : Bool :=
  decide (w.toNat / 256 = 0) && opCodes.contains (w.toNat % 256)

/-- No command has a field that could hold an illegal value (30_encoding.md R64), so every instruction is
well-formed. -/
def Instr.WellFormed (_ : Instr) : Bool := true

/-- 00_scope.md R4: 1 ≤ NMAX ≤ 2^32 − 1 and 1 ≤ BMAX ≤ 2^32 − 1. -/
def Params.WellFormed (p : Params) : Bool :=
  decide (1 ≤ p.nmax) && decide (p.nmax < 2 ^ 32) && decide (1 ≤ p.bmax) && decide (p.bmax < 2 ^ 32)

/-- 20_memory.md R43: the data of an n-byte write is below 2^(8n). -/
def Access.WellFormed : Access → Bool
  | .read _ _ _ => true
  | .write _ _ n data => decide (data.toNat < 2 ^ (8 * n))

end Sys2Proof
end

