-- ==== Sys2Proof/Decode.lean ====
section
/-!
DEFINITION. Command words (30_encoding.md R60 to R63): the decoder, total on every 32-bit word, and the encoder,
both from the table of R61. A word is written to REG.CMD as four little-endian bytes (R60, 20_memory.md R41).
-/

namespace Sys2Proof

/-- Why a word is ILLEGAL (30_encoding.md R63). -/
inductive Illegal where
  /-- Bits 31:8 are not all zero. -/
  | zeroField (bits : Nat)
  /-- Bits 7:0 are none of the six op codes. -/
  | opCode (op : Nat)
  deriving DecidableEq, Repr

/-- `op`, bits 7:0 of a command word (30_encoding.md R60). -/
def opField (w : Word) : Nat := w.toNat % 256

/-- `zero`, bits 31:8 of a command word (30_encoding.md R60). -/
def zeroField (w : Word) : Nat := w.toNat / 256

/-- The op codes of 30_encoding.md R61 and R62, read. -/
def decodeOp : Nat → Except Illegal Instr
  | 0x01 => .ok .lum
  | 0x02 => .ok .eq
  | 0x03 => .ok .dth
  | 0x04 => .ok .pack
  | 0x05 => .ok .run
  | 0x0F => .ok .clr
  | op => .error (.opCode op)

/-- 30_encoding.md R62: the total decode of a pending word; an illegal word is named by its reason. -/
def decode (w : Word) : Except Illegal Instr :=
  if zeroField w ≠ 0 then .error (.zeroField (zeroField w)) else decodeOp (opField w)

/-- The op codes of 30_encoding.md R61, written. -/
def Instr.op : Instr → Nat
  | .lum => 0x01
  | .eq => 0x02
  | .dth => 0x03
  | .pack => 0x04
  | .run => 0x05
  | .clr => 0x0F

/-- The command word of an instruction (30_encoding.md R60, R61): op in bits 7:0, zero above. -/
def encode (i : Instr) : Word := BitVec.ofNat 32 i.op

/-- The value of little-endian bytes, lowest address first (20_memory.md R41). -/
def littleEndian : List Byte → Nat
  | [] => 0
  | b :: rest => b.toNat + 256 * littleEndian rest

/-- `k` bytes of `v`, least-significant first (20_memory.md R41). -/
def littleEndianBytes : (k v : Nat) → List Byte
  | 0, _ => []
  | k + 1, v => BitVec.ofNat 8 v :: littleEndianBytes k (v / 256)

/-- The command that four bytes written to REG.CMD stand for, lowest address first; any other number of bytes
is no command (30_encoding.md R60: exactly one length). -/
def decodeBytes (bs : List Byte) : Option (Except Illegal Instr) :=
  if bs.length = 4 then some (decode (BitVec.ofNat 32 (littleEndian bs))) else none

/-- The instruction the decoder reads from the `nbits`-bit word `w`, bit 0 least significant; bits above `nbits`
are 0. The word is laid out as the four little-endian bytes of a CMD write. DESIGN CHOICE (log 17): a width over
32 bits is no command. -/
def decodeTableWord (nbits w : Nat) : Option Instr :=
  if nbits ≤ 32 then
    match decodeBytes (littleEndianBytes 4 (w % 2 ^ nbits)) with
    | some (.ok i) => some i
    | _ => none
  else none

end Sys2Proof
end

