-- ==== Sys2Proof/Machine/State.lean ====
section
/-!
DEFINITION. The state of one escpos RFE block (10_state.md R10), as plain data, the reasons a step can stop, and
the state after reset (10_state.md R32, 70_reset_and_hazards.md R170).
-/

namespace Sys2Proof.Machine

/-- The stage sequencer PHASE (10_state.md R13): the block's program counter. Values 5 and 6 are never produced
and are left out of the type (93_implementation_defined.md U11, log 15). -/
inductive Phase where
  | idle
  | lumd
  | eqd
  | dthd
  | packd
  | fail
  deriving DecidableEq, Repr

/-- The contents of ERRCODE (10_state.md R18, 60_exceptions.md R140). Codes 6 to 15 are never produced and are
left out of the type (93_implementation_defined.md U11, log 15). -/
inductive ErrCode where
  | noError
  | eIll
  | eSeq
  | eCfg
  | eCap
  | eAlloc
  deriving DecidableEq, Repr

/-- A memory or register file of the block: the elements written so far, by index, indices strictly rising. An
index not listed has no value stored; what reading it gives is said where it is read (log 5). `Memory Byte` is a
list of `Host.Cell`. -/
abbrev Memory (α : Type) := List (Nat × α)

/-- The state of one block. -/
structure State where
  /-- WIDTH, the image width W in pixels (10_state.md R11). -/
  width : Word
  /-- HEIGHT, the image height H in pixels (10_state.md R11). -/
  height : Word
  /-- CANVAS_WIDTH, the printer canvas width Wc in dots (10_state.md R11). -/
  canvasWidth : Word
  /-- OPTS[3:0]: PHOTO bit 0, ROTATE bit 1, ALIGN bits 3:2; the bits above read as 0 (10_state.md R12, R24). -/
  opts : BitVec 4
  /-- PHASE (10_state.md R13). -/
  phase : Phase
  /-- BUSY and PENDING (10_state.md R31): `none` while BUSY = 0, the latched command word while BUSY = 1. -/
  pending : Option Word
  /-- STATUS.DONE (10_state.md R16, R17). -/
  done : Bool
  /-- STATUS.ERR (10_state.md R16, R17). -/
  err : Bool
  /-- STATUS.WARN (10_state.md R16, R17). -/
  warn : Bool
  /-- STATUS.BUSERR (10_state.md R16, R17). -/
  buserr : Bool
  /-- ERRCODE (10_state.md R18). -/
  errcode : ErrCode
  /-- ERRINFO (10_state.md R19). -/
  errinfo : Word
  /-- IRQ_EN[1:0]: DONE_IE bit 0, ERR_IE bit 1 (10_state.md R20). -/
  irqEn : BitVec 2
  /-- DISTINCT[8:0] (10_state.md R21). -/
  distinct : BitVec 9
  /-- OFFSET (10_state.md R22). -/
  offset : Word
  /-- HIST, the 256 buckets of the luminance histogram (10_state.md R26). -/
  hist : List (Nat × Word)
  /-- LUT, the 256 entries of the equalisation table (10_state.md R27). -/
  lut : List Host.Cell
  /-- PIX, the RGBA pixel buffer, 4 × NMAX bytes (10_state.md R28). -/
  pix : List Host.Cell
  /-- GRAY, the grayscale buffer, NMAX bytes (10_state.md R29). -/
  gray : List Host.Cell
  /-- BMP, the monochrome bitmap, BMAX bytes (10_state.md R30). -/
  bmp : List Host.Cell
  /-- The MODEL's own: NMAX and BMAX (00_scope.md R4), carried by the state and never changed (log 4). -/
  params : Params
  /-- The MODEL's own: which family of free values an unwritten element of GRAY, HIST, LUT or BMP reads (log 7). -/
  draw : Nat
  /-- The MODEL's own: what the outside world does next, oldest first (log 1). -/
  inputs : List Input
  /-- The MODEL's own: the words MemRead has returned to the Host, oldest first (log 12). -/
  replies : List Word
  deriving DecidableEq, Repr

/-- The machine stops. The spec's block never does (70_reset_and_hazards.md R181); these are raised only in
states that no run reaches, where the Engine would leave its memories or divide by zero (20_memory.md R54,
10_state.md R33 item 2). DESIGN CHOICE (log 9). -/
inductive Fault where
  /-- Raised by EQ, DTH and PACK when N > NMAX: the Engine would access GRAY beyond its extent. Safe: the model
  stops where nothing is said. -/
  | grayOutOfRange
  /-- Raised by PACK when Wc mod 8 ≠ 0, W > Wc or H × (Wc div 8) > BMAX: the image does not lie on the canvas or
  the canvas not in BMP. Safe: the model stops where nothing is said. -/
  | canvasOutOfRange
  /-- Raised by EQ when N = 0: the division of 42_tone_mapper.md R82 would have a zero divisor. Safe: the model
  stops where nothing is said. -/
  | zeroPixels
  deriving DecidableEq, Repr

/-- The model has no meaning for an instruction. -/
inductive Refusal where
  /-- Raised by an arm of `exec` for an instruction that has no meaning yet; no arm is such any more. Safe: the
  model stops. -/
  | notModelled (mnemonic : String)
  deriving DecidableEq, Repr

/-- The state after reset (10_state.md R32). HIST, LUT, PIX, GRAY and BMP are unspecified there: nothing is
listed, and every element reads as a free value (log 5, log 6). The four fields of the model's own are DESIGN
CHOICE (log 1, log 4, log 7, log 12). -/
def State.reset : State where
  width := 0
  height := 0
  canvasWidth := 512
  opts := 0
  phase := .idle
  pending := none
  done := false
  err := false
  warn := false
  buserr := false
  errcode := .noError
  errinfo := 0
  irqEn := 0
  distinct := 0
  offset := 0
  hist := []
  lut := []
  pix := []
  gray := []
  bmp := []
  params := Params.ofTestVectors
  draw := 0
  inputs := []
  replies := []

end Sys2Proof.Machine
end

