-- ==== Sys2Proof/Machine/Ops.lean ====
section
/-!
DEFINITION. The named operations over memories and control registers that every meaning shares: reading and
writing elements, taking a command error (60_exceptions.md R141), leaving the failure state, issue, completion and
retirement of a command (45_sequencing_commands.md R110, R111, R117) and reset (70_reset_and_hazards.md R170).
-/

namespace Sys2Proof.Machine

/-! ### Memories and register files -/

/-- The value stored at index `a`, if `a` has been written. -/
def Memory.lookup {α : Type} : Memory α → Nat → Option α
  | [], _ => none
  | (k, v) :: rest, a => if a = k then some v else Memory.lookup rest a

/-- `A[a] <- v` (00_scope.md R7), keeping the indices strictly rising. -/
def Memory.store {α : Type} : Memory α → Nat → α → Memory α
  | [], a, v => [(a, v)]
  | (k, w) :: rest, a, v =>
    if a < k then (a, v) :: (k, w) :: rest
    else if a = k then (a, v) :: rest
    else (k, w) :: Memory.store rest a v

/-- `A[i] <- f i` for i = 0 .. n − 1, and no other element listed: a whole register file written. -/
def Memory.table {α : Type} (n : Nat) (f : Nat → α) : Memory α :=
  (List.range n).map fun i => (i, f i)

/-- `A[i] <- f i` for i = 0 .. n − 1, the elements at index n and above unchanged. -/
def Memory.overwrite {α : Type} (m : Memory α) (n : Nat) (f : Nat → α) : Memory α :=
  Memory.table n f ++ m.filter fun c => decide (n ≤ c.1)

/-- The indices of `m` are strictly rising and at least `from`. -/
def Memory.risingFrom {α : Type} : Nat → Memory α → Bool
  | _, [] => true
  | lo, (k, _) :: rest => decide (lo ≤ k) && Memory.risingFrom (k + 1) rest

/-- The canonical form: indices strictly rising, all below the extent. No entry can equal what an unlisted index
holds, because an unlisted index holds no value (log 5). -/
def Memory.wf {α : Type} (extent : Nat) (m : Memory α) : Bool :=
  Memory.risingFrom 0 m && m.all fun c => decide (c.1 < extent)

/-- Byte `a` of memory `m` of space `space`: the byte written last, or the free value of a byte not written
(93_implementation_defined.md U1). -/
def readByte (space : Space) (draw : Nat) (m : Memory Byte) (a : Nat) : Byte :=
  (m.lookup a).getD (Config.unwrittenByte space draw a)

/-- Bucket `v` of a histogram: the count written last, or the free value of a bucket not written. -/
def readBucket (draw : Nat) (m : Memory Word) (v : Nat) : Word :=
  (m.lookup v).getD (Config.unwrittenBucket draw v)

/-- `PIX[k]` (10_state.md R28). Reset never disturbs PIX, so its free values are of family 0 for good. -/
def State.pixAt (s : State) (k : Nat) : Byte := readByte .pix 0 s.pix k

/-- `GRAY[i]` (10_state.md R29). -/
def State.grayAt (s : State) (i : Nat) : Byte := readByte .gray s.draw s.gray i

/-- `BMP[k]` (10_state.md R30). -/
def State.bmpAt (s : State) (k : Nat) : Byte := readByte .bmp s.draw s.bmp k

/-- `HIST[v]` (10_state.md R26). -/
def State.histAt (s : State) (v : Nat) : Word := readBucket s.draw s.hist v

/-- `LUT[v]` (10_state.md R27). -/
def State.lutAt (s : State) (v : Nat) : Byte := readByte .lut s.draw s.lut v

/-! ### Issue, completion, errors -/

/-- STATUS.BUSY (10_state.md R16, R31). -/
def State.busy (s : State) : Bool := s.pending.isSome

/-- Issue of the word `w` (45_sequencing_commands.md R110): PENDING <- w, BUSY <- 1, DONE <- 0, nothing else. -/
def issue (w : Word) (s : State) : State := { s with pending := some w, done := false }

/-- `BUSY <- 0`, the last effect of every perform step (45_sequencing_commands.md R111). -/
def retire (s : State) : State := { s with pending := none }

/-- A command performed without error (45_sequencing_commands.md R117): DONE <- 1, then BUSY <- 0. -/
def complete (s : State) : State := retire { s with done := true }

/-- `raise E(w)` (60_exceptions.md R141): the taking of a command error, the block's one kind of exception. ERR,
ERRCODE, ERRINFO and PHASE are written and nothing else. -/
def raiseError (e : ErrCode) (w : Word) (s : State) : State :=
  { s with err := true, errcode := e, errinfo := w, phase := .fail }

/-- The return from the failure state, and the end of a conversion (45_sequencing_commands.md R115,
60_exceptions.md R154): the body of CLR. -/
def clearErrors (s : State) : State :=
  { s with phase := .idle, err := false, errcode := .noError, errinfo := 0, warn := false }

/-! ### Bus errors and reset -/

/-- A refused Host access (60_exceptions.md R150): BUSERR <- 1 and no other effect. -/
def refuseAccess (s : State) : State := { s with buserr := true }

/-- Reset (70_reset_and_hazards.md R170): every register at the value of 10_state.md R32; no memory and no
register file is written. A pending command is abandoned; GRAY, HIST, LUT and BMP are then unspecified (R171,
93_implementation_defined.md U2), so they hold nothing written and a fresh family of free values. -/
def applyReset (s : State) : State :=
  let abandoned := s.busy
  { s with
    width := 0
    height := 0
    canvasWidth := 512
    opts := 0
    phase := .idle
    pending := none
    done := false
    err := false
    warn := false
    buserr := false
    errcode := .noError
    errinfo := 0
    irqEn := 0
    distinct := 0
    offset := 0
    hist := if abandoned then [] else s.hist
    lut := if abandoned then [] else s.lut
    gray := if abandoned then [] else s.gray
    bmp := if abandoned then [] else s.bmp
    draw := if abandoned then s.draw + 1 else s.draw }

end Sys2Proof.Machine
end

