-- ==== Sys2Proof/Machine/Operands.lean ====
section
/-!
DEFINITION. The constants of the datapath (00_scope.md R5), the implicit operands of every command
(30_encoding.md R64) and the arithmetic notation of 00_scope.md R7.
-/

namespace Sys2Proof.Machine

/-! ### Constants (00_scope.md R5) -/

/-- `KR`, the red weight. -/
def kRed : Nat := 55

/-- `KG`, the green weight. -/
def kGreen : Nat := 182

/-- `KB`, the blue weight. -/
def kBlue : Nat := 18

/-- `LDIV`, the divisor of the weighted sum and of the alpha quotient. -/
def lumaDiv : Nat := 255

/-- `EQ_SCALE`. -/
def eqScale : Nat := 255

/-- `T_DITHER`: a value up to this quantises to 0 in DTH. A name of its own beside `tInk` (R5, U12). -/
def tDither : Nat := 128

/-- `T_INK`: a value up to this is ink in PACK. A name of its own beside `tDither` (R5, U12). -/
def tInk : Nat := 128

/-- `T_DISTINCT`: the distinct-level count of the advisory. -/
def tDistinct : Nat := 16

/-- `KDIV`: kernel weights are 1024ths. -/
def kernelDiv : Nat := 1024

/-! ### Arithmetic (00_scope.md R7) -/

/-- `tdiv(a, b)`: division truncating toward zero, for b > 0. -/
def truncDiv (a b : Int) : Int := if 0 ≤ a then a / b else -((-a) / b)

/-- `clamp(v, lo, hi)`. -/
def clamp (v lo hi : Int) : Int := if v < lo then lo else if v > hi then hi else v

/-! ### Operands (30_encoding.md R64) -/

/-- ALIGN (10_state.md R12). -/
inductive Align where
  | unset
  | left
  | center
  | right
  deriving DecidableEq, Repr

/-- W = WIDTH. -/
def State.w (s : State) : Nat := s.width.toNat

/-- H = HEIGHT. -/
def State.h (s : State) : Nat := s.height.toNat

/-- Wc = CANVAS_WIDTH. -/
def State.wc (s : State) : Nat := s.canvasWidth.toNat

/-- N = W × H. -/
def State.n (s : State) : Nat := s.w * s.h

/-- stride = Wc div 8. -/
def State.stride (s : State) : Nat := s.wc / 8

/-- PHOTO = OPTS[0]. -/
def State.photo (s : State) : Bool := s.opts.getLsbD 0

/-- ROTATE = OPTS[1]. -/
def State.rotate (s : State) : Bool := s.opts.getLsbD 1

/-- ALIGN as 10_state.md R12 encodes it: 0 unset, 1 left, 2 center, 3 right. -/
def alignOf (high low : Bool) : Align :=
  match high, low with
  | false, false => .unset
  | false, true => .left
  | true, false => .center
  | true, true => .right

/-- ALIGN = OPTS[3:2]. -/
def State.align (s : State) : Align := alignOf (s.opts.getLsbD 3) (s.opts.getLsbD 2)

/-- GRAY holds the whole image: N ≤ NMAX (10_state.md R33 item 2). -/
def State.grayFits (s : State) : Bool := decide (s.n ≤ s.params.nmax)

/-- The image lies on the canvas and the canvas in BMP (10_state.md R33 item 2). -/
def State.canvasFits (s : State) : Bool :=
  decide (s.wc % 8 = 0) && decide (s.w ≤ s.wc) && decide (s.h * s.stride ≤ s.params.bmax)

end Sys2Proof.Machine
end

