-- ==== Sys2Proof/Machine/Flags.lean ====
section
/-!
DEFINITION. Every flag computation of the spec: the codes of PHASE and ERRCODE, the STATUS word (10_state.md R16),
write-1-to-clear, the advisory WARN (41_luminance.md R74) and the interrupt line (60_exceptions.md R153).
-/

namespace Sys2Proof.Machine

/-- The value of PHASE (10_state.md R13). -/
def phaseCode : Phase → Nat
  | .idle => 0
  | .lumd => 1
  | .eqd => 2
  | .dthd => 3
  | .packd => 4
  | .fail => 7

/-- The value of ERRCODE (10_state.md R18). -/
def errNumber : ErrCode → Nat
  | .noError => 0
  | .eIll => 1
  | .eSeq => 2
  | .eCfg => 3
  | .eCap => 4
  | .eAlloc => 5

/-- The value of bit `i` of a word when it is `b`. -/
def bitAt (b : Bool) (i : Nat) : Nat := if b then 2 ^ i else 0

/-- STATUS as the Host reads it (10_state.md R16): BUSY 0, DONE 1, ERR 2, WARN 3, BUSERR 4, PHASE 10:8; the other
bits 0. -/
def statusWord (s : State) : Word :=
  BitVec.ofNat 32
    (bitAt s.busy 0 + bitAt s.done 1 + bitAt s.err 2 + bitAt s.warn 3 + bitAt s.buserr 4
      + 256 * phaseCode s.phase)

/-- A Host write of `d` to STATUS (10_state.md R16): bit 1 clears DONE, bit 4 clears BUSERR, nothing else acts. -/
def writeStatus (d : Word) (s : State) : State :=
  { s with
    done := if d.getLsbD 1 then false else s.done
    buserr := if d.getLsbD 4 then false else s.buserr }

/-- `advisory(photo, d)` (41_luminance.md R74). -/
def advisory (photo : Bool) (d : Nat) : Bool :=
  (photo && decide (d < tDistinct)) || (!photo && decide (tDistinct ≤ d))

/-- IRQ_EN.DONE_IE (10_state.md R20). -/
def State.doneIe (s : State) : Bool := s.irqEn.getLsbD 0

/-- IRQ_EN.ERR_IE (10_state.md R20). -/
def State.errIe (s : State) : Bool := s.irqEn.getLsbD 1

/-- The output `irq` (60_exceptions.md R153): a level, a function of STATUS and IRQ_EN, with no storage. -/
def irq (s : State) : Bool := (s.done && s.doneIe) || (s.err && s.errIe)

/-- A conversion has ended successfully (70_reset_and_hazards.md R180). -/
def conversionEnded (s : State) : Bool := !s.busy && s.phase == .packd && !s.err

/-- A conversion has failed (70_reset_and_hazards.md R180). -/
def conversionFailed (s : State) : Bool := !s.busy && s.phase == .fail

end Sys2Proof.Machine
end

