-- ==== Sys2Proof/Machine/Bus.lean ====
section
/-!
DEFINITION. The Host's side of the block: extents, sizes and rights of the six spaces (20_memory.md R40, R44, R45),
the REG map (10_state.md R23) and the two primitives MemRead and MemWrite (20_memory.md R42, R43).
-/

namespace Sys2Proof.Machine

/-! ### The spaces -/

/-- The extent of a space in bytes (20_memory.md R40). -/
def extent (p : Params) : Space → Nat
  | .reg => 64
  | .pix => 4 * p.nmax
  | .gray => p.nmax
  | .bmp => p.bmax
  | .hist => 1024
  | .lut => 256

/-- The access sizes a space admits (20_memory.md R44). -/
def admitsSize : Space → Nat → Bool
  | .reg, n => n == 4
  | .hist, n => n == 4
  | .pix, n => n == 1 || n == 2 || n == 4
  | .gray, n => n == 1 || n == 2 || n == 4
  | .bmp, n => n == 1 || n == 2 || n == 4
  | .lut, n => n == 1 || n == 2 || n == 4

/-- The spaces the Host may write (20_memory.md R45). -/
def hostWritable : Space → Bool
  | .reg => true
  | .pix => true
  | .gray => false
  | .bmp => false
  | .hist => false
  | .lut => false

/-- Conditions (a), (b) and (c) of 20_memory.md R42: size admitted, aligned, inside the extent. -/
def accessOk (p : Params) (space : Space) (addr n : Nat) : Bool :=
  admitsSize space n && decide (addr % n = 0) && decide (addr + n ≤ extent p space)

/-! ### The REG space -/

/-- The register at a REG offset (10_state.md R23); `none` at an unmapped offset. -/
def regAt : Nat → Option RegName
  | 0x00 => some .id
  | 0x04 => some .cmd
  | 0x08 => some .status
  | 0x0C => some .errcode
  | 0x10 => some .errinfo
  | 0x14 => some .irqEn
  | 0x18 => some .width
  | 0x1C => some .height
  | 0x20 => some .canvasWidth
  | 0x28 => some .opts
  | 0x2C => some .distinct
  | 0x30 => some .offset
  | _ => none

/-- The REG offset of a register (10_state.md R23). -/
def regOffset : RegName → Nat
  | .id => 0x00
  | .cmd => 0x04
  | .status => 0x08
  | .errcode => 0x0C
  | .errinfo => 0x10
  | .irqEn => 0x14
  | .width => 0x18
  | .height => 0x1C
  | .canvasWidth => 0x20
  | .opts => 0x28
  | .distinct => 0x2C
  | .offset => 0x30

/-- The constant ID reads (10_state.md R14). -/
def idWord : Word := 0x4C554D41#32

/-- What a read of a register returns (10_state.md R11 to R22); reserved bits read as 0 (R24), CMD as 0 (R15). -/
def regValue (r : RegName) (s : State) : Word :=
  match r with
  | .id => idWord
  | .cmd => 0
  | .status => statusWord s
  | .errcode => BitVec.ofNat 32 (errNumber s.errcode)
  | .errinfo => s.errinfo
  | .irqEn => s.irqEn.setWidth 32
  | .width => s.width
  | .height => s.height
  | .canvasWidth => s.canvasWidth
  | .opts => s.opts.setWidth 32
  | .distinct => s.distinct.setWidth 32
  | .offset => s.offset

/-- The configuration lock (10_state.md R25): outside IDLE a write to an operand register is refused. -/
def lockedWrite (s written : State) : State := if s.phase = .idle then written else refuseAccess s

/-- What a write of `d` to a register does (10_state.md R11 to R25). -/
def regWrite (r : RegName) (d : Word) (s : State) : State :=
  match r with
  | .id => refuseAccess s
  | .cmd => issue d s
  | .status => writeStatus d s
  | .errcode => refuseAccess s
  | .errinfo => refuseAccess s
  | .irqEn => { s with irqEn := d.setWidth 2 }
  | .width => lockedWrite s { s with width := d }
  | .height => lockedWrite s { s with height := d }
  | .canvasWidth => lockedWrite s { s with canvasWidth := d }
  | .opts => lockedWrite s { s with opts := d.setWidth 4 }
  | .distinct => refuseAccess s
  | .offset => refuseAccess s

/-! ### The memory spaces -/

/-- `byte(space, addr)` of a memory space (20_memory.md R41, R42): HIST bucket v at bytes 4v to 4v + 3, the least
significant first. REG has no bytes of its own: it is read by words. -/
def spaceByte (s : State) (space : Space) (addr : Nat) : Byte :=
  match space with
  | .reg => 0
  | .pix => s.pixAt addr
  | .gray => s.grayAt addr
  | .bmp => s.bmpAt addr
  | .hist => (s.histAt (addr / 4)).extractLsb' (8 * (addr % 4)) 8
  | .lut => s.lutAt addr

/-- The `n` bytes of a space from `addr` on, as one little-endian number (20_memory.md R42). -/
def spaceValue (s : State) (space : Space) (addr n : Nat) : Nat :=
  littleEndian ((List.range n).map fun j => spaceByte s space (addr + j))

/-- `PIX[addr + j] <- (v >> (8 × j)) & 0xFF` for j = 0 .. n − 1 (20_memory.md R43). -/
def pixStore (m : Memory Byte) (addr n : Nat) (v : Word) : Memory Byte :=
  (List.range n).foldl (fun m j => m.store (addr + j) (v.extractLsb' (8 * j) 8)) m

/-! ### The primitives -/

/-- `MemRead(space, addr, n)` when it is not held (20_memory.md R42): the word returned and the state after. -/
def memRead (space : Space) (addr n : Nat) (s : State) : Word × State :=
  if accessOk s.params space addr n then
    match space with
    | .reg =>
      match regAt addr with
      | some r => (regValue r s, s)
      | none => (0, refuseAccess s)
    | _ => (BitVec.ofNat 32 (spaceValue s space addr n), s)
  else (0, refuseAccess s)

/-- `MemWrite(space, addr, n, v)` when it is not held (20_memory.md R43): the state after. -/
def memWrite (space : Space) (addr n : Nat) (v : Word) (s : State) : State :=
  if accessOk s.params space addr n && hostWritable space then
    match space with
    | .reg =>
      match regAt addr with
      | some r => regWrite r v s
      | none => refuseAccess s
    | .pix => { s with pix := pixStore s.pix addr n v }
    | _ => refuseAccess s
  else refuseAccess s

/-- The one access that is not held while BUSY = 1 (20_memory.md R48): the read of STATUS. -/
def isStatusRead (a : Access) : Bool := a == .read .reg 0x08 4

/-- An access that has its step: a read appends the word it returns to the Host's replies (log 12). -/
def hostAccess (a : Access) (s : State) : State :=
  match a with
  | .read space addr n =>
    let r := memRead space addr n s
    { r.2 with replies := r.2.replies ++ [r.1] }
  | .write space addr n v => memWrite space addr n v s

end Sys2Proof.Machine
end

