-- ==== Sys2Proof/Machine/Sequencer.lean ====
section
/-!
DEFINITION. What every command goes through before and after its own effect: the legality table
(45_sequencing_commands.md R112), the start checks (R113), the sticky failure state (60_exceptions.md R149) and
the frame of the perform step (45_sequencing_commands.md R111).
-/

namespace Sys2Proof.Machine

/-- `legal(c, PHASE, PHOTO)` (45_sequencing_commands.md R112). -/
def legal (i : Instr) (p : Phase) (photo : Bool) : Bool :=
  match i with
  | .lum => p == .idle
  | .eq => p == .lumd && photo
  | .dth => p == .eqd
  | .pack => (p == .lumd && !photo) || p == .dthd
  | .run => p == .idle
  | .clr => true

/-- `start_checks` (45_sequencing_commands.md R113): the error of the first failing line, if any. -/
def startError (s : State) : Option ErrCode :=
  if s.w = 0 ∨ s.h = 0 ∨ s.wc % 8 ≠ 0 then some .eCfg
  else if s.wc < s.w then some .eCap
  else if s.params.nmax < s.w * s.h ∨ s.params.bmax < s.h * (s.wc / 8) then some .eAlloc
  else none

/-- The start checks of LUM and RUN; the other commands have none (45_sequencing_commands.md R111). -/
def checks (i : Instr) (s : State) : Option ErrCode :=
  match i with
  | .lum => startError s
  | .run => startError s
  | .eq => none
  | .dth => none
  | .pack => none
  | .clr => none

/-- A command that raises `e`: the error record of 60_exceptions.md R141, then BUSY <- 0; DONE is not touched. -/
def performError (e : ErrCode) (w : Word) (s : State) : State := retire (raiseError e w s)

/-- The perform step of an illegal word (45_sequencing_commands.md R111, 30_encoding.md R63): E_ILL, or nothing but
BUSY <- 0 in FAIL (60_exceptions.md R149). -/
def performIllegal (w : Word) (s : State) : State :=
  if s.phase = .fail then retire s else performError .eIll w s

/-- What stands between the pending command `i` and its effect (45_sequencing_commands.md R111): in FAIL every word
but CLR is ignored (60_exceptions.md R149); then E_SEQ, then the start checks; `none` when the command executes. -/
def turnedAway (i : Instr) (s : State) : Option State :=
  if s.phase = .fail ∧ i ≠ .clr then some (retire s)
  else if legal i s.phase s.photo = false then some (performError .eSeq (encode i) s)
  else (checks i s).map fun e => performError e (encode i) s

/-- The frame of a perform step: the command is turned away, or executes and completes. -/
def performWith (i : Instr) (body : State → State) (s : State) : State :=
  match turnedAway i s with
  | some t => t
  | none => complete (body s)

end Sys2Proof.Machine
end

