-- ==== Sys2Proof/Machine/Compositor.lean ====
section
/-!
DEFINITION. PACK, the Canvas Compositor: threshold, rotate, align and pack (44_canvas_compositor.md R100 to R104).
-/

namespace Sys2Proof.Machine

/-- `eff` (44_canvas_compositor.md R101): unset means left, or right when rotating. -/
def effectiveAlign (align : Align) (rotate : Bool) : Align :=
  match align, rotate with
  | .unset, true => .right
  | .unset, false => .left
  | a, _ => a

/-- `offset(Wc, W, align, rotate)` (44_canvas_compositor.md R101). -/
def canvasOffset (wc w : Nat) (align : Align) (rotate : Bool) : Nat :=
  match effectiveAlign align rotate with
  | .center => (wc - w) / 2
  | .right => wc - w
  | .left => 0
  | .unset => 0

/-- The source pixel of destination pixel `j` (44_canvas_compositor.md R102). -/
def sourcePixel (n : Nat) (rotate : Bool) (j : Nat) : Nat := if rotate then n - 1 - j else j

/-- Ink or paper (44_canvas_compositor.md R103): a value up to 128 is ink. -/
def isInk (v : Byte) : Bool := decide (v.toNat ≤ tInk)

/-- `0x80 >> (cx mod 8)` (44_canvas_compositor.md R104): the bit of canvas column `cx` in its byte, the leftmost
pixel in bit 7. -/
def columnMask (cx : Nat) : Byte := 0x80#8 >>> (cx % 8)

/-- The turn of destination pixel `j` in PACK (44_canvas_compositor.md R100): an ink pixel sets one bit of BMP. -/
def packPixel (s : State) (off : Nat) (m : Memory Byte) (j : Nat) : Memory Byte :=
  if isInk (s.grayAt (sourcePixel s.n s.rotate j)) then
    let cx := j % s.w + off
    let k := (j / s.w * s.wc + cx) / 8
    m.store k (readByte .bmp s.draw m k ||| columnMask cx)
  else m

/-- BMP after PACK (44_canvas_compositor.md R104): H × stride bytes cleared, then the ink pixels set. -/
def packed (s : State) (off : Nat) : Memory Byte :=
  (List.range s.n).foldl (packPixel s off) (Memory.overwrite s.bmp (s.h * s.stride) fun _ => 0)

/-- The body of PACK (44_canvas_compositor.md R100). -/
def packBody (s : State) : State :=
  let off := canvasOffset s.wc s.w s.align s.rotate
  { s with bmp := packed s off, offset := BitVec.ofNat 32 off, phase := .packd }

/-- The perform step of PACK (44_canvas_compositor.md R100, 45_sequencing_commands.md R111). The two faults arise
only in states no run reaches (10_state.md R33 item 2; log 9). -/
def execPack (s : State) : Host.Outcome State Fault Refusal :=
  match turnedAway .pack s with
  | some t => .next t
  | none =>
    if s.grayFits = false then .fault .grayOutOfRange
    else if s.canvasFits = false then .fault .canvasOutOfRange
    else .next (complete (packBody s))

end Sys2Proof.Machine
end

