-- ==== Sys2Proof/Machine/Disperser.lean ====
section
/-!
DEFINITION. DTH, the Disperser: 12-tap forward error diffusion (43_disperser.md R90 to R93).
-/

namespace Sys2Proof.Machine

/-- One tap (dx, dy, w) of the kernel (43_disperser.md R91). -/
structure Tap where
  dx : Int
  dy : Nat
  weight : Int
  deriving DecidableEq, Repr

/-- `KERNEL`, in list order (43_disperser.md R91). -/
def kernel : List Tap :=
  [⟨1, 0, 149⟩, ⟨2, 0, 107⟩,
   ⟨-2, 1, 64⟩, ⟨-1, 1, 107⟩, ⟨0, 1, 149⟩, ⟨1, 1, 107⟩, ⟨2, 1, 64⟩,
   ⟨-2, 2, 21⟩, ⟨-1, 2, 64⟩, ⟨0, 2, 107⟩, ⟨1, 2, 64⟩, ⟨2, 2, 21⟩]

/-- `n <- 0 if o ≤ 128 else 255` (43_disperser.md R92). -/
def quantise (o : Nat) : Nat := if o ≤ tDither then 0 else 255

/-- `e = o − n`, the residual (43_disperser.md R92). -/
def residual (o : Nat) : Int := (o : Int) - (quantise o : Int)

/-- `d = tdiv(e × w, 1024)` (43_disperser.md R93). -/
def increment (e weight : Int) : Int := truncDiv (e * weight) kernelDiv

/-- `clamp(old + d, 0, 255)`, the byte stored at a target (43_disperser.md R93). -/
def diffused (old : Byte) (d : Int) : Byte := BitVec.ofInt 8 (clamp ((old.toNat : Int) + d) 0 255)

/-- The index of the target of a tap of pixel (x, y), if it lies inside the w × h image (43_disperser.md R93). -/
def tapTarget (w h x y : Nat) (t : Tap) : Option Nat :=
  let tx : Int := (x : Int) + t.dx
  let ty : Nat := y + t.dy
  if tx < 0 ∨ (w : Int) ≤ tx ∨ h ≤ ty then none else some (ty * w + tx.toNat)

/-- One tap applied to GRAY; a tap outside the image is skipped (43_disperser.md R93). -/
def applyTap (draw w h x y : Nat) (e : Int) (m : Memory Byte) (t : Tap) : Memory Byte :=
  match tapTarget w h x y t with
  | none => m
  | some j => m.store j (diffused (readByte .gray draw m j) (increment e t.weight))

/-- The visit of pixel `i` = y × w + x: quantise it, then push its residual onto the targets (43_disperser.md R90). -/
def visitPixel (draw w h : Nat) (m : Memory Byte) (i : Nat) : Memory Byte :=
  let o := (readByte .gray draw m i).toNat
  kernel.foldl (applyTap draw w h (i % w) (i / w) (residual o)) (m.store i (BitVec.ofNat 8 (quantise o)))

/-- GRAY after DTH: every pixel visited once, in row-major order (43_disperser.md R92). -/
def disperse (draw w h : Nat) (m : Memory Byte) : Memory Byte :=
  (List.range (w * h)).foldl (visitPixel draw w h) m

/-- The body of DTH (43_disperser.md R90). -/
def dthBody (s : State) : State :=
  { s with gray := disperse s.draw s.w s.h s.gray, phase := .dthd }

/-- The perform step of DTH (43_disperser.md R90, 45_sequencing_commands.md R111). The fault arises only in states
no run reaches (10_state.md R33 item 2; log 9). -/
def execDth (s : State) : Host.Outcome State Fault Refusal :=
  match turnedAway .dth s with
  | some t => .next t
  | none => if s.grayFits = false then .fault .grayOutOfRange else .next (complete (dthBody s))

end Sys2Proof.Machine
end

