-- ==== Sys2Proof/Machine/Luminance.lean ====
section
/-!
DEFINITION. LUM, the Luminance Converter (41_luminance.md R70 to R74).
-/

namespace Sys2Proof.Machine

/-- One channel of `blend` (41_luminance.md R71): the alpha quotient is taken first, then multiplied. -/
def blendChannel (c a : Nat) : Nat := (255 - a) + (a / lumaDiv) * c

/-- `luma(R, G, B)` (41_luminance.md R72): the weighted sum, then one truncating division. -/
def luma (r g b : Nat) : Nat := (kRed * r + kGreen * g + kBlue * b) / lumaDiv

/-- The luminance of a pixel: `luma` of `blend` (41_luminance.md R70). -/
def pixelLuma (r g b a : Nat) : Nat := luma (blendChannel r a) (blendChannel g a) (blendChannel b a)

/-- The luminance LUM computes for pixel `i` from PIX[4i .. 4i + 3] (41_luminance.md R70, 10_state.md R28). -/
def lumaOf (s : State) (i : Nat) : Byte :=
  BitVec.ofNat 8 (pixelLuma (s.pixAt (4 * i)).toNat (s.pixAt (4 * i + 1)).toNat
    (s.pixAt (4 * i + 2)).toNat (s.pixAt (4 * i + 3)).toNat)

/-- `HIST[L] <- HIST[L] + 1` (41_luminance.md R73). -/
def countLevel (draw : Nat) (m : Memory Word) (level : Byte) : Memory Word :=
  m.store level.toNat (readBucket draw m level.toNat + 1)

/-- The histogram of `n` pixels: all 256 buckets cleared, then one increment per pixel (41_luminance.md R73). -/
def histogram (draw n : Nat) (level : Nat → Byte) : Memory Word :=
  (List.range n).foldl (fun m i => countLevel draw m (level i)) (Memory.table 256 fun _ => 0)

/-- The number of non-zero buckets (41_luminance.md R74). -/
def distinctLevels (draw : Nat) (m : Memory Word) : Nat :=
  (List.range 256).countP fun v => decide (readBucket draw m v ≠ 0)

/-- The body of LUM (41_luminance.md R70). The pixels are independent and the increments commute (R70), so GRAY and
HIST are each written in a pass of their own. -/
def lumBody (s : State) : State :=
  let hist := histogram s.draw s.n (lumaOf s)
  let d := distinctLevels s.draw hist
  { s with
    gray := Memory.overwrite s.gray s.n (lumaOf s)
    hist := hist
    distinct := BitVec.ofNat 9 d
    warn := advisory s.photo d
    phase := .lumd }

/-- The perform step of LUM (41_luminance.md R70, 45_sequencing_commands.md R111). -/
def execLum (s : State) : Host.Outcome State Fault Refusal := .next (performWith .lum lumBody s)

end Sys2Proof.Machine
end

