-- ==== Sys2Proof/Machine/ToneMapper.lean ====
section
/-!
DEFINITION. EQ, the Tone Mapper: histogram equalisation (42_tone_mapper.md R80 to R83).
-/

namespace Sys2Proof.Machine

/-- `CDF[v]`, the inclusive prefix sum HIST[0] + ... + HIST[v] (42_tone_mapper.md R81). -/
def cdf (bucket : Nat → Nat) : Nat → Nat
  | 0 => bucket 0
  | v + 1 => cdf bucket v + bucket (v + 1)

/-- The first loop of EQ (42_tone_mapper.md R80): `k` buckets from `v` on, the running sum `c` before them, each
LUT entry the truncated 255 × c / n (R82). -/
def lutLoop (bucket : Nat → Nat) (n : Nat) : (k v c : Nat) → Memory Byte
  | 0, _, _ => []
  | k + 1, v, c =>
    (v, BitVec.ofNat 8 (eqScale * (c + bucket v) / n)) :: lutLoop bucket n k (v + 1) (c + bucket v)

/-- LUT after EQ (42_tone_mapper.md R82). -/
def lutTable (s : State) : Memory Byte := lutLoop (fun v => (s.histAt v).toNat) s.n 256 0 0

/-- The body of EQ (42_tone_mapper.md R80). LUT is complete before the first pixel is rewritten, and each pixel is
rewritten from its own old value (R83). -/
def eqBody (s : State) : State :=
  let lut := lutTable s
  { s with
    lut := lut
    gray := Memory.overwrite s.gray s.n fun i => readByte .lut s.draw lut (s.grayAt i).toNat
    phase := .eqd }

/-- The perform step of EQ (42_tone_mapper.md R80, 45_sequencing_commands.md R111). The two faults arise only in
states no run reaches (10_state.md R33 item 2; log 9). -/
def execEq (s : State) : Host.Outcome State Fault Refusal :=
  match turnedAway .eq s with
  | some t => .next t
  | none =>
    if s.n = 0 then .fault .zeroPixels
    else if s.grayFits = false then .fault .grayOutOfRange
    else .next (complete (eqBody s))

end Sys2Proof.Machine
end

