-- ==== Sys2Proof/Machine/Control.lean ====
section
/-!
DEFINITION. The two commands that are no stage of their own: RUN and CLR (45_sequencing_commands.md R114, R115).
-/

namespace Sys2Proof.Machine

/-- The body of RUN (45_sequencing_commands.md R114): the bodies of LUM, in photo mode EQ and DTH, and PACK. -/
def runBody (s : State) : State :=
  let t := lumBody s
  packBody (if s.photo then dthBody (eqBody t) else t)

/-- The perform step of RUN (45_sequencing_commands.md R114, R111). -/
def execRun (s : State) : Host.Outcome State Fault Refusal := .next (performWith .run runBody s)

/-- The perform step of CLR (45_sequencing_commands.md R115, R111): legal in every phase, raises nothing. -/
def execClr (s : State) : Host.Outcome State Fault Refusal := .next (performWith .clr clearErrors s)

end Sys2Proof.Machine
end

