-- ==== Sys2Proof/Machine/Dispatch.lean ====
section
/-!
DEFINITION. `exec`: the perform step of a decoded command, one arm per constructor of `Instr`.
-/

namespace Sys2Proof.Machine

def exec (i : Instr) (s : State) : Host.Outcome State Fault Refusal :=
  match i with
  | .lum => Sys2Proof.Machine.execLum s
  | .eq => Sys2Proof.Machine.execEq s
  | .dth => Sys2Proof.Machine.execDth s
  | .pack => Sys2Proof.Machine.execPack s
  | .run => Sys2Proof.Machine.execRun s
  | .clr => Sys2Proof.Machine.execClr s

end Sys2Proof.Machine
end

