-- ==== Sys2Proof/Machine/Engine.lean ====
section
/-!
DEFINITION. Whose step comes next (00_scope.md R6): the Engine's perform step (45_sequencing_commands.md R111), the
Host's accesses under the stall rule (20_memory.md R48) and reset (70_reset_and_hazards.md R170).
-/

namespace Sys2Proof.Machine

/-- `perform` with w = PENDING (45_sequencing_commands.md R111): decode, then the command's own step. -/
def perform (w : Word) (s : State) : Host.Outcome State Fault Refusal :=
  match decode w with
  | .ok i => exec i s
  | .error _ => .next (performIllegal w s)

/-- The Engine's turn: it performs the pending command; while BUSY = 0 it has no step and keeps all its state
(60_exceptions.md R159). -/
def engineTurn (s : State) : Host.Outcome State Fault Refusal :=
  match s.pending with
  | some w => perform w s
  | none => .next s

/-- One step of the block and its Host. The oldest input moves. An access held by the stall rule stays the oldest
input and the Engine moves in its place; with no input left the Engine moves (log 1, log 2). -/
def turn (s : State) : Host.Outcome State Fault Refusal :=
  match s.inputs with
  | [] => engineTurn s
  | .engine :: rest => engineTurn { s with inputs := rest }
  | .reset :: rest => .next (applyReset { s with inputs := rest })
  | .access a :: rest =>
    if s.busy && !isStatusRead a then engineTurn s
    else .next (hostAccess a { s with inputs := rest })

end Sys2Proof.Machine
end

