-- ==== Sys2Proof/Machine/Step.lean ====
section
/-!
DEFINITION. The step of the machine, and the placing of a command where the next step performs it.
-/

namespace Sys2Proof.Machine

/-- One step: of the Host, of the Engine, or reset, as the state's inputs say. -/
def step (s : State) : Host.Outcome State Fault Refusal := turn s

/-- `s` with the command word `w` issued (45_sequencing_commands.md R110: the only way a command reaches the
Engine) and the Engine's turn next, so that the very next step performs it (log 3). -/
def State.withFetchWord (s : State) (nbits w : Nat) : State :=
  { issue (BitVec.ofNat 32 (w % 2 ^ nbits)) s with inputs := .engine :: s.inputs }

end Sys2Proof.Machine
end

