-- ==== Sys2Proof/Machine/HostScript.lean ====
section
/-!
DEFINITION. The host-script notation (30_encoding.md R65, R66) as lists of inputs, the host configuration record
(48_host_framing.md R121) and the scripts of one conversion (R128).
-/

namespace Sys2Proof.Machine

/-- `WR <REGNAME>, <value>` (30_encoding.md R65). -/
def wr (r : RegName) (v : Word) : Input := .access (.write .reg (regOffset r) 4 v)

/-- `RD <REGNAME>` (30_encoding.md R65). -/
def rd (r : RegName) : Input := .access (.read .reg (regOffset r) 4)

/-- `CMD <MNEMONIC>` (30_encoding.md R65). -/
def cmd (i : Instr) : Input := wr .cmd (encode i)

/-- `WRM <SPACE>, <offset>, <n>, <value>` (30_encoding.md R65). -/
def wrm (space : Space) (addr n : Nat) (v : Word) : Input := .access (.write space addr n v)

/-- `RDM <SPACE>, <offset>, <n>` (30_encoding.md R65). -/
def rdm (space : Space) (addr n : Nat) : Input := .access (.read space addr n)

/-- `WAIT` (30_encoding.md R66): `polls` reads of STATUS that come before the Engine's turn and see BUSY = 1, the
Engine's turn, and the read that sees BUSY = 0 (log 1). -/
def wait (polls : Nat) : List Input := List.replicate polls (rd .status) ++ [.engine, rd .status]

/-- The code of an ALIGN value (10_state.md R12). -/
def alignCode : Align → Nat
  | .unset => 0
  | .left => 1
  | .center => 2
  | .right => 3

/-- `OPT photo=.. rotate=.. align=..` (30_encoding.md R66). -/
def opt (photo rotate : Bool) (align : Align) : Input :=
  wr .opts (BitVec.ofNat 32 (photo.toNat + 2 * rotate.toNat + 4 * alignCode align))

/-- A pixel of the decoded image (48_host_framing.md R131): 8 bits per channel, alpha not premultiplied. -/
structure Pixel where
  r : Byte
  g : Byte
  b : Byte
  a : Byte
  deriving DecidableEq, Repr

/-- The PIX word of a pixel, `a << 24 | b << 16 | g << 8 | r` (30_encoding.md R66, 20_memory.md R41). -/
def pixelWord (p : Pixel) : Word := p.a ++ p.b ++ p.g ++ p.r

/-- `LOADPIX` from pixel `k` on (30_encoding.md R66). -/
def loadPixFrom : (k : Nat) → List Pixel → List Input
  | _, [] => []
  | k, p :: rest => wrm .pix (4 * k) 4 (pixelWord p) :: loadPixFrom (k + 1) rest

/-- `LOADPIX` (30_encoding.md R66). -/
def loadPix (ps : List Pixel) : List Input := loadPixFrom 0 ps

/-- `CONVERT`, the stepwise form of RUN (30_encoding.md R66), each WAIT with `polls` reads before the Engine's turn. -/
def convert (photo : Bool) (polls : Nat) : List Input :=
  cmd .lum :: wait polls
    ++ (if photo then cmd .eq :: wait polls ++ cmd .dth :: wait polls else [])
    ++ cmd .pack :: wait polls

/-- `ACK` (30_encoding.md R66). -/
def ack : Input := wr .status 0x00000002#32

/-! ### One conversion (48_host_framing.md R128) -/

/-- The host configuration record (48_host_framing.md R121). The first four fields live in OPTS and CANVAS_WIDTH,
where `prepare` writes them; the last three in host software only. `speed` has no effect anywhere (R129). -/
structure HostConfig where
  photo : Bool
  align : Align
  rotate : Bool
  canvasWidth : Word
  cut : Bool
  speed : Byte
  maxBandHeight : Word
  deriving DecidableEq, Repr

/-- The defaults of 48_host_framing.md R121; `speed` has none (R129), so the caller gives it. -/
def HostConfig.default (speed : Byte) : HostConfig where
  photo := false
  align := .unset
  rotate := false
  canvasWidth := 512
  cut := false
  speed := speed
  maxBandHeight := 1662

/-- What the decoder delivers (48_host_framing.md R131): the size, and the pixels in row-major order. -/
structure Image where
  width : Word
  height : Word
  pixels : List Pixel
  deriving DecidableEq, Repr

/-- The decoder delivers W × H pixels (48_host_framing.md R131, 10_state.md R28). -/
def Image.WellFormed (img : Image) : Bool := decide (img.pixels.length = img.width.toNat * img.height.toNat)

/-- The two forms of the command part of 48_host_framing.md R128: `CMD RUN; WAIT` or `CONVERT`. -/
inductive ConversionForm where
  | run
  | stepwise
  deriving DecidableEq, Repr

/-- The Host's writes before a conversion (48_host_framing.md R128, 70_reset_and_hazards.md R172). -/
def prepare (c : HostConfig) (img : Image) : List Input :=
  [wr .width img.width, wr .height img.height, wr .canvasWidth c.canvasWidth, opt c.photo c.rotate c.align]
    ++ loadPix img.pixels

/-- `CMD RUN; WAIT`, or `CONVERT` (48_host_framing.md R128). -/
def commands (c : HostConfig) (form : ConversionForm) (polls : Nat) : List Input :=
  match form with
  | .run => cmd .run :: wait polls
  | .stepwise => convert c.photo polls

/-- From the first operand write to `RD STATUS` (48_host_framing.md R128). -/
def conversionScript (c : HostConfig) (form : ConversionForm) (polls : Nat) (img : Image) : List Input :=
  prepare c img ++ (commands c form polls ++ [rd .status])

/-- The bytes of the bitmap: H × (Wc div 8) (48_host_framing.md R128). -/
def bitmapBytes (c : HostConfig) (img : Image) : Nat := img.height.toNat * (c.canvasWidth.toNat / 8)

/-- `RDM BMP, ...`, byte by byte (48_host_framing.md R128; the access size is open there, log 18). -/
def bitmapScript (bytes : Nat) : List Input := (List.range bytes).map fun k => rdm .bmp k 1

/-- `CMD CLR; WAIT`, the end of a conversion or of a failure (48_host_framing.md R128). -/
def clearScript (polls : Nat) : List Input := cmd .clr :: wait polls

end Sys2Proof.Machine
end

