-- ==== Sys2Proof/Machine/HostFraming.lean ====
section
/-!
DEFINITION. The Host's software (48_host_framing.md): the Frame Encoder, the stream of the Sink Writer and the
host-side errors. Software around the block, not the block (00_scope.md R3); modelled as functions because the rules
settle it byte for byte (log 14).
-/

namespace Sys2Proof.Machine

/-- What the wire format cannot express (48_host_framing.md R127, 93_implementation_defined.md U10). -/
inductive FrameRefusal where
  /-- Wc > 65,535. -/
  | canvasTooWide
  /-- Lmax > 65,535. -/
  | bandTooTall
  /-- Lmax = 0 has no meaning. -/
  | zeroBand
  deriving DecidableEq, Repr

/-- The number of bands, ceil(H / Lmax) (48_host_framing.md R122). -/
def bandCount (h lmax : Nat) : Nat := (h + lmax - 1) / lmax

/-- The rows of band `b`, min(Lmax, H − r0) with r0 = b × Lmax (48_host_framing.md R122). -/
def bandRows (h lmax b : Nat) : Nat := min lmax (h - b * lmax)

/-- The store command of a band of `k` rows from row `r0` (48_host_framing.md R123). -/
def storeCommand (bmp : Nat → Byte) (wc r0 k : Nat) : List Byte :=
  let stride := wc / 8
  [0x1D#8, 0x38#8, 0x4C#8] ++ littleEndianBytes 4 (10 + k * stride)
    ++ [0x30#8, 0x70#8, 0x30#8, 0x01#8, 0x01#8, 0x31#8]
    ++ littleEndianBytes 2 wc ++ littleEndianBytes 2 k
    ++ (List.range (k * stride)).map fun j => bmp (r0 * stride + j)

/-- The flush command (48_host_framing.md R124). -/
def flushCommand : List Byte := [0x1D#8, 0x28#8, 0x4C#8, 0x02#8, 0x00#8, 0x30#8, 0x32#8]

/-- The printer initialisation the stream begins with (48_host_framing.md R125). -/
def preamble : List Byte := [0x1B#8, 0x40#8]

/-- The frame of band `b`: its store command and its flush command (48_host_framing.md R125). -/
def bandFrame (bmp : Nat → Byte) (wc h lmax b : Nat) : List Byte :=
  storeCommand bmp wc (b * lmax) (bandRows h lmax b) ++ flushCommand

/-- The paper-cut trailer (48_host_framing.md R126): unknown bytes, empty when `cut` is off. -/
def cutBytes (cut : Bool) : List Byte := if cut then Config.cutTrailer else []

/-- The bytes written to the sink for a bitmap of H rows (48_host_framing.md R125). -/
def sinkStream (bmp : Nat → Byte) (wc h lmax : Nat) (cut : Bool) : Except FrameRefusal (List Byte) :=
  if 65535 < wc then .error .canvasTooWide
  else if 65535 < lmax then .error .bandTooTall
  else if lmax = 0 then .error .zeroBand
  else .ok (preamble ++ ((List.range (bandCount h lmax)).map (bandFrame bmp wc h lmax)).flatten ++ cutBytes cut)

/-- The error kinds of D0 §7 and the host's own programming errors (48_host_framing.md R130). -/
inductive HostError where
  | decodeFailure
  | capacityExceeded
  | allocationFailure
  | sinkWriteFailure
  | programming (e : ErrCode)
  deriving DecidableEq, Repr

/-- What fails before the block is touched (48_host_framing.md R130). -/
inductive InputFailure where
  /-- The external decoder could not parse its input. -/
  | decoder
  /-- An allocation of the Host's own (log 18). -/
  | allocation
  deriving DecidableEq, Repr

/-- What the Host reports for it (48_host_framing.md R130). -/
def inputError : InputFailure → HostError
  | .decoder => .decodeFailure
  | .allocation => .allocationFailure

/-- What the Host reports for the block's ERRCODE (48_host_framing.md R130). -/
def hostError : ErrCode → Option HostError
  | .noError => none
  | .eCap => some .capacityExceeded
  | .eAlloc => some .allocationFailure
  | .eIll => some (.programming .eIll)
  | .eSeq => some (.programming .eSeq)
  | .eCfg => some (.programming .eCfg)

/-- The error an ERRCODE word names (10_state.md R18). -/
def errorOfWord (w : Word) : ErrCode :=
  match w.toNat with
  | 1 => .eIll
  | 2 => .eSeq
  | 3 => .eCfg
  | 4 => .eCap
  | 5 => .eAlloc
  | _ => .noError

/-- The error the Host reports for the ERRCODE word it has read (48_host_framing.md R130). ERR = 1 beside a word that
names none of the five is never read (10_state.md R33 item 1; log 18). -/
def reportedError (w : Word) : HostError := (hostError (errorOfWord w)).getD (.programming .noError)

end Sys2Proof.Machine
end

