-- ==== Sys2Proof/Machine/HostDriver.lean ====
section
/-!
DEFINITION. The Host at work (48_host_framing.md R128): a script runs against the block, the Host reads STATUS and
takes the failure branch or reads the bitmap, clears the block, and answers as D0's entry contract asks.
-/

namespace Sys2Proof.Machine

/-- `f` on the outcome of a run that has not stopped. -/
def thenDo {α β : Type} (o : Host.Outcome α Fault Refusal) (f : α → Host.Outcome β Fault Refusal) :
    Host.Outcome β Fault Refusal :=
  match o with
  | .next a => f a
  | .fault e => .fault e
  | .refused r => .refused r

/-- One line of a script: the input has its step; where the stall rule holds it (20_memory.md R48) the Engine moves
first. -/
def feed (i : Input) (s : State) : Host.Outcome State Fault Refusal :=
  thenDo (step { s with inputs := [i] }) fun t => if t.inputs = [] then .next t else step t

/-- A script, line by line. -/
def runScript : List Input → State → Host.Outcome State Fault Refusal
  | [], s => .next s
  | i :: rest, s => thenDo (feed i s) (runScript rest)

/-- A script run by a Host that keeps only the words read from here on. -/
def ask (script : List Input) (s : State) : Host.Outcome State Fault Refusal := runScript script { s with replies := [] }

/-- The word the Host read last. -/
def lastReply (s : State) : Word := s.replies.getLast?.getD 0

/-- STATUS.ERR of a word read from STATUS (10_state.md R16). -/
def statusErr (w : Word) : Bool := w.getLsbD 2

/-- STATUS.WARN of a word read from STATUS (10_state.md R16). -/
def statusWarn (w : Word) : Bool := w.getLsbD 3

/-- What the Host tells its caller (48_host_framing.md R128, R130). -/
inductive HostReport where
  /-- The stream is at the sink. -/
  | success
  /-- A terminal failure of R130. -/
  | failure (e : HostError)
  /-- The configuration does not fit the wire format (48_host_framing.md R127, log 14). -/
  | unframed (r : FrameRefusal)
  deriving DecidableEq, Repr

/-- The end of one call: the report, the warning, the bytes at the sink, the block. `warning` surfaces D0 §7's advisory
from the STATUS the Host has read, whatever the report says (48_host_framing.md R128). -/
structure HostRun where
  report : HostReport
  warning : Bool
  written : List Byte
  block : State
  deriving DecidableEq, Repr

/-- The Sink Writer (48_host_framing.md R125, R130). `room` is how many bytes the sink takes before an I/O error, none
where it takes all (log 18). The warning was read before and stands beside every report. -/
def emit (room : Option Nat) (warning : Bool) (stream : Except FrameRefusal (List Byte)) (block : State) : HostRun :=
  match stream with
  | .error r => { report := .unframed r, warning := warning, written := [], block := block }
  | .ok bytes =>
    match room with
    | none => { report := .success, warning := warning, written := bytes, block := block }
    | some k =>
      if bytes.length ≤ k then { report := .success, warning := warning, written := bytes, block := block }
      else { report := .failure .sinkWriteFailure, warning := warning, written := bytes.take k, block := block }

/-- The bitmap the Host has read, byte by byte. -/
def readBitmap (replies : List Word) (k : Nat) : Byte := (replies.getD k 0).setWidth 8

/-- ERR = 1 in the STATUS word (48_host_framing.md R128): read ERRCODE, go to CLR, report the failure; no byte has been
written (R130). -/
def afterFailure (polls : Nat) (warning : Bool) (s : State) : Host.Outcome HostRun Fault Refusal :=
  thenDo (ask [rd .errcode] s) fun t =>
    thenDo (ask (clearScript polls) t) fun u =>
      .next { report := .failure (reportedError (lastReply t)), warning := warning, written := [], block := u }

/-- ERR = 0 in the STATUS word (48_host_framing.md R128): read BMP, go to CLR, feed the Frame Encoder and the sink. -/
def afterSuccess (c : HostConfig) (polls : Nat) (room : Option Nat) (img : Image) (warning : Bool) (s : State) :
    Host.Outcome HostRun Fault Refusal :=
  thenDo (ask (bitmapScript (bitmapBytes c img)) s) fun t =>
    thenDo (ask (clearScript polls) t) fun u =>
      .next (emit room warning
        (sinkStream (readBitmap t.replies) c.canvasWidth.toNat img.height.toNat c.maxBandHeight.toNat c.cut) u)

/-- One conversion (48_host_framing.md R128) of what the decoder answered (R131), in either form of the command part:
D0's entry contract, which returns success or a failure signal. -/
def hostConvert (c : HostConfig) (form : ConversionForm) (polls : Nat) (room : Option Nat)
    (decoded : Except InputFailure Image) (s : State) : Host.Outcome HostRun Fault Refusal :=
  match decoded with
  | .error e => .next { report := .failure (inputError e), warning := false, written := [], block := s }
  | .ok img =>
    thenDo (ask (conversionScript c form polls img) s) fun t =>
      let warning := statusWarn (lastReply t)
      if statusErr (lastReply t) then afterFailure polls warning t
      else afterSuccess c polls room img warning t

end Sys2Proof.Machine
end

