-- ==== Sys2Proof/Safety.lean ====
section
/-!
DEFINITION. What a safe run keeps: the invariants of 10_state.md R33 with those of R17, R18 and R19, in the terms
the claims use, and the independent readings of the datapath that claims compare the machine with.
-/

namespace Sys2Proof.Machine

/-! ### Readings of the rules, written apart from the machine -/

/-- The luminance of a pixel as 41_luminance.md R71, R72 and R75 item 2 give it: the weighted sum of an opaque
pixel, 255 − a of any other. -/
def expectedLuma (r g b a : Nat) : Nat := if a = 255 then (55 * r + 182 * g + 18 * b) / 255 else 255 - a

/-- The luminance of pixel `i` of the image in PIX (10_state.md R28). -/
def imageLuma (s : State) (i : Nat) : Nat :=
  expectedLuma (s.pixAt (4 * i)).toNat (s.pixAt (4 * i + 1)).toNat (s.pixAt (4 * i + 2)).toNat
    (s.pixAt (4 * i + 3)).toNat

/-- How many of the pixels 0 .. n − 1 have level `v`. -/
def levelCount (n : Nat) (level : Nat → Nat) (v : Nat) : Nat := (List.range n).countP fun i => level i == v

/-- How many of the levels 0 .. 255 occur. -/
def levelsPresent (n : Nat) (level : Nat → Nat) : Nat :=
  (List.range 256).countP fun v => decide (0 < levelCount n level v)

/-- The sum of the buckets HIST[0] .. HIST[255]. -/
def histSum (s : State) : Nat := ((List.range 256).map fun v => (s.histAt v).toNat).sum

/-- The sum of the buckets HIST[0] .. HIST[v], as 42_tone_mapper.md R81 defines CDF[v]. -/
def cdfAt (s : State) (v : Nat) : Nat := ((List.range (v + 1)).map fun u => (s.histAt u).toNat).sum

/-- The kernel as the matrix of 43_disperser.md R91: the weight at (dx, dy), 0 where there is no tap. -/
def kernelWeight (dx : Int) (dy : Nat) : Int :=
  match dy with
  | 0 => if dx = 1 then 149 else if dx = 2 then 107 else 0
  | 1 => if dx.natAbs = 0 then 149 else if dx.natAbs = 1 then 107 else if dx.natAbs = 2 then 64 else 0
  | 2 => if dx.natAbs = 0 then 107 else if dx.natAbs = 1 then 64 else if dx.natAbs = 2 then 21 else 0
  | _ => 0

/-- The bit of canvas column `cx`, row `y`, in the bitmap (10_state.md R30). -/
def dotAt (s : State) (cx y : Nat) : Bool := (s.bmpAt (y * s.stride + cx / 8)).getLsbD (7 - cx % 8)

/-- The offset 44_canvas_compositor.md R101 gives the conversion in `s`. -/
def placedAt (s : State) : Nat :=
  match s.align with
  | .left => 0
  | .center => (s.wc - s.w) / 2
  | .right => s.wc - s.w
  | .unset => if s.rotate then s.wc - s.w else 0

/-- The source pixel that lands at column `x`, row `y` of the placed image (44_canvas_compositor.md R102). -/
def sourceAt (s : State) (x y : Nat) : Nat :=
  if s.rotate then (s.h - 1 - y) * s.w + (s.w - 1 - x) else y * s.w + x

/-- The sizes a space admits, as 20_memory.md R44 words them. -/
def sizeAdmitted (space : Space) (n : Nat) : Prop :=
  if space = .reg ∨ space = .hist then n = 4 else n = 1 ∨ n = 2 ∨ n = 4

/-- The extents of the table of 20_memory.md R40. -/
def spaceBytes (s : State) (space : Space) : Nat :=
  match space with
  | .reg => 64
  | .pix => 4 * s.params.nmax
  | .gray => s.params.nmax
  | .bmp => s.params.bmax
  | .hist => 1024
  | .lut => 256

/-- An access of an admitted size, aligned, inside the extent (20_memory.md R42 (a), (b), (c)). -/
def inRange (s : State) (space : Space) (addr n : Nat) : Prop :=
  sizeAdmitted space n ∧ addr % n = 0 ∧ addr + n ≤ spaceBytes s space

/-- The REG offsets no register has (10_state.md R23). -/
def unmappedOffsets : List Nat := [0x24, 0x34, 0x38, 0x3C]

/-- The REG offsets of the read-only registers ID, ERRCODE, ERRINFO, DISTINCT, OFFSET (60_exceptions.md R151). -/
def readOnlyOffsets : List Nat := [0x00, 0x0C, 0x10, 0x2C, 0x30]

/-- The REG offsets of WIDTH, HEIGHT, CANVAS_WIDTH and OPTS (10_state.md R25). -/
def lockedOffsets : List Nat := [0x18, 0x1C, 0x20, 0x28]

/-- The operands of a conversion that passes the start checks (45_sequencing_commands.md R113, 10_state.md R33
item 2). -/
structure GeometryOk (s : State) : Prop where
  width_pos : 1 ≤ s.w
  height_pos : 1 ≤ s.h
  canvas_bytes : s.wc % 8 = 0
  width_fits : s.w ≤ s.wc
  gray_fits : s.w * s.h ≤ s.params.nmax
  bitmap_fits : s.h * (s.wc / 8) ≤ s.params.bmax

/-- The five memories and register files are in canonical form, inside their extents (20_memory.md R40). -/
def memoriesOk (s : State) : Bool :=
  Memory.wf 256 s.hist && Memory.wf 256 s.lut && Memory.wf (4 * s.params.nmax) s.pix
    && Memory.wf s.params.nmax s.gray && Memory.wf s.params.bmax s.bmp

/-- A conversion is under way or over: PHASE is LUMD, EQD, DTHD or PACKD. -/
def converting : Phase → Bool
  | .idle => false
  | .lumd => true
  | .eqd => true
  | .dthd => true
  | .packd => true
  | .fail => false

/-- EQ has run in the current conversion: PHASE is EQD or DTHD, or PACKD in photo mode. -/
def equalised (s : State) : Bool := s.phase == .eqd || s.phase == .dthd || (s.phase == .packd && s.photo)

/-- DTH has run in the current conversion: PHASE is DTHD, or PACKD in photo mode. -/
def dithered (s : State) : Bool := s.phase == .dthd || (s.phase == .packd && s.photo)

/-- `k` steps in a row, stopping at the first fault or refusal. -/
def runSteps : Nat → State → Host.Outcome State Fault Refusal
  | 0, s => .next s
  | k + 1, s =>
    match step s with
    | .next t => runSteps k t
    | .fault f => .fault f
    | .refused r => .refused r

/-! ### The invariant -/

/-- What holds in every reachable state (10_state.md R33, with R17, R18, R19, R22 and 45_sequencing_commands.md
R110). -/
structure Inv (s : State) : Prop where
  params_ok : s.params.WellFormed = true
  memories_ok : memoriesOk s = true
  err_iff : s.err = true ↔ s.phase = .fail
  errcode_iff : s.errcode ≠ .noError ↔ s.phase = .fail
  errinfo_zero : s.phase ≠ .fail → s.errinfo = 0
  busy_not_done : s.busy = true → s.done = false
  warn_idle : s.phase = .idle → s.warn = false
  geometry : converting s.phase = true → GeometryOk s
  hist_written : converting s.phase = true → ∀ v, v < 256 → (Memory.lookup s.hist v).isSome = true
  gray_written : converting s.phase = true → ∀ i, i < s.n → (Memory.lookup s.gray i).isSome = true
  hist_sum : converting s.phase = true → histSum s = s.n
  distinct_count : converting s.phase = true → s.distinct.toNat = distinctLevels s.draw s.hist
  distinct_range : converting s.phase = true → 1 ≤ s.distinct.toNat ∧ s.distinct.toNat ≤ min s.n 256
  warn_advisory : converting s.phase = true → s.warn = advisory s.photo s.distinct.toNat
  photo_stage : s.phase = .eqd ∨ s.phase = .dthd → s.photo = true
  lut_table : equalised s = true → ∀ v, v < 256 → (s.lutAt v).toNat = 255 * cdfAt s v / s.n
  gray_binary : dithered s = true → ∀ i, i < s.n → s.grayAt i = 0#8 ∨ s.grayAt i = 255#8
  offset_placed : s.phase = .packd → s.offset.toNat = placedAt s

end Sys2Proof.Machine
end

