-- ==== Sys2Proof/Certificates/Slice0/Obligations.lean ====
section
/-!
DEFINITION. The statements for the provers, from the numbered rules of spec/. Each docstring names the rules it
formalises; a state is any state unless a hypothesis says otherwise. A frame is written as a record update: every
field of the state not named there is unchanged.
-/

open Sys2Proof Sys2Proof.Machine

/-! ### Command words -/

/-- 30_encoding.md R61: each command is one exact word, the six words of the table, and every other word is illegal
(R62, R63). -/
def Obligations.DecodeExactlySixWords : Prop :=
  ∀ w : Word,
    (decode w = .ok .lum ↔ w = 0x00000001#32) ∧ (decode w = .ok .eq ↔ w = 0x00000002#32) ∧
    (decode w = .ok .dth ↔ w = 0x00000003#32) ∧ (decode w = .ok .pack ↔ w = 0x00000004#32) ∧
    (decode w = .ok .run ↔ w = 0x00000005#32) ∧ (decode w = .ok .clr ↔ w = 0x0000000F#32) ∧
    ((∀ i, w ≠ encode i) ↔ ∃ r, decode w = .error r)

/-- 30_encoding.md R60, R62: the four little-endian bytes of a CMD write decode as the word they make, and the word
of every command decodes to that command. -/
def Obligations.CommandBytesDecodeAsTheirWord : Prop :=
  (∀ w : Word, decodeBytes (littleEndianBytes 4 w.toNat) = some (decode w)) ∧
    ∀ i : Instr, i.WellFormed = true → decodeBytes (littleEndianBytes 4 (encode i).toNat) = some (.ok i)

/-- 30_encoding.md R61, R63 and 95_test_vectors.md Q2 to Q5: words written out from the tables. -/
def Obligations.WrittenCommandWords : Prop :=
  decode 0x00000001#32 = .ok .lum ∧ decode 0x00000002#32 = .ok .eq ∧ decode 0x00000003#32 = .ok .dth ∧
    decode 0x00000004#32 = .ok .pack ∧ decode 0x00000005#32 = .ok .run ∧ decode 0x0000000F#32 = .ok .clr ∧
    decode 0x00000000#32 = .error (.opCode 0) ∧ decode 0x00000006#32 = .error (.opCode 6) ∧
    decode 0x00000101#32 = .error (.zeroField 1) ∧ decode 0x80000005#32 = .error (.zeroField 0x800000)

/-! ### Issue, perform, stall -/

/-- 45_sequencing_commands.md R111: on the Engine's turn the step is the perform step of the pending command; a held
access leaves the turn to the Engine (20_memory.md R48). A word placed by withFetchWord is performed by the next
step (log 3). The order of the agents' steps is the model's input list (log 1). -/
def Obligations.StepPerformsThePendingCommand : Prop :=
  ∀ (s : State) (w : Word) (i : Instr), decode w = .ok i →
    (s.pending = some w →
      (s.inputs = [] → step s = exec i s) ∧
      (∀ rest, s.inputs = .engine :: rest → step s = exec i { s with inputs := rest }) ∧
      (∀ a rest, s.inputs = .access a :: rest → a ≠ .read .reg 0x08 4 → step s = exec i s)) ∧
    step (s.withFetchWord 32 w.toNat) = exec i { s with pending := some w, done := false } ∧
    ∀ rest, s.inputs = .engine :: rest → step s = engineTurn { s with inputs := rest }

/-- 45_sequencing_commands.md R110: a write to CMD latches the word, sets BUSY and clears DONE, and does nothing
else; while BUSY = 1 the write is held and the Engine moves, so commands never queue. The order of the agents' steps
is the model's input list (log 1). -/
def Obligations.IssueLatchesTheWord : Prop :=
  ∀ (s : State) (w : Word) (rest : List Input), s.inputs = .access (.write .reg 0x04 4 w) :: rest →
    (s.pending = none → step s = .next { s with pending := some w, done := false, inputs := rest }) ∧
    (∀ v t, s.pending = some v → step s = .next t → t.inputs = s.inputs ∧ t.pending = none)

/-- 20_memory.md R48: while BUSY = 1 a read of STATUS answers at once, with bit 0 set, and changes nothing; every
other access stays held while the Engine performs the pending command. The order of the agents' steps is the model's
input list (log 1). -/
def Obligations.StallHoldsOtherAccesses : Prop :=
  ∀ (s : State) (w : Word) (a : Access) (rest : List Input), s.pending = some w → s.inputs = .access a :: rest →
    (a = .read .reg 0x08 4 →
      step s = .next { s with inputs := rest, replies := s.replies ++ [statusWord s] } ∧
        (statusWord s).getLsbD 0 = true) ∧
    (a ≠ .read .reg 0x08 4 → ∀ t, step s = .next t →
      t.inputs = s.inputs ∧ t.replies = s.replies ∧ t.pending = none)

/-- 45_sequencing_commands.md R118: BUSY = 1 leads to BUSY = 0. In the model each input can delay the Engine by at
most one step (log 1). -/
def Obligations.BusyEndsWithinItsInputs : Prop :=
  ∀ s : State, Inv s → s.busy = true →
    ∃ k t, k ≤ s.inputs.length + 1 ∧ runSteps k s = .next t ∧ t.busy = false

/-! ### Command errors -/

/-- 60_exceptions.md R142: performing a word with a non-zero bit in 31:8, or with bits 7:0 none of the six op codes,
while PHASE ≠ FAIL raises E_ILL: the error record of R141 is written and nothing else. -/
def Obligations.IllegalWordRaisesEIll : Prop :=
  ∀ (s : State) (w : Word), s.pending = some w → s.phase ≠ .fail →
    (w.toNat / 2 ^ 8 ≠ 0 ∨ w.toNat % 2 ^ 8 ∉ [0x01, 0x02, 0x03, 0x04, 0x05, 0x0F]) →
    engineTurn s = .next { s with
      err := true, errcode := .eIll, errinfo := w, phase := .fail, pending := none }

/-- 60_exceptions.md R149: while PHASE = FAIL, performing any word but CLR changes nothing except BUSY; under the
invariant the Host then sees DONE = 0, ERR = 1 and the first error's ERRCODE and ERRINFO. -/
def Obligations.FailureIsSticky : Prop :=
  ∀ (s : State) (w : Word), s.pending = some w → s.phase = .fail → w ≠ 0x0000000F#32 →
    engineTurn s = .next { s with pending := none } ∧
      (Inv s → ∀ t, engineTurn s = .next t →
        t.done = false ∧ t.err = true ∧ t.errcode = s.errcode ∧ t.errinfo = s.errinfo)

/-- 60_exceptions.md R143: a command that is not legal in the current PHASE with the current OPTS.PHOTO raises E_SEQ,
leaving the error record of R141 and nothing else. -/
def Obligations.OutOfPhaseRaisesESeq : Prop :=
  ∀ (s : State) (i : Instr), s.phase ≠ .fail →
    ((i = .lum ∨ i = .run) ∧ s.phase ≠ .idle ∨
      i = .eq ∧ ¬(s.phase = .lumd ∧ s.photo = true) ∨
      i = .dth ∧ s.phase ≠ .eqd ∨
      i = .pack ∧ ¬(s.phase = .lumd ∧ s.photo = false ∨ s.phase = .dthd)) →
    exec i s = .next { s with
      err := true, errcode := .eSeq, errinfo := encode i, phase := .fail, pending := none }

/-- 60_exceptions.md R144, R145, R146: the start checks of LUM and RUN, in the order of 45_sequencing_commands.md
R113; the first failing line decides the code; operands that pass every line, WIDTH = CANVAS_WIDTH among them, complete
with DONE = 1 and no new error. -/
def Obligations.StartChecksInOrder : Prop :=
  ∀ (s : State) (i : Instr), i = .lum ∨ i = .run → s.phase = .idle →
    (s.w = 0 ∨ s.h = 0 ∨ s.wc % 8 ≠ 0 →
      exec i s = .next { s with
        err := true, errcode := .eCfg, errinfo := encode i, phase := .fail, pending := none }) ∧
    (1 ≤ s.w → 1 ≤ s.h → s.wc % 8 = 0 → s.wc < s.w →
      exec i s = .next { s with
        err := true, errcode := .eCap, errinfo := encode i, phase := .fail, pending := none }) ∧
    (1 ≤ s.w → 1 ≤ s.h → s.wc % 8 = 0 → s.w ≤ s.wc →
      s.params.nmax < s.w * s.h ∨ s.params.bmax < s.h * (s.wc / 8) →
      exec i s = .next { s with
        err := true, errcode := .eAlloc, errinfo := encode i, phase := .fail, pending := none }) ∧
    (GeometryOk s → ∃ t, exec i s = .next t ∧ t.phase ≠ .fail ∧ t.errcode = s.errcode ∧ t.done = true)

/-- 60_exceptions.md R141, R148: a command that takes the block to FAIL has written the error record and nothing
else, and the code is one of the five. -/
def Obligations.ErrorsArePrecise : Prop :=
  ∀ (s t : State) (i : Instr), exec i s = .next t → s.phase ≠ .fail → t.phase = .fail →
    i ≠ .clr ∧ ∃ e, e ≠ .noError ∧
      t = { s with err := true, errcode := e, errinfo := encode i, phase := .fail, pending := none }

/-- 45_sequencing_commands.md R116: the complete transition table of PHASE for the six commands, with DONE as R111
and R117 leave it. -/
def Obligations.PhaseFollowsTheTransitionTable : Prop :=
  ∀ (s t : State) (i : Instr), exec i s = .next t →
    (s.phase = .idle ∧ i = .lum ∧ t.phase = .lumd ∧ t.done = true) ∨
    (s.phase = .idle ∧ i = .run ∧ t.phase = .packd ∧ t.done = true) ∨
    (s.phase = .lumd ∧ s.photo = true ∧ i = .eq ∧ t.phase = .eqd ∧ t.done = true) ∨
    (s.phase = .eqd ∧ i = .dth ∧ t.phase = .dthd ∧ t.done = true) ∨
    ((s.phase = .lumd ∧ s.photo = false ∨ s.phase = .dthd) ∧ i = .pack ∧ t.phase = .packd ∧ t.done = true) ∨
    (i = .clr ∧ t.phase = .idle ∧ t.done = true) ∨
    (s.phase ≠ .fail ∧ i ≠ .clr ∧ t.phase = .fail ∧ t.err = true ∧ t.done = s.done) ∨
    (s.phase = .fail ∧ i ≠ .clr ∧ t.phase = .fail ∧ t.done = s.done)

/-- 60_exceptions.md R154: the only exits from FAIL are CLR and reset. The order of the agents' steps is the model's
input list (log 1). -/
def Obligations.OnlyClrAndResetLeaveFailure : Prop :=
  ∀ s t : State, s.phase = .fail → step s = .next t → t.phase ≠ .fail →
    (∃ rest, s.inputs = .reset :: rest) ∨ s.pending = some 0x0000000F#32

/-! ### LUM -/

/-- 41_luminance.md R71: the blend of one channel, opaque or not. -/
def Obligations.BlendAgainstWhite : Prop :=
  ∀ c a : Nat, c ≤ 255 → a ≤ 255 →
    blendChannel c a = (255 - a) + (a / 255) * c ∧
    (a = 255 → blendChannel c a = c) ∧ (a ≤ 254 → blendChannel c a = 255 - a ∧ 1 ≤ blendChannel c a) ∧
    blendChannel c a ≤ 255

/-- 41_luminance.md R72: the weighted sum, its range, the only way to 255, exactness on grays. -/
def Obligations.LumaWeightedSum : Prop :=
  ∀ r g b : Nat, r ≤ 255 → g ≤ 255 → b ≤ 255 →
    luma r g b = (55 * r + 182 * g + 18 * b) / 255 ∧ 55 * r + 182 * g + 18 * b ≤ 65025 ∧
    luma r g b ≤ 255 ∧ (luma r g b = 255 ↔ r = 255 ∧ g = 255 ∧ b = 255) ∧ luma r r r = r

/-- 41_luminance.md R70, R73, R74: LUM completes on operands that pass the start checks; GRAY holds the luminance of
each pixel, HIST the counts, DISTINCT the number of levels, WARN the advisory; nothing else changes. -/
def Obligations.LumConvertsTheImage : Prop :=
  ∀ s : State, s.params.WellFormed = true → s.phase = .idle → GeometryOk s →
    ∃ t, exec .lum s = .next t ∧
      t = { s with
        gray := t.gray, hist := t.hist, distinct := t.distinct, warn := t.warn
        phase := .lumd, done := true, pending := none } ∧
      (∀ i, i < s.n → (t.grayAt i).toNat = imageLuma s i) ∧
      (∀ i, s.n ≤ i → t.grayAt i = s.grayAt i) ∧
      (∀ v, v < 256 → (t.histAt v).toNat = levelCount s.n (imageLuma s) v) ∧
      t.distinct.toNat = levelsPresent s.n (imageLuma s) ∧
      (t.warn = true ↔
        s.photo = true ∧ levelsPresent s.n (imageLuma s) < 16 ∨
          s.photo = false ∧ 16 ≤ levelsPresent s.n (imageLuma s))

/-! ### EQ -/

/-- 42_tone_mapper.md R80 to R83: EQ completes in LUMD with PHOTO = 1; LUT is the truncated 255 × CDF / N as a byte,
every pixel goes through it; nothing else changes. Where the buckets sum to more than N, which no run reaches, that the
entry is taken modulo 256 is the model's choice (log 10, DEDUCED). -/
def Obligations.EqRemapsTheImage : Prop :=
  ∀ s : State, s.phase = .lumd → s.photo = true → 1 ≤ s.n → s.n ≤ s.params.nmax →
    ∃ t, exec .eq s = .next t ∧
      t = { s with lut := t.lut, gray := t.gray, phase := .eqd, done := true, pending := none } ∧
      (∀ v, v < 256 → t.lutAt v = BitVec.ofNat 8 (255 * cdfAt s v / s.n)) ∧
      (∀ i, i < s.n → t.grayAt i = t.lutAt (s.grayAt i).toNat) ∧
      (∀ i, s.n ≤ i → t.grayAt i = s.grayAt i)

/-- 42_tone_mapper.md R84 item 2 and the corner cases of R80: in every state that meets the invariant the table is
monotone, exact as a byte, and sends the brightest level present to 255. -/
def Obligations.EqKeepsLevelOrder : Prop :=
  ∀ s : State, Inv s → s.phase = .lumd → s.photo = true →
    ∃ t, exec .eq s = .next t ∧
      (∀ v, v < 256 → (t.lutAt v).toNat = 255 * cdfAt s v / s.n) ∧
      (∀ u v, u ≤ v → v < 256 → (t.lutAt u).toNat ≤ (t.lutAt v).toNat) ∧
      (∀ v, v < 256 → (∀ u, v < u → u < 256 → s.histAt u = 0#32) → t.lutAt v = 255#8)

/-- 42_tone_mapper.md R84 item 3: equalising a uniform histogram is the identity. -/
def Obligations.EqOfUniformHistogramIsIdentity : Prop :=
  ∀ (s : State) (k : Nat), s.phase = .lumd → s.photo = true → 1 ≤ k → s.n = 256 * k → s.n ≤ s.params.nmax →
    (∀ v, v < 256 → (s.histAt v).toNat = k) →
    ∃ t, exec .eq s = .next t ∧ (∀ v, v < 256 → (t.lutAt v).toNat = v) ∧ ∀ i, t.grayAt i = s.grayAt i

/-! ### DTH -/

/-- 43_disperser.md R91, R92, R93: the visit of pixel (x, y). It becomes 0 or 255; each pixel at a kernel offset
from it in the image takes its old value plus the increment truncated toward zero, clamped; every other byte is
unchanged. -/
def Obligations.VisitDiffusesForward : Prop :=
  ∀ (draw w h x y : Nat) (m : List Host.Cell), x < w → y < h →
    let o : Int := (readByte .gray draw m (y * w + x)).toNat
    let e : Int := o - (if o ≤ 128 then 0 else 255)
    (∀ tx ty, tx < w → ty < h →
      let old := readByte .gray draw m (ty * w + tx)
      readByte .gray draw (visitPixel draw w h m (y * w + x)) (ty * w + tx) =
        if tx = x ∧ ty = y then (if o ≤ 128 then 0#8 else 255#8)
        else if y ≤ ty then
          BitVec.ofInt 8 (max 0 (min 255
            ((old.toNat : Int) + Int.tdiv (e * kernelWeight ((tx : Int) - x) (ty - y)) 1024)))
        else old) ∧
    ∀ j, w * h ≤ j →
      readByte .gray draw (visitPixel draw w h m (y * w + x)) j = readByte .gray draw m j

/-- 43_disperser.md R90, R92: DTH completes in EQD; GRAY is what visiting the pixels 0 .. N − 1 in that order leaves,
every pixel of the image 0 or 255; nothing else changes. -/
def Obligations.DthVisitsEveryPixelOnce : Prop :=
  ∀ s : State, s.phase = .eqd → s.n ≤ s.params.nmax →
    ∃ t, exec .dth s = .next t ∧
      t = { s with gray := t.gray, phase := .dthd, done := true, pending := none } ∧
      t.gray = (List.range s.n).foldl (visitPixel s.draw s.w s.h) s.gray ∧
      (∀ i, i < s.n → t.grayAt i = 0#8 ∨ t.grayAt i = 255#8) ∧
      (∀ i, s.n ≤ i → t.grayAt i = s.grayAt i)

/-- 43_disperser.md R94 items 2 and 5: an image of 0 and 255 only is left as it is. -/
def Obligations.DthKeepsBinaryImages : Prop :=
  ∀ s : State, s.phase = .eqd → s.n ≤ s.params.nmax →
    (∀ i, i < s.n → s.grayAt i = 0#8 ∨ s.grayAt i = 255#8) →
    ∃ t, exec .dth s = .next t ∧ ∀ i, t.grayAt i = s.grayAt i

/-! ### PACK -/

/-- 44_canvas_compositor.md R101: the offset for every alignment, with and without rotation; the image fits; the
numbers of D0 §8. -/
def Obligations.CanvasOffsetByAlignment : Prop :=
  (∀ wc w, w ≤ wc →
    (∀ rotate, canvasOffset wc w .left rotate = 0 ∧ canvasOffset wc w .center rotate = (wc - w) / 2 ∧
      canvasOffset wc w .right rotate = wc - w) ∧
    canvasOffset wc w .unset false = 0 ∧ canvasOffset wc w .unset true = wc - w ∧
    ∀ align rotate, canvasOffset wc w align rotate ≤ wc - w ∧ canvasOffset wc w align rotate + w ≤ wc) ∧
  canvasOffset 512 100 .center false = 206 ∧ canvasOffset 512 100 .right false = 412 ∧
  canvasOffset 512 100 .left false = 0 ∧ canvasOffset 512 100 .unset false = 0

/-- 44_canvas_compositor.md R100 to R105: PACK completes in LUMD without photo mode and in DTHD; a dot of the canvas
is ink exactly when it lies on the placed image and its source pixel is at most 128; nothing else changes. -/
def Obligations.PackDrawsTheBitmap : Prop :=
  ∀ s : State, s.phase = .lumd ∧ s.photo = false ∨ s.phase = .dthd →
    s.wc % 8 = 0 → s.w ≤ s.wc → s.n ≤ s.params.nmax → s.h * s.stride ≤ s.params.bmax →
    ∃ t, exec .pack s = .next t ∧
      t = { s with bmp := t.bmp, offset := t.offset, phase := .packd, done := true, pending := none } ∧
      t.offset.toNat = placedAt s ∧
      (∀ cx y, cx < s.wc → y < s.h →
        (dotAt t cx y = true ↔
          placedAt s ≤ cx ∧ cx < placedAt s + s.w ∧ (s.grayAt (sourceAt s (cx - placedAt s) y)).toNat ≤ 128)) ∧
      (∀ k, s.h * s.stride ≤ k → t.bmpAt k = s.bmpAt k)

/-! ### RUN and CLR -/

/-- 45_sequencing_commands.md R114: RUN completes on operands that pass the start checks; what it writes is the union
of what the stages write; without photo mode LUT is not touched; nothing else changes. -/
def Obligations.RunConvertsTheImage : Prop :=
  ∀ s : State, s.params.WellFormed = true → s.phase = .idle → GeometryOk s →
    ∃ t, exec .run s = .next t ∧
      t = { s with
        gray := t.gray, hist := t.hist, distinct := t.distinct, warn := t.warn, lut := t.lut, bmp := t.bmp
        offset := t.offset, phase := .packd, done := true, pending := none } ∧
      (∀ v, v < 256 → (t.histAt v).toNat = levelCount s.n (imageLuma s) v) ∧
      t.distinct.toNat = levelsPresent s.n (imageLuma s) ∧
      t.warn = advisory s.photo t.distinct.toNat ∧
      t.offset.toNat = placedAt s ∧
      (s.photo = false → t.lut = s.lut ∧ ∀ i, i < s.n → (t.grayAt i).toNat = imageLuma s i) ∧
      (s.photo = true →
        (∀ v, v < 256 → (t.lutAt v).toNat = 255 * cdfAt t v / s.n) ∧
        ∀ i, i < s.n → t.grayAt i = 0#8 ∨ t.grayAt i = 255#8) ∧
      (∀ i, s.n ≤ i → t.grayAt i = s.grayAt i) ∧
      (∀ cx y, cx < s.wc → y < s.h →
        (dotAt t cx y = true ↔
          placedAt s ≤ cx ∧ cx < placedAt s + s.w ∧ (t.grayAt (sourceAt s (cx - placedAt s) y)).toNat ≤ 128)) ∧
      (∀ k, s.h * s.stride ≤ k → t.bmpAt k = s.bmpAt k)

/-- D0 §8 (95_test_vectors.md S5), 41_luminance.md R70, 44_canvas_compositor.md R103: without photo mode each dot is
the midpoint threshold of its own pixel of PIX. -/
def Obligations.RunWithoutPhotoThresholdsEachPixel : Prop :=
  ∀ s : State, s.phase = .idle → GeometryOk s → s.photo = false →
    ∃ t, exec .run s = .next t ∧
      ∀ cx y, cx < s.wc → y < s.h →
        (dotAt t cx y = true ↔
          placedAt s ≤ cx ∧ cx < placedAt s + s.w ∧ imageLuma s (sourceAt s (cx - placedAt s) y) ≤ 128)

/-- 45_sequencing_commands.md R114 "Equivalence": the state after RUN is the state after the stepwise sequence
issued from the same state with no other Host access in between. The order of the agents' steps is the model's input
list (log 1). -/
def Obligations.RunEqualsTheStepwiseSequence : Prop :=
  ∀ s : State, s.phase = .idle → s.pending = none → s.inputs = [] → GeometryOk s →
    let issueOf (i : Instr) : Input := .access (.write .reg 0x04 4 (encode i))
    let stages : List Instr := if s.photo then [.lum, .eq, .dth, .pack] else [.lum, .pack]
    ∃ t, runSteps 2 { s with inputs := [issueOf .run] } = .next t ∧
      runSteps (2 * stages.length) { s with inputs := stages.map issueOf } = .next t ∧
      t.phase = .packd ∧ t.done = true

/-- 45_sequencing_commands.md R115: CLR completes in every state; it writes PHASE, ERR, ERRCODE, ERRINFO, WARN and
DONE and nothing else. -/
def Obligations.ClrReturnsToIdle : Prop :=
  ∀ s : State, exec .clr s = .next { s with
    phase := .idle, err := false, errcode := .noError, errinfo := 0#32, warn := false, done := true, pending := none }

/-! ### All commands -/

/-- 10_state.md R11, R12, R20, R28, 45_sequencing_commands.md R115: no command writes an operand register, IRQ_EN,
BUSERR or PIX, and none touches the model's own fields. -/
def Obligations.CommandsKeepOperandsAndPix : Prop :=
  ∀ (s t : State) (i : Instr), exec i s = .next t →
    t.width = s.width ∧ t.height = s.height ∧ t.canvasWidth = s.canvasWidth ∧ t.opts = s.opts ∧
    t.irqEn = s.irqEn ∧ t.buserr = s.buserr ∧ t.pix = s.pix ∧ t.params = s.params ∧ t.draw = s.draw ∧
    t.inputs = s.inputs ∧ t.replies = s.replies ∧ t.pending = none

/-- 60_exceptions.md R156: the advisory never raises an error, never changes PHASE and never blocks a command: with
WARN set either way a command has the same outcome. -/
def Obligations.AdvisoryBlocksNothing : Prop :=
  ∀ (s t : State) (i : Instr) (b : Bool), exec i s = .next t →
    ∃ u, exec i { s with warn := b } = .next u ∧ u = { t with warn := u.warn } ∧ u.phase = t.phase ∧ irq u = irq t

/-- 10_state.md R34: no data of one conversion can influence the next. Two idle blocks with the same operands and the
same pixels convert to the same image, whatever their other memories held. -/
def Obligations.ConversionDependsOnPixAndOperandsOnly : Prop :=
  ∀ a b : State, a.phase = .idle → b.phase = .idle → GeometryOk a →
    a.width = b.width → a.height = b.height → a.canvasWidth = b.canvasWidth → a.opts = b.opts →
    a.params = b.params → (∀ k, k < 4 * a.n → a.pixAt k = b.pixAt k) →
    ∃ t u, exec .run a = .next t ∧ exec .run b = .next u ∧
      (∀ i, i < a.n → t.grayAt i = u.grayAt i) ∧ (∀ v, v < 256 → t.histAt v = u.histAt v) ∧
      (a.photo = true → ∀ v, v < 256 → t.lutAt v = u.lutAt v) ∧
      (∀ k, k < a.h * a.stride → t.bmpAt k = u.bmpAt k) ∧
      t.distinct = u.distinct ∧ t.warn = u.warn ∧ t.offset = u.offset

/-! ### The Host's accesses -/

/-- 60_exceptions.md R150, R151: the refused reads return 0 and set BUSERR; the refused writes change nothing else
than BUSERR. The order of the agents' steps is the model's input list (log 1). -/
def Obligations.RefusedAccessesSetBuserr : Prop :=
  ∀ (s : State) (space : Space) (addr n : Nat) (rest : List Input), s.pending = none →
    (s.inputs = .access (.read space addr n) :: rest →
      ¬inRange s space addr n ∨ space = .reg ∧ addr ∈ unmappedOffsets →
      step s = .next { s with buserr := true, inputs := rest, replies := s.replies ++ [0#32] }) ∧
    (∀ v, s.inputs = .access (.write space addr n v) :: rest →
      ¬inRange s space addr n ∨ (space ≠ .reg ∧ space ≠ .pix) ∨
        space = .reg ∧ (addr ∈ unmappedOffsets ∨ addr ∈ readOnlyOffsets ∨ addr ∈ lockedOffsets ∧ s.phase ≠ .idle) →
      step s = .next { s with buserr := true, inputs := rest })

/-- 10_state.md R25, R11, R12, R24: in IDLE a write to an operand register stores the data, OPTS only its low four
bits; outside IDLE the write is dropped and sets BUSERR. The order of the agents' steps is the model's input list
(log 1). -/
def Obligations.OperandRegistersLockOutsideIdle : Prop :=
  ∀ (s : State) (v : Word) (rest : List Input), s.pending = none →
    (s.inputs = .access (.write .reg 0x18 4 v) :: rest →
      step s = .next (if s.phase = .idle then { s with width := v, inputs := rest }
        else { s with buserr := true, inputs := rest })) ∧
    (s.inputs = .access (.write .reg 0x1C 4 v) :: rest →
      step s = .next (if s.phase = .idle then { s with height := v, inputs := rest }
        else { s with buserr := true, inputs := rest })) ∧
    (s.inputs = .access (.write .reg 0x20 4 v) :: rest →
      step s = .next (if s.phase = .idle then { s with canvasWidth := v, inputs := rest }
        else { s with buserr := true, inputs := rest })) ∧
    (s.inputs = .access (.write .reg 0x28 4 v) :: rest →
      step s = .next (if s.phase = .idle then { s with opts := BitVec.ofNat 4 v.toNat, inputs := rest }
        else { s with buserr := true, inputs := rest }))

/-- 10_state.md R20, R24, R16: a write to IRQ_EN stores its low two bits in every phase; a write to STATUS clears
DONE for a 1 in bit 1 and BUSERR for a 1 in bit 4; neither does anything else. The order of the agents' steps is the
model's input list (log 1). -/
def Obligations.ControlRegisterWrites : Prop :=
  ∀ (s : State) (v : Word) (rest : List Input), s.pending = none →
    (s.inputs = .access (.write .reg 0x14 4 v) :: rest →
      step s = .next { s with irqEn := BitVec.ofNat 2 v.toNat, inputs := rest }) ∧
    (s.inputs = .access (.write .reg 0x08 4 v) :: rest →
      step s = .next { s with
        done := s.done && !v.getLsbD 1, buserr := s.buserr && !v.getLsbD 4, inputs := rest })

/-- 10_state.md R16, R13: the layout of STATUS, bit by bit; reserved bits read as 0. -/
def Obligations.StatusLayout : Prop :=
  ∀ s : State,
    (statusWord s).getLsbD 0 = s.busy ∧ (statusWord s).getLsbD 1 = s.done ∧ (statusWord s).getLsbD 2 = s.err ∧
    (statusWord s).getLsbD 3 = s.warn ∧ (statusWord s).getLsbD 4 = s.buserr ∧
    (∀ i, 5 ≤ i → i ≤ 7 → (statusWord s).getLsbD i = false) ∧
    (statusWord s).toNat / 256 =
      (match s.phase with | .idle => 0 | .lumd => 1 | .eqd => 2 | .dthd => 3 | .packd => 4 | .fail => 7)

/-- 10_state.md R14, R15, R18 to R23: what a read of each register returns; reading changes nothing. The order of
the agents' steps is the model's input list (log 1). -/
def Obligations.RegisterReads : Prop :=
  ∀ (s : State) (rest : List Input) (addr : Nat) (v : Word), s.pending = none →
    s.inputs = .access (.read .reg addr 4) :: rest →
    (addr, v) ∈ [(0x00, 0x4C554D41#32), (0x04, 0#32), (0x08, statusWord s), (0x10, s.errinfo), (0x18, s.width),
      (0x1C, s.height), (0x20, s.canvasWidth), (0x30, s.offset), (0x14, BitVec.ofNat 32 s.irqEn.toNat),
      (0x28, BitVec.ofNat 32 s.opts.toNat), (0x2C, BitVec.ofNat 32 s.distinct.toNat),
      (0x0C, match s.errcode with
        | .noError => 0#32 | .eIll => 1#32 | .eSeq => 2#32 | .eCfg => 3#32 | .eCap => 4#32 | .eAlloc => 5#32)] →
    step s = .next { s with inputs := rest, replies := s.replies ++ [v] }

/-- 20_memory.md R43, R41, R42: a legal write to PIX stores its bytes, least significant first, and nothing else; a
read of the same bytes returns the data. The order of the agents' steps is the model's input list (log 1). -/
def Obligations.PixWriteThenRead : Prop :=
  ∀ (s : State) (addr n : Nat) (v : Word), s.pending = none → inRange s .pix addr n → v.toNat < 2 ^ (8 * n) →
    ∃ t, step { s with inputs := [.access (.write .pix addr n v)] } = .next t ∧
      t = { s with pix := t.pix, inputs := [] } ∧
      (∀ j, j < n → (t.pixAt (addr + j)).toNat = v.toNat / 2 ^ (8 * j) % 256) ∧
      (∀ k, k < addr ∨ addr + n ≤ k → t.pixAt k = s.pixAt k) ∧
      step { t with inputs := [.access (.read .pix addr n)] } = .next { t with inputs := [], replies := t.replies ++ [v] }

/-- 20_memory.md R41, R42, R40: a legal read of a memory returns its bytes, least significant first, and changes
nothing; bucket v of HIST is read whole at offset 4v. The order of the agents' steps is the model's input list (log
1). -/
def Obligations.MemoryReadsAreLittleEndian : Prop :=
  ∀ (s : State) (rest : List Input), s.pending = none →
    (∀ space byteAt addr n, (space, byteAt) ∈
        [(Space.pix, s.pixAt), (Space.gray, s.grayAt), (Space.bmp, s.bmpAt), (Space.lut, s.lutAt)] →
      inRange s space addr n → s.inputs = .access (.read space addr n) :: rest →
      ∃ v : Word, step s = .next { s with inputs := rest, replies := s.replies ++ [v] } ∧
        v.toNat = ((List.range n).map fun j => (byteAt (addr + j)).toNat * 2 ^ (8 * j)).sum) ∧
    (∀ v, v < 256 → s.inputs = .access (.read .hist (4 * v) 4) :: rest →
      step s = .next { s with inputs := rest, replies := s.replies ++ [s.histAt v] })

/-- 20_memory.md R45, R43: no Host access writes GRAY, BMP, HIST, LUT, PHASE, the error record, DISTINCT or OFFSET.
The order of the agents' steps is the model's input list (log 1). -/
def Obligations.HostKeepsEngineBuffers : Prop :=
  ∀ (s t : State) (a : Access) (rest : List Input), s.pending = none → s.inputs = .access a :: rest →
    step s = .next t →
    t.gray = s.gray ∧ t.bmp = s.bmp ∧ t.hist = s.hist ∧ t.lut = s.lut ∧ t.draw = s.draw ∧ t.phase = s.phase ∧
    t.err = s.err ∧ t.errcode = s.errcode ∧ t.errinfo = s.errinfo ∧ t.warn = s.warn ∧ t.distinct = s.distinct ∧
    t.offset = s.offset ∧ t.params = s.params ∧ t.inputs = rest

/-- 60_exceptions.md R150: BUSERR is cleared only by a Host write of 1 to STATUS bit 4, or by reset. The order of
the agents' steps is the model's input list (log 1). -/
def Obligations.BuserrIsSticky : Prop :=
  ∀ s t : State, s.buserr = true → step s = .next t → t.buserr = false →
    (∃ rest, s.inputs = .reset :: rest) ∨
      ∃ v rest, s.inputs = .access (.write .reg 0x08 4 v) :: rest ∧ v.getLsbD 4 = true

/-! ### The interrupt line -/

/-- 60_exceptions.md R153: `irq` as a function of STATUS and IRQ_EN; it rises when a command completes or raises with
the enable on, and falls on a write of 1 to DONE and on CLR but for CLR's own DONE. -/
def Obligations.IrqFollowsStatusAndEnables : Prop :=
  (∀ s : State, irq s =
    ((statusWord s).getLsbD 1 && s.irqEn.getLsbD 0 || (statusWord s).getLsbD 2 && s.irqEn.getLsbD 1)) ∧
  (∀ (s t : State) (i : Instr), Inv s → s.busy = true → exec i s = .next t →
    (t.done = true → irq t = s.irqEn.getLsbD 0) ∧ (t.err = true → irq t = s.irqEn.getLsbD 1)) ∧
  (∀ (s : State) (d : Word), d.getLsbD 1 = true → s.err = false → irq (writeStatus d s) = false) ∧
  (∀ (s : State) (w : Word), s.err = false → irq (issue w s) = false)

/-! ### Reset and the invariants -/

/-- 10_state.md R32: the value of every register after reset, the memories without anything written. -/
def Obligations.ResetValues : Prop :=
  let s := State.reset
  s.phase = .idle ∧ s.pending = none ∧ s.done = false ∧ s.err = false ∧ s.warn = false ∧ s.buserr = false ∧
  s.errcode = .noError ∧ s.errinfo = 0#32 ∧ s.irqEn = 0#2 ∧ s.width = 0#32 ∧ s.height = 0#32 ∧
  s.canvasWidth = 512#32 ∧ s.opts = 0#4 ∧ s.distinct = 0#9 ∧ s.offset = 0#32 ∧ regValue .id s = 0x4C554D41#32 ∧
  statusWord s = 0#32 ∧ irq s = false ∧
  s.hist = [] ∧ s.lut = [] ∧ s.pix = [] ∧ s.gray = [] ∧ s.bmp = []

/-- 70_reset_and_hazards.md R170: reset in any state puts every register at its reset value in one step and writes
no memory; only an abandoned command makes GRAY, HIST, LUT and BMP unspecified (R171), PIX keeps its bytes. The
order of the agents' steps is the model's input list (log 1). -/
def Obligations.ResetPutsRegistersBack : Prop :=
  ∀ (s : State) (rest : List Input), s.inputs = .reset :: rest →
    ∃ t, step s = .next t ∧
      t = { State.reset with
        hist := t.hist, lut := t.lut, pix := t.pix, gray := t.gray, bmp := t.bmp, draw := t.draw
        params := s.params, inputs := rest, replies := s.replies } ∧
      t.pix = s.pix ∧ (∀ k, t.pixAt k = s.pixAt k) ∧
      (s.pending = none → t.hist = s.hist ∧ t.lut = s.lut ∧ t.gray = s.gray ∧ t.bmp = s.bmp ∧ t.draw = s.draw)

/-- 10_state.md R33: the invariant holds after reset. The capacities are the model's choice there (log 4). -/
def Obligations.ResetMeetsTheInvariant : Prop := Inv State.reset

/-- 10_state.md R33: every step, of the Host, of the Engine or reset, keeps the invariant. The order of the agents'
steps is the model's input list (log 1). -/
def Obligations.EveryStepKeepsTheInvariant : Prop :=
  ∀ s t : State, Inv s → step s = .next t → Inv t

/-- 20_memory.md R54, 70_reset_and_hazards.md R181: in a state that meets the invariant the block never stops: every
step answers a next state. The order of the agents' steps is the model's input list (log 1). -/
def Obligations.BlockNeverStopsUnderTheInvariant : Prop :=
  ∀ s : State, Inv s → ∃ t, step s = .next t

/-- 20_memory.md R40, R54: from every state whose memories are in canonical form, inside their extents, every step
leaves them so. The order of the agents' steps is the model's input list (log 1). -/
def Obligations.EveryStepKeepsMemoriesCanonical : Prop :=
  ∀ s t : State, memoriesOk s = true → step s = .next t → memoriesOk t = true

/-- 30_encoding.md R62, R63: no word and no access is refused by the model, in any state; and the model's faults are
raised only outside the geometry of 10_state.md R33 item 2 (log 9). The order of the agents' steps is the model's
input list (log 1). -/
def Obligations.NothingIsRefusedByTheModel : Prop :=
  (∀ (s : State) (r : Refusal), step s ≠ .refused r) ∧
    ∀ (s : State) (f : Fault), GeometryOk s → step s ≠ .fault f

/-! ### The Host's contract -/

/-- 48_host_framing.md R122: ceil(H / Lmax) bands cover the rows once each, top to bottom, none empty, none above
Lmax; D0 §8's height 2000 with Lmax 1662 gives bands of 1662 and 338. -/
def Obligations.BandsCutTheRows : Prop :=
  (bandCount 2000 1662 = 2 ∧ bandRows 2000 1662 0 = 1662 ∧ bandRows 2000 1662 1 = 338) ∧
  ∀ h lmax : Nat, 1 ≤ lmax →
    h ≤ bandCount h lmax * lmax ∧ (1 ≤ h → (bandCount h lmax - 1) * lmax < h) ∧
    (∀ b, b < bandCount h lmax → bandRows h lmax b = min lmax (h - b * lmax) ∧ 1 ≤ bandRows h lmax b ∧
      b * lmax + bandRows h lmax b = min ((b + 1) * lmax) h) ∧
    ((List.range (bandCount h lmax)).map (bandRows h lmax)).sum = h

/-- 48_host_framing.md R125, R123, R124: without the cut trailer the stream begins with the preamble and has
2 + Σ (24 + k × stride) bytes; outside the 16-bit fields or with Lmax = 0 there is no stream (R127, U10). -/
def Obligations.SinkStreamLength : Prop :=
  ∀ (bmp : Nat → Byte) (wc h lmax : Nat),
    (1 ≤ lmax → lmax ≤ 65535 → wc ≤ 65535 →
      ∃ bytes, sinkStream bmp wc h lmax false = .ok bytes ∧ bytes.take 2 = [0x1B#8, 0x40#8] ∧
        bytes.length = 2 + 24 * bandCount h lmax + h * (wc / 8)) ∧
    (65535 < wc ∨ 65535 < lmax ∨ lmax = 0 → ∃ r, sinkStream bmp wc h lmax false = .error r)

/-- 48_host_framing.md R123: the store command of a band, field by field. -/
def Obligations.StoreCommandLayout : Prop :=
  ∀ (bmp : Nat → Byte) (wc r0 k : Nat), wc ≤ 65535 → k ≤ 65535 →
    let bytes := storeCommand bmp wc r0 k
    bytes.length = 17 + k * (wc / 8) ∧ bytes.take 3 = [0x1D#8, 0x38#8, 0x4C#8] ∧
    littleEndian ((bytes.drop 3).take 4) = 10 + k * (wc / 8) ∧
    (bytes.drop 7).take 6 = [0x30#8, 0x70#8, 0x30#8, 0x01#8, 0x01#8, 0x31#8] ∧
    littleEndian ((bytes.drop 13).take 2) = wc ∧ littleEndian ((bytes.drop 15).take 2) = k ∧
    ∀ j, j < k * (wc / 8) → (bytes.drop 17)[j]? = some (bmp (r0 * (wc / 8) + j))

/-- 48_host_framing.md R121, R128: the Host's writes before a conversion put the four fields of the configuration that
live in the block where R121 says, the size in WIDTH and HEIGHT and every pixel in PIX, and change nothing else; `cut`,
`speed` and the band height leave no trace in the block; the defaults. The order of the agents' steps is the model's
input list (log 1). -/
def Obligations.ConfigurationReachesTheRegisters : Prop :=
  (∀ speed : Byte, HostConfig.default speed = {
    photo := false, align := .unset, rotate := false, canvasWidth := 512, cut := false, speed := speed
    maxBandHeight := 1662 }) ∧
  ∀ (c : HostConfig) (img : Image) (s : State),
    s.phase = .idle → s.pending = none → img.pixels.length ≤ s.params.nmax →
    ∃ t, runScript (prepare c img) s = .next t ∧
      t = { s with
        width := img.width, height := img.height, canvasWidth := c.canvasWidth, opts := t.opts, pix := t.pix
        inputs := [] } ∧
      t.photo = c.photo ∧ t.rotate = c.rotate ∧ t.align = c.align ∧
      (∀ k px, img.pixels[k]? = some px →
        t.pixAt (4 * k) = px.r ∧ t.pixAt (4 * k + 1) = px.g ∧ t.pixAt (4 * k + 2) = px.b ∧ t.pixAt (4 * k + 3) = px.a) ∧
      ∀ k, 4 * img.pixels.length ≤ k → t.pixAt k = s.pixAt k

/-- 48_host_framing.md R128, R125: from an idle block, an image that passes the start checks and fits the wire format is
converted, with RUN or stepwise; the Host reports success with the advisory as its warning, the sink holds exactly the
stream of the bitmap the block has drawn, which is the midpoint threshold of GRAY, without photo mode the luminance of
the decoded image; the block is idle again. How the Host reads BMP and polls is the model's (log 1, log 18). -/
def Obligations.HostDeliversTheBitmap : Prop :=
  ∀ (c : HostConfig) (form : ConversionForm) (polls : Nat) (img : Image) (s : State),
    Inv s → s.phase = .idle → s.pending = none → img.WellFormed = true →
    1 ≤ img.width.toNat → 1 ≤ img.height.toNat → c.canvasWidth.toNat % 8 = 0 →
    img.width.toNat ≤ c.canvasWidth.toNat → img.width.toNat * img.height.toNat ≤ s.params.nmax →
    img.height.toNat * (c.canvasWidth.toNat / 8) ≤ s.params.bmax →
    c.canvasWidth.toNat ≤ 65535 → 1 ≤ c.maxBandHeight.toNat → c.maxBandHeight.toNat ≤ 65535 →
    ∃ r, hostConvert c form polls none (.ok img) s = .next r ∧
      r.report = .success ∧ r.warning = advisory c.photo r.block.distinct.toNat ∧
      sinkStream r.block.bmpAt c.canvasWidth.toNat img.height.toNat c.maxBandHeight.toNat c.cut = .ok r.written ∧
      r.block.phase = .idle ∧ r.block.pending = none ∧
      (c.photo = false → ∀ k px, img.pixels[k]? = some px →
        (r.block.grayAt k).toNat = expectedLuma px.r.toNat px.g.toNat px.b.toNat px.a.toNat) ∧
      ∀ cx y, cx < c.canvasWidth.toNat → y < img.height.toNat →
        (dotAt r.block cx y = true ↔
          placedAt r.block ≤ cx ∧ cx < placedAt r.block + img.width.toNat ∧
            (r.block.grayAt (sourceAt r.block (cx - placedAt r.block) y)).toNat ≤ 128)

/-- 48_host_framing.md R128, R130: the advisory the Host reads at RD STATUS is surfaced whatever follows. An image that
passes the start checks ends with the warning beside the report: success, a refusal of the wire format with nothing
written, or the failure of a sink that took only the first bytes of the stream; and with the block idle. How the Host
polls, the sink's room and when a refusal is reported are the model's (log 1, log 14, log 18). -/
def Obligations.HostSurfacesTheAdvisory : Prop :=
  ∀ (c : HostConfig) (form : ConversionForm) (polls : Nat) (room : Option Nat) (img : Image) (s : State),
    Inv s → s.phase = .idle → s.pending = none → img.WellFormed = true →
    1 ≤ img.width.toNat → 1 ≤ img.height.toNat → c.canvasWidth.toNat % 8 = 0 →
    img.width.toNat ≤ c.canvasWidth.toNat → img.width.toNat * img.height.toNat ≤ s.params.nmax →
    img.height.toNat * (c.canvasWidth.toNat / 8) ≤ s.params.bmax →
    ∃ r, hostConvert c form polls room (.ok img) s = .next r ∧
      r.warning = advisory c.photo r.block.distinct.toNat ∧
      r.block.phase = .idle ∧ r.block.pending = none ∧ r.block.warn = false ∧
      match sinkStream r.block.bmpAt c.canvasWidth.toNat img.height.toNat c.maxBandHeight.toNat c.cut with
      | .error e => r.report = .unframed e ∧ r.written = []
      | .ok bytes =>
        (room = none → r.report = .success ∧ r.written = bytes) ∧
        ∀ k, room = some k →
          (bytes.length ≤ k → r.report = .success ∧ r.written = bytes) ∧
          (k < bytes.length → r.report = .failure .sinkWriteFailure ∧ r.written = bytes.take k)

/-- 48_host_framing.md R128, R130: the failure branch. A conversion that fails a start check ends with that failure
reported, not one byte at the sink and the block idle again; a failure of the decoder or of a host-side allocation
leaves the block untouched; in either form of the command part and whatever the sink would take. How the Host polls,
and that its own allocation comes first, is the model's (log 1, log 18). -/
def Obligations.HostReportsFailuresAndWritesNothing : Prop :=
  ∀ (c : HostConfig) (form : ConversionForm) (polls : Nat) (room : Option Nat) (s : State),
    hostConvert c form polls room (.error .decoder) s =
      .next { report := .failure .decodeFailure, warning := false, written := [], block := s } ∧
    hostConvert c form polls room (.error .allocation) s =
      .next { report := .failure .allocationFailure, warning := false, written := [], block := s } ∧
    ∀ img : Image, Inv s → s.phase = .idle → s.pending = none →
      (img.width.toNat = 0 ∨ img.height.toNat = 0 ∨ c.canvasWidth.toNat % 8 ≠ 0 →
        ∃ t, hostConvert c form polls room (.ok img) s =
            .next { report := .failure (.programming .eCfg), warning := false, written := [], block := t } ∧
            t.phase = .idle ∧ t.pending = none) ∧
      (1 ≤ img.width.toNat → 1 ≤ img.height.toNat → c.canvasWidth.toNat % 8 = 0 →
        (c.canvasWidth.toNat < img.width.toNat →
          ∃ t, hostConvert c form polls room (.ok img) s =
              .next { report := .failure .capacityExceeded, warning := false, written := [], block := t } ∧
            t.phase = .idle ∧ t.pending = none) ∧
        (img.width.toNat ≤ c.canvasWidth.toNat →
          s.params.nmax < img.width.toNat * img.height.toNat ∨
            s.params.bmax < img.height.toNat * (c.canvasWidth.toNat / 8) →
          ∃ t, hostConvert c form polls room (.ok img) s =
              .next { report := .failure .allocationFailure, warning := false, written := [], block := t } ∧
            t.phase = .idle ∧ t.pending = none))
end

