-- ==== Sys2Proof/Laws/Memory.lean ====
section
/-!
SUPPORT. Laws of the memories: reading after a write, what a bulk write leaves, and that every operation keeps the
canonical form.
-/

namespace Sys2Proof.Machine

variable {α : Type}

/-! ### Reading after a write -/

@[simp] theorem Memory.lookup_nil (a : Nat) : Memory.lookup ([] : Memory α) a = none := rfl

theorem Memory.lookup_cons (k : Nat) (v : α) (m : Memory α) (a : Nat) :
    Memory.lookup ((k, v) :: m) a = if a = k then some v else Memory.lookup m a := rfl

/-- The element written holds the value written; every other element holds what it held. -/
@[simp] theorem Memory.lookup_store (m : Memory α) (a b : Nat) (v : α) :
    Memory.lookup (Memory.store m a v) b = if b = a then some v else Memory.lookup m b := by
  induction m with
  | nil => rfl
  | cons c m ih =>
    obtain ⟨k, w⟩ := c
    unfold Memory.store
    split
    · rw [Memory.lookup_cons]
    · split
      · subst_vars
        simp only [Memory.lookup_cons]
        split <;> rfl
      · simp only [Memory.lookup_cons, ih]
        split
        · rw [if_neg (by omega)]
        · rfl

theorem Memory.lookup_append_of_keys (m₁ m₂ : Memory α) (a : Nat) :
    Memory.lookup (m₁ ++ m₂) a = (Memory.lookup m₁ a).or (Memory.lookup m₂ a) := by
  induction m₁ with
  | nil => simp
  | cons c m ih =>
    obtain ⟨k, w⟩ := c
    simp only [List.cons_append, Memory.lookup_cons, ih]
    split <;> rfl

theorem Memory.lookup_map_pair (f : Nat → α) (l : List Nat) (a : Nat) :
    Memory.lookup (l.map fun i => (i, f i)) a = if a ∈ l then some (f a) else none := by
  induction l with
  | nil => rfl
  | cons k l ih =>
    simp only [List.map_cons, Memory.lookup_cons, ih, List.mem_cons]
    by_cases h : a = k
    · simp [h]
    · simp [h]

@[simp] theorem Memory.lookup_table (n : Nat) (f : Nat → α) (a : Nat) :
    Memory.lookup (Memory.table n f) a = if a < n then some (f a) else none := by
  simp [Memory.table, Memory.lookup_map_pair]

theorem Memory.lookup_filter_ge (m : Memory α) (n a : Nat) :
    Memory.lookup (m.filter fun c => decide (n ≤ c.1)) a = if n ≤ a then Memory.lookup m a else none := by
  induction m with
  | nil => simp
  | cons c m ih =>
    obtain ⟨k, w⟩ := c
    by_cases hk : n ≤ k
    · simp only [List.filter_cons, hk, decide_true, if_true, Memory.lookup_cons, ih]
      split
      · subst_vars; simp [hk]
      · rfl
    · simp only [List.filter_cons, hk, decide_false, Bool.false_eq_true, if_false, Memory.lookup_cons, ih]
      split
      · rw [if_neg (by omega)]
      · rfl

/-- Elements 0 .. n − 1 hold what was written; the others hold what they held. -/
@[simp] theorem Memory.lookup_overwrite (m : Memory α) (n : Nat) (f : Nat → α) (a : Nat) :
    Memory.lookup (Memory.overwrite m n f) a = if a < n then some (f a) else Memory.lookup m a := by
  unfold Memory.overwrite
  rw [Memory.lookup_append_of_keys, Memory.lookup_table, Memory.lookup_filter_ge]
  by_cases h : a < n
  · simp [h]
  · simp [h, Nat.le_of_not_lt h]

@[simp] theorem readByte_store (sp : Space) (d : Nat) (m : Memory Byte) (a b : Nat) (v : Byte) :
    readByte sp d (Memory.store m a v) b = if b = a then v else readByte sp d m b := by
  simp only [readByte, Memory.lookup_store]
  split <;> rfl

@[simp] theorem readByte_overwrite (sp : Space) (d : Nat) (m : Memory Byte) (n : Nat) (f : Nat → Byte) (a : Nat) :
    readByte sp d (Memory.overwrite m n f) a = if a < n then f a else readByte sp d m a := by
  simp only [readByte, Memory.lookup_overwrite]
  split <;> rfl

@[simp] theorem readBucket_store (d : Nat) (m : Memory Word) (a b : Nat) (v : Word) :
    readBucket d (Memory.store m a v) b = if b = a then v else readBucket d m b := by
  simp only [readBucket, Memory.lookup_store]
  split <;> rfl

/-- Reading a written byte does not depend on the free values. -/
theorem readByte_of_written {sp : Space} {d : Nat} {m : Memory Byte} {a : Nat} {v : Byte}
    (h : m.lookup a = some v) : readByte sp d m a = v := by
  simp [readByte, h]

/-- Reading a written bucket does not depend on the free values. -/
theorem readBucket_of_written {d : Nat} {m : Memory Word} {a : Nat} {v : Word}
    (h : m.lookup a = some v) : readBucket d m a = v := by
  simp [readBucket, h]

/-! ### The canonical form -/

theorem Memory.risingFrom_mono {lo lo' : Nat} {m : Memory α} (hle : lo' ≤ lo) (h : Memory.risingFrom lo m = true) :
    Memory.risingFrom lo' m = true := by
  cases m with
  | nil => rfl
  | cons c m =>
    simp only [Memory.risingFrom, Bool.and_eq_true, decide_eq_true_eq] at h ⊢
    exact ⟨by omega, h.2⟩

theorem Memory.risingFrom_store {lo : Nat} {m : Memory α} (a : Nat) (v : α) (ha : lo ≤ a)
    (h : Memory.risingFrom lo m = true) : Memory.risingFrom lo (Memory.store m a v) = true := by
  induction m generalizing lo with
  | nil => simp [Memory.store, Memory.risingFrom, ha]
  | cons c m ih =>
    obtain ⟨k, w⟩ := c
    simp only [Memory.risingFrom, Bool.and_eq_true, decide_eq_true_eq] at h
    unfold Memory.store
    split
    · simp only [Memory.risingFrom, Bool.and_eq_true, decide_eq_true_eq]
      exact ⟨ha, by omega, h.2⟩
    · split
      · subst_vars
        simp only [Memory.risingFrom, Bool.and_eq_true, decide_eq_true_eq]
        exact ⟨ha, h.2⟩
      · simp only [Memory.risingFrom, Bool.and_eq_true, decide_eq_true_eq]
        exact ⟨h.1, ih (by omega) h.2⟩

theorem Memory.all_store {p : Nat → Bool} {m : Memory α} (a : Nat) (v : α) (ha : p a = true)
    (h : (m.all fun c => p c.1) = true) : ((Memory.store m a v).all fun c => p c.1) = true := by
  induction m with
  | nil => simp [Memory.store, ha]
  | cons c m ih =>
    obtain ⟨k, w⟩ := c
    simp only [List.all_cons, Bool.and_eq_true] at h
    unfold Memory.store
    split
    · simp only [List.all_cons, Bool.and_eq_true]
      exact ⟨ha, h⟩
    · split
      · simp only [List.all_cons, Bool.and_eq_true]
        exact ⟨ha, h.2⟩
      · simp only [List.all_cons, Bool.and_eq_true]
        exact ⟨h.1, ih h.2⟩

@[simp] theorem Memory.wf_nil (e : Nat) : Memory.wf e ([] : Memory α) = true := rfl

/-- Writing an element inside the extent keeps the canonical form. -/
theorem Memory.wf_store {e : Nat} {m : Memory α} {a : Nat} (v : α) (ha : a < e) (h : Memory.wf e m = true) :
    Memory.wf e (Memory.store m a v) = true := by
  simp only [Memory.wf, Bool.and_eq_true] at h ⊢
  exact ⟨Memory.risingFrom_store a v (Nat.zero_le a) h.1,
    Memory.all_store (p := fun k => decide (k < e)) a v (by simpa using ha) h.2⟩

/-- A fold of steps that each keep the canonical form keeps it. -/
theorem Memory.wf_foldl {β : Type} {e : Nat} (f : Memory α → β → Memory α) (l : List β)
    (hf : ∀ m b, b ∈ l → Memory.wf e m = true → Memory.wf e (f m b) = true) (m : Memory α)
    (h : Memory.wf e m = true) : Memory.wf e (l.foldl f m) = true := by
  induction l generalizing m with
  | nil => exact h
  | cons b l ih =>
    exact ih (fun m b' hb' hm => hf m b' (List.mem_cons_of_mem _ hb') hm) _ (hf m b List.mem_cons_self h)

theorem Memory.risingFrom_range' (f : Nat → α) (lo n : Nat) (m : Memory α)
    (h : Memory.risingFrom (lo + n) m = true) :
    Memory.risingFrom lo ((List.range' lo n).map (fun i => (i, f i)) ++ m) = true := by
  induction n generalizing lo with
  | zero => simpa using h
  | succ n ih =>
    simp only [List.range'_succ, List.map_cons, List.cons_append, Memory.risingFrom, le_refl, decide_true,
      Bool.true_and]
    exact ih (lo + 1) (by rwa [show lo + 1 + n = lo + (n + 1) by omega])

theorem Memory.risingFrom_filter {lo : Nat} {m : Memory α} (n : Nat) (h : Memory.risingFrom lo m = true) :
    Memory.risingFrom n (m.filter fun c => decide (n ≤ c.1)) = true := by
  induction m generalizing lo n with
  | nil => rfl
  | cons c m ih =>
    obtain ⟨k, w⟩ := c
    simp only [Memory.risingFrom, Bool.and_eq_true, decide_eq_true_eq] at h
    by_cases hk : n ≤ k
    · have hm : (m.filter fun c => decide (n ≤ c.1)) = m.filter fun c => decide (k + 1 ≤ c.1) := by
        clear ih
        have key : ∀ (l : Memory α) (lo : Nat), k + 1 ≤ lo → Memory.risingFrom lo l = true →
            (l.filter fun c => decide (n ≤ c.1)) = l.filter fun c => decide (k + 1 ≤ c.1) := by
          intro l
          induction l with
          | nil => intros; rfl
          | cons c l ih =>
            intro lo hlo hl
            obtain ⟨k', w'⟩ := c
            simp only [Memory.risingFrom, Bool.and_eq_true, decide_eq_true_eq] at hl
            have h1 : n ≤ k' := by omega
            have h2 : k + 1 ≤ k' := by omega
            simp only [List.filter_cons, h1, h2, decide_true, if_true]
            rw [ih (k' + 1) (by omega) hl.2]
        exact key m (k + 1) (le_refl _) h.2
      simp only [List.filter_cons, hk, decide_true, if_true, Memory.risingFrom, Bool.true_and]
      rw [hm]
      exact ih (k + 1) h.2
    · simp only [List.filter_cons, hk, decide_false, Bool.false_eq_true, if_false]
      exact ih n h.2

/-- A bulk write inside the extent keeps the canonical form. -/
theorem Memory.wf_overwrite {e n : Nat} {m : Memory α} (f : Nat → α) (hn : n ≤ e) (h : Memory.wf e m = true) :
    Memory.wf e (Memory.overwrite m n f) = true := by
  simp only [Memory.wf, Bool.and_eq_true] at h ⊢
  constructor
  · simp only [Memory.overwrite, Memory.table, List.range_eq_range']
    exact Memory.risingFrom_range' f 0 n _ (by simpa using Memory.risingFrom_filter n h.1)
  · simp only [Memory.overwrite, Memory.table, List.all_append, List.all_map, Bool.and_eq_true]
    constructor
    · simp only [List.all_eq_true, List.mem_range, Function.comp_apply, decide_eq_true_eq]
      intro i hi
      omega
    · rw [List.all_eq_true] at h ⊢
      intro c hc
      exact h.2 c (List.mem_filter.mp hc).1

/-- A register file written whole is in canonical form. -/
theorem Memory.wf_table {e n : Nat} (f : Nat → α) (hn : n ≤ e) : Memory.wf e (Memory.table n f) = true := by
  have := Memory.wf_overwrite (m := ([] : Memory α)) f hn rfl
  simpa [Memory.overwrite] using this

end Sys2Proof.Machine
end

