-- ==== Sys2Proof/Laws/State.lean ====
section
/-!
SUPPORT. One lemma per field of State per shared update, each true by definition: what the update writes and what it
leaves. Later proofs cite these and never unfold a record update.
-/

namespace Sys2Proof.Machine

/-! ### Issue writes PENDING, BUSY and DONE only (45_sequencing_commands.md R110). -/

@[simp] theorem issue_width (w : Word) (s : State) : (issue w s).width = s.width := rfl
@[simp] theorem issue_height (w : Word) (s : State) : (issue w s).height = s.height := rfl
@[simp] theorem issue_canvasWidth (w : Word) (s : State) : (issue w s).canvasWidth = s.canvasWidth := rfl
@[simp] theorem issue_opts (w : Word) (s : State) : (issue w s).opts = s.opts := rfl
@[simp] theorem issue_phase (w : Word) (s : State) : (issue w s).phase = s.phase := rfl
@[simp] theorem issue_pending (w : Word) (s : State) : (issue w s).pending = some w := rfl
@[simp] theorem issue_done (w : Word) (s : State) : (issue w s).done = false := rfl
@[simp] theorem issue_err (w : Word) (s : State) : (issue w s).err = s.err := rfl
@[simp] theorem issue_warn (w : Word) (s : State) : (issue w s).warn = s.warn := rfl
@[simp] theorem issue_buserr (w : Word) (s : State) : (issue w s).buserr = s.buserr := rfl
@[simp] theorem issue_errcode (w : Word) (s : State) : (issue w s).errcode = s.errcode := rfl
@[simp] theorem issue_errinfo (w : Word) (s : State) : (issue w s).errinfo = s.errinfo := rfl
@[simp] theorem issue_irqEn (w : Word) (s : State) : (issue w s).irqEn = s.irqEn := rfl
@[simp] theorem issue_distinct (w : Word) (s : State) : (issue w s).distinct = s.distinct := rfl
@[simp] theorem issue_offset (w : Word) (s : State) : (issue w s).offset = s.offset := rfl
@[simp] theorem issue_hist (w : Word) (s : State) : (issue w s).hist = s.hist := rfl
@[simp] theorem issue_lut (w : Word) (s : State) : (issue w s).lut = s.lut := rfl
@[simp] theorem issue_pix (w : Word) (s : State) : (issue w s).pix = s.pix := rfl
@[simp] theorem issue_gray (w : Word) (s : State) : (issue w s).gray = s.gray := rfl
@[simp] theorem issue_bmp (w : Word) (s : State) : (issue w s).bmp = s.bmp := rfl
@[simp] theorem issue_params (w : Word) (s : State) : (issue w s).params = s.params := rfl
@[simp] theorem issue_draw (w : Word) (s : State) : (issue w s).draw = s.draw := rfl
@[simp] theorem issue_inputs (w : Word) (s : State) : (issue w s).inputs = s.inputs := rfl
@[simp] theorem issue_replies (w : Word) (s : State) : (issue w s).replies = s.replies := rfl

/-! ### Retiring a command clears BUSY only (45_sequencing_commands.md R111). -/

@[simp] theorem retire_width (s : State) : (retire s).width = s.width := rfl
@[simp] theorem retire_height (s : State) : (retire s).height = s.height := rfl
@[simp] theorem retire_canvasWidth (s : State) : (retire s).canvasWidth = s.canvasWidth := rfl
@[simp] theorem retire_opts (s : State) : (retire s).opts = s.opts := rfl
@[simp] theorem retire_phase (s : State) : (retire s).phase = s.phase := rfl
@[simp] theorem retire_pending (s : State) : (retire s).pending = none := rfl
@[simp] theorem retire_done (s : State) : (retire s).done = s.done := rfl
@[simp] theorem retire_err (s : State) : (retire s).err = s.err := rfl
@[simp] theorem retire_warn (s : State) : (retire s).warn = s.warn := rfl
@[simp] theorem retire_buserr (s : State) : (retire s).buserr = s.buserr := rfl
@[simp] theorem retire_errcode (s : State) : (retire s).errcode = s.errcode := rfl
@[simp] theorem retire_errinfo (s : State) : (retire s).errinfo = s.errinfo := rfl
@[simp] theorem retire_irqEn (s : State) : (retire s).irqEn = s.irqEn := rfl
@[simp] theorem retire_distinct (s : State) : (retire s).distinct = s.distinct := rfl
@[simp] theorem retire_offset (s : State) : (retire s).offset = s.offset := rfl
@[simp] theorem retire_hist (s : State) : (retire s).hist = s.hist := rfl
@[simp] theorem retire_lut (s : State) : (retire s).lut = s.lut := rfl
@[simp] theorem retire_pix (s : State) : (retire s).pix = s.pix := rfl
@[simp] theorem retire_gray (s : State) : (retire s).gray = s.gray := rfl
@[simp] theorem retire_bmp (s : State) : (retire s).bmp = s.bmp := rfl
@[simp] theorem retire_params (s : State) : (retire s).params = s.params := rfl
@[simp] theorem retire_draw (s : State) : (retire s).draw = s.draw := rfl
@[simp] theorem retire_inputs (s : State) : (retire s).inputs = s.inputs := rfl
@[simp] theorem retire_replies (s : State) : (retire s).replies = s.replies := rfl

/-! ### Completion sets DONE and clears BUSY only (45_sequencing_commands.md R117). -/

@[simp] theorem complete_width (s : State) : (complete s).width = s.width := rfl
@[simp] theorem complete_height (s : State) : (complete s).height = s.height := rfl
@[simp] theorem complete_canvasWidth (s : State) : (complete s).canvasWidth = s.canvasWidth := rfl
@[simp] theorem complete_opts (s : State) : (complete s).opts = s.opts := rfl
@[simp] theorem complete_phase (s : State) : (complete s).phase = s.phase := rfl
@[simp] theorem complete_pending (s : State) : (complete s).pending = none := rfl
@[simp] theorem complete_done (s : State) : (complete s).done = true := rfl
@[simp] theorem complete_err (s : State) : (complete s).err = s.err := rfl
@[simp] theorem complete_warn (s : State) : (complete s).warn = s.warn := rfl
@[simp] theorem complete_buserr (s : State) : (complete s).buserr = s.buserr := rfl
@[simp] theorem complete_errcode (s : State) : (complete s).errcode = s.errcode := rfl
@[simp] theorem complete_errinfo (s : State) : (complete s).errinfo = s.errinfo := rfl
@[simp] theorem complete_irqEn (s : State) : (complete s).irqEn = s.irqEn := rfl
@[simp] theorem complete_distinct (s : State) : (complete s).distinct = s.distinct := rfl
@[simp] theorem complete_offset (s : State) : (complete s).offset = s.offset := rfl
@[simp] theorem complete_hist (s : State) : (complete s).hist = s.hist := rfl
@[simp] theorem complete_lut (s : State) : (complete s).lut = s.lut := rfl
@[simp] theorem complete_pix (s : State) : (complete s).pix = s.pix := rfl
@[simp] theorem complete_gray (s : State) : (complete s).gray = s.gray := rfl
@[simp] theorem complete_bmp (s : State) : (complete s).bmp = s.bmp := rfl
@[simp] theorem complete_params (s : State) : (complete s).params = s.params := rfl
@[simp] theorem complete_draw (s : State) : (complete s).draw = s.draw := rfl
@[simp] theorem complete_inputs (s : State) : (complete s).inputs = s.inputs := rfl
@[simp] theorem complete_replies (s : State) : (complete s).replies = s.replies := rfl

/-! ### A command error writes ERR, ERRCODE, ERRINFO and PHASE only (60_exceptions.md R141). -/

@[simp] theorem raiseError_width (e : ErrCode) (w : Word) (s : State) : (raiseError e w s).width = s.width := rfl
@[simp] theorem raiseError_height (e : ErrCode) (w : Word) (s : State) : (raiseError e w s).height = s.height := rfl
@[simp] theorem raiseError_canvasWidth (e : ErrCode) (w : Word) (s : State) :
    (raiseError e w s).canvasWidth = s.canvasWidth := rfl
@[simp] theorem raiseError_opts (e : ErrCode) (w : Word) (s : State) : (raiseError e w s).opts = s.opts := rfl
@[simp] theorem raiseError_phase (e : ErrCode) (w : Word) (s : State) : (raiseError e w s).phase = .fail := rfl
@[simp] theorem raiseError_pending (e : ErrCode) (w : Word) (s : State) :
    (raiseError e w s).pending = s.pending := rfl
@[simp] theorem raiseError_done (e : ErrCode) (w : Word) (s : State) : (raiseError e w s).done = s.done := rfl
@[simp] theorem raiseError_err (e : ErrCode) (w : Word) (s : State) : (raiseError e w s).err = true := rfl
@[simp] theorem raiseError_warn (e : ErrCode) (w : Word) (s : State) : (raiseError e w s).warn = s.warn := rfl
@[simp] theorem raiseError_buserr (e : ErrCode) (w : Word) (s : State) : (raiseError e w s).buserr = s.buserr := rfl
@[simp] theorem raiseError_errcode (e : ErrCode) (w : Word) (s : State) : (raiseError e w s).errcode = e := rfl
@[simp] theorem raiseError_errinfo (e : ErrCode) (w : Word) (s : State) : (raiseError e w s).errinfo = w := rfl
@[simp] theorem raiseError_irqEn (e : ErrCode) (w : Word) (s : State) : (raiseError e w s).irqEn = s.irqEn := rfl
@[simp] theorem raiseError_distinct (e : ErrCode) (w : Word) (s : State) :
    (raiseError e w s).distinct = s.distinct := rfl
@[simp] theorem raiseError_offset (e : ErrCode) (w : Word) (s : State) : (raiseError e w s).offset = s.offset := rfl
@[simp] theorem raiseError_hist (e : ErrCode) (w : Word) (s : State) : (raiseError e w s).hist = s.hist := rfl
@[simp] theorem raiseError_lut (e : ErrCode) (w : Word) (s : State) : (raiseError e w s).lut = s.lut := rfl
@[simp] theorem raiseError_pix (e : ErrCode) (w : Word) (s : State) : (raiseError e w s).pix = s.pix := rfl
@[simp] theorem raiseError_gray (e : ErrCode) (w : Word) (s : State) : (raiseError e w s).gray = s.gray := rfl
@[simp] theorem raiseError_bmp (e : ErrCode) (w : Word) (s : State) : (raiseError e w s).bmp = s.bmp := rfl
@[simp] theorem raiseError_params (e : ErrCode) (w : Word) (s : State) : (raiseError e w s).params = s.params := rfl
@[simp] theorem raiseError_draw (e : ErrCode) (w : Word) (s : State) : (raiseError e w s).draw = s.draw := rfl
@[simp] theorem raiseError_inputs (e : ErrCode) (w : Word) (s : State) : (raiseError e w s).inputs = s.inputs := rfl
@[simp] theorem raiseError_replies (e : ErrCode) (w : Word) (s : State) :
    (raiseError e w s).replies = s.replies := rfl

/-! ### A perform step that raises writes the error record and clears BUSY (60_exceptions.md R141). -/

@[simp] theorem performError_width (e : ErrCode) (w : Word) (s : State) : (performError e w s).width = s.width := rfl
@[simp] theorem performError_height (e : ErrCode) (w : Word) (s : State) :
    (performError e w s).height = s.height := rfl
@[simp] theorem performError_canvasWidth (e : ErrCode) (w : Word) (s : State) :
    (performError e w s).canvasWidth = s.canvasWidth := rfl
@[simp] theorem performError_opts (e : ErrCode) (w : Word) (s : State) : (performError e w s).opts = s.opts := rfl
@[simp] theorem performError_phase (e : ErrCode) (w : Word) (s : State) : (performError e w s).phase = .fail := rfl
@[simp] theorem performError_pending (e : ErrCode) (w : Word) (s : State) : (performError e w s).pending = none := rfl
@[simp] theorem performError_done (e : ErrCode) (w : Word) (s : State) : (performError e w s).done = s.done := rfl
@[simp] theorem performError_err (e : ErrCode) (w : Word) (s : State) : (performError e w s).err = true := rfl
@[simp] theorem performError_warn (e : ErrCode) (w : Word) (s : State) : (performError e w s).warn = s.warn := rfl
@[simp] theorem performError_buserr (e : ErrCode) (w : Word) (s : State) :
    (performError e w s).buserr = s.buserr := rfl
@[simp] theorem performError_errcode (e : ErrCode) (w : Word) (s : State) : (performError e w s).errcode = e := rfl
@[simp] theorem performError_errinfo (e : ErrCode) (w : Word) (s : State) : (performError e w s).errinfo = w := rfl
@[simp] theorem performError_irqEn (e : ErrCode) (w : Word) (s : State) : (performError e w s).irqEn = s.irqEn := rfl
@[simp] theorem performError_distinct (e : ErrCode) (w : Word) (s : State) :
    (performError e w s).distinct = s.distinct := rfl
@[simp] theorem performError_offset (e : ErrCode) (w : Word) (s : State) :
    (performError e w s).offset = s.offset := rfl
@[simp] theorem performError_hist (e : ErrCode) (w : Word) (s : State) : (performError e w s).hist = s.hist := rfl
@[simp] theorem performError_lut (e : ErrCode) (w : Word) (s : State) : (performError e w s).lut = s.lut := rfl
@[simp] theorem performError_pix (e : ErrCode) (w : Word) (s : State) : (performError e w s).pix = s.pix := rfl
@[simp] theorem performError_gray (e : ErrCode) (w : Word) (s : State) : (performError e w s).gray = s.gray := rfl
@[simp] theorem performError_bmp (e : ErrCode) (w : Word) (s : State) : (performError e w s).bmp = s.bmp := rfl
@[simp] theorem performError_params (e : ErrCode) (w : Word) (s : State) :
    (performError e w s).params = s.params := rfl
@[simp] theorem performError_draw (e : ErrCode) (w : Word) (s : State) : (performError e w s).draw = s.draw := rfl
@[simp] theorem performError_inputs (e : ErrCode) (w : Word) (s : State) :
    (performError e w s).inputs = s.inputs := rfl
@[simp] theorem performError_replies (e : ErrCode) (w : Word) (s : State) :
    (performError e w s).replies = s.replies := rfl

/-! ### CLR's body writes PHASE, ERR, ERRCODE, ERRINFO and WARN only (45_sequencing_commands.md R115). -/

@[simp] theorem clearErrors_width (s : State) : (clearErrors s).width = s.width := rfl
@[simp] theorem clearErrors_height (s : State) : (clearErrors s).height = s.height := rfl
@[simp] theorem clearErrors_canvasWidth (s : State) : (clearErrors s).canvasWidth = s.canvasWidth := rfl
@[simp] theorem clearErrors_opts (s : State) : (clearErrors s).opts = s.opts := rfl
@[simp] theorem clearErrors_phase (s : State) : (clearErrors s).phase = .idle := rfl
@[simp] theorem clearErrors_pending (s : State) : (clearErrors s).pending = s.pending := rfl
@[simp] theorem clearErrors_done (s : State) : (clearErrors s).done = s.done := rfl
@[simp] theorem clearErrors_err (s : State) : (clearErrors s).err = false := rfl
@[simp] theorem clearErrors_warn (s : State) : (clearErrors s).warn = false := rfl
@[simp] theorem clearErrors_buserr (s : State) : (clearErrors s).buserr = s.buserr := rfl
@[simp] theorem clearErrors_errcode (s : State) : (clearErrors s).errcode = .noError := rfl
@[simp] theorem clearErrors_errinfo (s : State) : (clearErrors s).errinfo = 0 := rfl
@[simp] theorem clearErrors_irqEn (s : State) : (clearErrors s).irqEn = s.irqEn := rfl
@[simp] theorem clearErrors_distinct (s : State) : (clearErrors s).distinct = s.distinct := rfl
@[simp] theorem clearErrors_offset (s : State) : (clearErrors s).offset = s.offset := rfl
@[simp] theorem clearErrors_hist (s : State) : (clearErrors s).hist = s.hist := rfl
@[simp] theorem clearErrors_lut (s : State) : (clearErrors s).lut = s.lut := rfl
@[simp] theorem clearErrors_pix (s : State) : (clearErrors s).pix = s.pix := rfl
@[simp] theorem clearErrors_gray (s : State) : (clearErrors s).gray = s.gray := rfl
@[simp] theorem clearErrors_bmp (s : State) : (clearErrors s).bmp = s.bmp := rfl
@[simp] theorem clearErrors_params (s : State) : (clearErrors s).params = s.params := rfl
@[simp] theorem clearErrors_draw (s : State) : (clearErrors s).draw = s.draw := rfl
@[simp] theorem clearErrors_inputs (s : State) : (clearErrors s).inputs = s.inputs := rfl
@[simp] theorem clearErrors_replies (s : State) : (clearErrors s).replies = s.replies := rfl

/-! ### A refused access sets BUSERR only (60_exceptions.md R150). -/

@[simp] theorem refuseAccess_width (s : State) : (refuseAccess s).width = s.width := rfl
@[simp] theorem refuseAccess_height (s : State) : (refuseAccess s).height = s.height := rfl
@[simp] theorem refuseAccess_canvasWidth (s : State) : (refuseAccess s).canvasWidth = s.canvasWidth := rfl
@[simp] theorem refuseAccess_opts (s : State) : (refuseAccess s).opts = s.opts := rfl
@[simp] theorem refuseAccess_phase (s : State) : (refuseAccess s).phase = s.phase := rfl
@[simp] theorem refuseAccess_pending (s : State) : (refuseAccess s).pending = s.pending := rfl
@[simp] theorem refuseAccess_done (s : State) : (refuseAccess s).done = s.done := rfl
@[simp] theorem refuseAccess_err (s : State) : (refuseAccess s).err = s.err := rfl
@[simp] theorem refuseAccess_warn (s : State) : (refuseAccess s).warn = s.warn := rfl
@[simp] theorem refuseAccess_buserr (s : State) : (refuseAccess s).buserr = true := rfl
@[simp] theorem refuseAccess_errcode (s : State) : (refuseAccess s).errcode = s.errcode := rfl
@[simp] theorem refuseAccess_errinfo (s : State) : (refuseAccess s).errinfo = s.errinfo := rfl
@[simp] theorem refuseAccess_irqEn (s : State) : (refuseAccess s).irqEn = s.irqEn := rfl
@[simp] theorem refuseAccess_distinct (s : State) : (refuseAccess s).distinct = s.distinct := rfl
@[simp] theorem refuseAccess_offset (s : State) : (refuseAccess s).offset = s.offset := rfl
@[simp] theorem refuseAccess_hist (s : State) : (refuseAccess s).hist = s.hist := rfl
@[simp] theorem refuseAccess_lut (s : State) : (refuseAccess s).lut = s.lut := rfl
@[simp] theorem refuseAccess_pix (s : State) : (refuseAccess s).pix = s.pix := rfl
@[simp] theorem refuseAccess_gray (s : State) : (refuseAccess s).gray = s.gray := rfl
@[simp] theorem refuseAccess_bmp (s : State) : (refuseAccess s).bmp = s.bmp := rfl
@[simp] theorem refuseAccess_params (s : State) : (refuseAccess s).params = s.params := rfl
@[simp] theorem refuseAccess_draw (s : State) : (refuseAccess s).draw = s.draw := rfl
@[simp] theorem refuseAccess_inputs (s : State) : (refuseAccess s).inputs = s.inputs := rfl
@[simp] theorem refuseAccess_replies (s : State) : (refuseAccess s).replies = s.replies := rfl

/-! ### A STATUS write touches DONE and BUSERR only (10_state.md R16). -/

@[simp] theorem writeStatus_width (d : Word) (s : State) : (writeStatus d s).width = s.width := rfl
@[simp] theorem writeStatus_height (d : Word) (s : State) : (writeStatus d s).height = s.height := rfl
@[simp] theorem writeStatus_canvasWidth (d : Word) (s : State) : (writeStatus d s).canvasWidth = s.canvasWidth := rfl
@[simp] theorem writeStatus_opts (d : Word) (s : State) : (writeStatus d s).opts = s.opts := rfl
@[simp] theorem writeStatus_phase (d : Word) (s : State) : (writeStatus d s).phase = s.phase := rfl
@[simp] theorem writeStatus_pending (d : Word) (s : State) : (writeStatus d s).pending = s.pending := rfl
@[simp] theorem writeStatus_done (d : Word) (s : State) :
    (writeStatus d s).done = if d.getLsbD 1 then false else s.done := rfl
@[simp] theorem writeStatus_err (d : Word) (s : State) : (writeStatus d s).err = s.err := rfl
@[simp] theorem writeStatus_warn (d : Word) (s : State) : (writeStatus d s).warn = s.warn := rfl
@[simp] theorem writeStatus_buserr (d : Word) (s : State) :
    (writeStatus d s).buserr = if d.getLsbD 4 then false else s.buserr := rfl
@[simp] theorem writeStatus_errcode (d : Word) (s : State) : (writeStatus d s).errcode = s.errcode := rfl
@[simp] theorem writeStatus_errinfo (d : Word) (s : State) : (writeStatus d s).errinfo = s.errinfo := rfl
@[simp] theorem writeStatus_irqEn (d : Word) (s : State) : (writeStatus d s).irqEn = s.irqEn := rfl
@[simp] theorem writeStatus_distinct (d : Word) (s : State) : (writeStatus d s).distinct = s.distinct := rfl
@[simp] theorem writeStatus_offset (d : Word) (s : State) : (writeStatus d s).offset = s.offset := rfl
@[simp] theorem writeStatus_hist (d : Word) (s : State) : (writeStatus d s).hist = s.hist := rfl
@[simp] theorem writeStatus_lut (d : Word) (s : State) : (writeStatus d s).lut = s.lut := rfl
@[simp] theorem writeStatus_pix (d : Word) (s : State) : (writeStatus d s).pix = s.pix := rfl
@[simp] theorem writeStatus_gray (d : Word) (s : State) : (writeStatus d s).gray = s.gray := rfl
@[simp] theorem writeStatus_bmp (d : Word) (s : State) : (writeStatus d s).bmp = s.bmp := rfl
@[simp] theorem writeStatus_params (d : Word) (s : State) : (writeStatus d s).params = s.params := rfl
@[simp] theorem writeStatus_draw (d : Word) (s : State) : (writeStatus d s).draw = s.draw := rfl
@[simp] theorem writeStatus_inputs (d : Word) (s : State) : (writeStatus d s).inputs = s.inputs := rfl
@[simp] theorem writeStatus_replies (d : Word) (s : State) : (writeStatus d s).replies = s.replies := rfl

/-! ### Reset puts every register at its reset value and keeps PIX (70_reset_and_hazards.md R170). -/

@[simp] theorem applyReset_width (s : State) : (applyReset s).width = 0 := rfl
@[simp] theorem applyReset_height (s : State) : (applyReset s).height = 0 := rfl
@[simp] theorem applyReset_canvasWidth (s : State) : (applyReset s).canvasWidth = 512 := rfl
@[simp] theorem applyReset_opts (s : State) : (applyReset s).opts = 0 := rfl
@[simp] theorem applyReset_phase (s : State) : (applyReset s).phase = .idle := rfl
@[simp] theorem applyReset_pending (s : State) : (applyReset s).pending = none := rfl
@[simp] theorem applyReset_done (s : State) : (applyReset s).done = false := rfl
@[simp] theorem applyReset_err (s : State) : (applyReset s).err = false := rfl
@[simp] theorem applyReset_warn (s : State) : (applyReset s).warn = false := rfl
@[simp] theorem applyReset_buserr (s : State) : (applyReset s).buserr = false := rfl
@[simp] theorem applyReset_errcode (s : State) : (applyReset s).errcode = .noError := rfl
@[simp] theorem applyReset_errinfo (s : State) : (applyReset s).errinfo = 0 := rfl
@[simp] theorem applyReset_irqEn (s : State) : (applyReset s).irqEn = 0 := rfl
@[simp] theorem applyReset_distinct (s : State) : (applyReset s).distinct = 0 := rfl
@[simp] theorem applyReset_offset (s : State) : (applyReset s).offset = 0 := rfl
@[simp] theorem applyReset_hist (s : State) : (applyReset s).hist = if s.busy then [] else s.hist := rfl
@[simp] theorem applyReset_lut (s : State) : (applyReset s).lut = if s.busy then [] else s.lut := rfl
@[simp] theorem applyReset_pix (s : State) : (applyReset s).pix = s.pix := rfl
@[simp] theorem applyReset_gray (s : State) : (applyReset s).gray = if s.busy then [] else s.gray := rfl
@[simp] theorem applyReset_bmp (s : State) : (applyReset s).bmp = if s.busy then [] else s.bmp := rfl
@[simp] theorem applyReset_params (s : State) : (applyReset s).params = s.params := rfl
@[simp] theorem applyReset_draw (s : State) : (applyReset s).draw = if s.busy then s.draw + 1 else s.draw := rfl
@[simp] theorem applyReset_inputs (s : State) : (applyReset s).inputs = s.inputs := rfl
@[simp] theorem applyReset_replies (s : State) : (applyReset s).replies = s.replies := rfl

/-! ### The body of LUM writes GRAY, HIST, DISTINCT, WARN and PHASE only (41_luminance.md R70). -/

@[simp] theorem lumBody_width (s : State) : (lumBody s).width = s.width := rfl
@[simp] theorem lumBody_height (s : State) : (lumBody s).height = s.height := rfl
@[simp] theorem lumBody_canvasWidth (s : State) : (lumBody s).canvasWidth = s.canvasWidth := rfl
@[simp] theorem lumBody_opts (s : State) : (lumBody s).opts = s.opts := rfl
@[simp] theorem lumBody_phase (s : State) : (lumBody s).phase = .lumd := rfl
@[simp] theorem lumBody_pending (s : State) : (lumBody s).pending = s.pending := rfl
@[simp] theorem lumBody_done (s : State) : (lumBody s).done = s.done := rfl
@[simp] theorem lumBody_err (s : State) : (lumBody s).err = s.err := rfl
@[simp] theorem lumBody_warn (s : State) :
    (lumBody s).warn = advisory s.photo (distinctLevels s.draw (histogram s.draw s.n (lumaOf s))) := rfl
@[simp] theorem lumBody_buserr (s : State) : (lumBody s).buserr = s.buserr := rfl
@[simp] theorem lumBody_errcode (s : State) : (lumBody s).errcode = s.errcode := rfl
@[simp] theorem lumBody_errinfo (s : State) : (lumBody s).errinfo = s.errinfo := rfl
@[simp] theorem lumBody_irqEn (s : State) : (lumBody s).irqEn = s.irqEn := rfl
@[simp] theorem lumBody_distinct (s : State) :
    (lumBody s).distinct = BitVec.ofNat 9 (distinctLevels s.draw (histogram s.draw s.n (lumaOf s))) := rfl
@[simp] theorem lumBody_offset (s : State) : (lumBody s).offset = s.offset := rfl
@[simp] theorem lumBody_hist (s : State) : (lumBody s).hist = histogram s.draw s.n (lumaOf s) := rfl
@[simp] theorem lumBody_lut (s : State) : (lumBody s).lut = s.lut := rfl
@[simp] theorem lumBody_pix (s : State) : (lumBody s).pix = s.pix := rfl
@[simp] theorem lumBody_gray (s : State) : (lumBody s).gray = Memory.overwrite s.gray s.n (lumaOf s) := rfl
@[simp] theorem lumBody_bmp (s : State) : (lumBody s).bmp = s.bmp := rfl
@[simp] theorem lumBody_params (s : State) : (lumBody s).params = s.params := rfl
@[simp] theorem lumBody_draw (s : State) : (lumBody s).draw = s.draw := rfl
@[simp] theorem lumBody_inputs (s : State) : (lumBody s).inputs = s.inputs := rfl
@[simp] theorem lumBody_replies (s : State) : (lumBody s).replies = s.replies := rfl

/-! ### The body of EQ writes LUT, GRAY and PHASE only (42_tone_mapper.md R80). -/

@[simp] theorem eqBody_width (s : State) : (eqBody s).width = s.width := rfl
@[simp] theorem eqBody_height (s : State) : (eqBody s).height = s.height := rfl
@[simp] theorem eqBody_canvasWidth (s : State) : (eqBody s).canvasWidth = s.canvasWidth := rfl
@[simp] theorem eqBody_opts (s : State) : (eqBody s).opts = s.opts := rfl
@[simp] theorem eqBody_phase (s : State) : (eqBody s).phase = .eqd := rfl
@[simp] theorem eqBody_pending (s : State) : (eqBody s).pending = s.pending := rfl
@[simp] theorem eqBody_done (s : State) : (eqBody s).done = s.done := rfl
@[simp] theorem eqBody_err (s : State) : (eqBody s).err = s.err := rfl
@[simp] theorem eqBody_warn (s : State) : (eqBody s).warn = s.warn := rfl
@[simp] theorem eqBody_buserr (s : State) : (eqBody s).buserr = s.buserr := rfl
@[simp] theorem eqBody_errcode (s : State) : (eqBody s).errcode = s.errcode := rfl
@[simp] theorem eqBody_errinfo (s : State) : (eqBody s).errinfo = s.errinfo := rfl
@[simp] theorem eqBody_irqEn (s : State) : (eqBody s).irqEn = s.irqEn := rfl
@[simp] theorem eqBody_distinct (s : State) : (eqBody s).distinct = s.distinct := rfl
@[simp] theorem eqBody_offset (s : State) : (eqBody s).offset = s.offset := rfl
@[simp] theorem eqBody_hist (s : State) : (eqBody s).hist = s.hist := rfl
@[simp] theorem eqBody_lut (s : State) : (eqBody s).lut = lutTable s := rfl
@[simp] theorem eqBody_pix (s : State) : (eqBody s).pix = s.pix := rfl
@[simp] theorem eqBody_gray (s : State) :
    (eqBody s).gray = Memory.overwrite s.gray s.n fun i => readByte .lut s.draw (lutTable s) (s.grayAt i).toNat := rfl
@[simp] theorem eqBody_bmp (s : State) : (eqBody s).bmp = s.bmp := rfl
@[simp] theorem eqBody_params (s : State) : (eqBody s).params = s.params := rfl
@[simp] theorem eqBody_draw (s : State) : (eqBody s).draw = s.draw := rfl
@[simp] theorem eqBody_inputs (s : State) : (eqBody s).inputs = s.inputs := rfl
@[simp] theorem eqBody_replies (s : State) : (eqBody s).replies = s.replies := rfl

/-! ### The body of DTH writes GRAY and PHASE only (43_disperser.md R90). -/

@[simp] theorem dthBody_width (s : State) : (dthBody s).width = s.width := rfl
@[simp] theorem dthBody_height (s : State) : (dthBody s).height = s.height := rfl
@[simp] theorem dthBody_canvasWidth (s : State) : (dthBody s).canvasWidth = s.canvasWidth := rfl
@[simp] theorem dthBody_opts (s : State) : (dthBody s).opts = s.opts := rfl
@[simp] theorem dthBody_phase (s : State) : (dthBody s).phase = .dthd := rfl
@[simp] theorem dthBody_pending (s : State) : (dthBody s).pending = s.pending := rfl
@[simp] theorem dthBody_done (s : State) : (dthBody s).done = s.done := rfl
@[simp] theorem dthBody_err (s : State) : (dthBody s).err = s.err := rfl
@[simp] theorem dthBody_warn (s : State) : (dthBody s).warn = s.warn := rfl
@[simp] theorem dthBody_buserr (s : State) : (dthBody s).buserr = s.buserr := rfl
@[simp] theorem dthBody_errcode (s : State) : (dthBody s).errcode = s.errcode := rfl
@[simp] theorem dthBody_errinfo (s : State) : (dthBody s).errinfo = s.errinfo := rfl
@[simp] theorem dthBody_irqEn (s : State) : (dthBody s).irqEn = s.irqEn := rfl
@[simp] theorem dthBody_distinct (s : State) : (dthBody s).distinct = s.distinct := rfl
@[simp] theorem dthBody_offset (s : State) : (dthBody s).offset = s.offset := rfl
@[simp] theorem dthBody_hist (s : State) : (dthBody s).hist = s.hist := rfl
@[simp] theorem dthBody_lut (s : State) : (dthBody s).lut = s.lut := rfl
@[simp] theorem dthBody_pix (s : State) : (dthBody s).pix = s.pix := rfl
@[simp] theorem dthBody_gray (s : State) : (dthBody s).gray = disperse s.draw s.w s.h s.gray := rfl
@[simp] theorem dthBody_bmp (s : State) : (dthBody s).bmp = s.bmp := rfl
@[simp] theorem dthBody_params (s : State) : (dthBody s).params = s.params := rfl
@[simp] theorem dthBody_draw (s : State) : (dthBody s).draw = s.draw := rfl
@[simp] theorem dthBody_inputs (s : State) : (dthBody s).inputs = s.inputs := rfl
@[simp] theorem dthBody_replies (s : State) : (dthBody s).replies = s.replies := rfl

/-! ### The body of PACK writes BMP, OFFSET and PHASE only (44_canvas_compositor.md R100). -/

@[simp] theorem packBody_width (s : State) : (packBody s).width = s.width := rfl
@[simp] theorem packBody_height (s : State) : (packBody s).height = s.height := rfl
@[simp] theorem packBody_canvasWidth (s : State) : (packBody s).canvasWidth = s.canvasWidth := rfl
@[simp] theorem packBody_opts (s : State) : (packBody s).opts = s.opts := rfl
@[simp] theorem packBody_phase (s : State) : (packBody s).phase = .packd := rfl
@[simp] theorem packBody_pending (s : State) : (packBody s).pending = s.pending := rfl
@[simp] theorem packBody_done (s : State) : (packBody s).done = s.done := rfl
@[simp] theorem packBody_err (s : State) : (packBody s).err = s.err := rfl
@[simp] theorem packBody_warn (s : State) : (packBody s).warn = s.warn := rfl
@[simp] theorem packBody_buserr (s : State) : (packBody s).buserr = s.buserr := rfl
@[simp] theorem packBody_errcode (s : State) : (packBody s).errcode = s.errcode := rfl
@[simp] theorem packBody_errinfo (s : State) : (packBody s).errinfo = s.errinfo := rfl
@[simp] theorem packBody_irqEn (s : State) : (packBody s).irqEn = s.irqEn := rfl
@[simp] theorem packBody_distinct (s : State) : (packBody s).distinct = s.distinct := rfl
@[simp] theorem packBody_offset (s : State) :
    (packBody s).offset = BitVec.ofNat 32 (canvasOffset s.wc s.w s.align s.rotate) := rfl
@[simp] theorem packBody_hist (s : State) : (packBody s).hist = s.hist := rfl
@[simp] theorem packBody_lut (s : State) : (packBody s).lut = s.lut := rfl
@[simp] theorem packBody_pix (s : State) : (packBody s).pix = s.pix := rfl
@[simp] theorem packBody_gray (s : State) : (packBody s).gray = s.gray := rfl
@[simp] theorem packBody_bmp (s : State) : (packBody s).bmp = packed s (canvasOffset s.wc s.w s.align s.rotate) := rfl
@[simp] theorem packBody_params (s : State) : (packBody s).params = s.params := rfl
@[simp] theorem packBody_draw (s : State) : (packBody s).draw = s.draw := rfl
@[simp] theorem packBody_inputs (s : State) : (packBody s).inputs = s.inputs := rfl
@[simp] theorem packBody_replies (s : State) : (packBody s).replies = s.replies := rfl

end Sys2Proof.Machine
end

