-- ==== Sys2Proof/Laws/Bus.lean ====
section
/-!
SUPPORT. What a Host access can do, said once for reads and once for writes (20_memory.md R42, R43).
-/

namespace Sys2Proof.Machine

/-- A read changes nothing, or is refused (20_memory.md R42). -/
theorem memRead_state (space : Space) (addr n : Nat) (s : State) :
    (memRead space addr n s).2 = s ∨ (memRead space addr n s).2 = refuseAccess s := by
  unfold memRead
  split
  · cases space
    case reg => cases regAt addr <;> simp
    all_goals simp
  · simp

/-- What a register write can do. -/
theorem regWrite_cases (r : RegName) (d : Word) (s : State) :
    regWrite r d s = refuseAccess s ∨ regWrite r d s = issue d s ∨ regWrite r d s = writeStatus d s ∨
      (∃ e, regWrite r d s = { s with irqEn := e }) ∨
      (s.phase = .idle ∧ ((∃ v, regWrite r d s = { s with width := v }) ∨
        (∃ v, regWrite r d s = { s with height := v }) ∨ (∃ v, regWrite r d s = { s with canvasWidth := v }) ∨
        ∃ v, regWrite r d s = { s with opts := v })) := by
  cases r <;> simp only [regWrite, lockedWrite]
  case id => exact .inl trivial
  case errcode => exact .inl trivial
  case errinfo => exact .inl trivial
  case distinct => exact .inl trivial
  case offset => exact .inl trivial
  case cmd => exact .inr (.inl trivial)
  case status => exact .inr (.inr (.inl trivial))
  case irqEn => exact .inr (.inr (.inr (.inl ⟨_, rfl⟩)))
  case width =>
    by_cases h : s.phase = .idle
    · rw [if_pos h]; exact .inr (.inr (.inr (.inr ⟨h, .inl ⟨_, rfl⟩⟩)))
    · rw [if_neg h]; exact .inl rfl
  case height =>
    by_cases h : s.phase = .idle
    · rw [if_pos h]; exact .inr (.inr (.inr (.inr ⟨h, .inr (.inl ⟨_, rfl⟩)⟩)))
    · rw [if_neg h]; exact .inl rfl
  case canvasWidth =>
    by_cases h : s.phase = .idle
    · rw [if_pos h]; exact .inr (.inr (.inr (.inr ⟨h, .inr (.inr (.inl ⟨_, rfl⟩))⟩)))
    · rw [if_neg h]; exact .inl rfl
  case opts =>
    by_cases h : s.phase = .idle
    · rw [if_pos h]; exact .inr (.inr (.inr (.inr ⟨h, .inr (.inr (.inr ⟨_, rfl⟩))⟩)))
    · rw [if_neg h]; exact .inl rfl

/-- The legality conditions (a), (b), (c) in the machine are those of 20_memory.md R42. -/
theorem accessOk_iff (s : State) (space : Space) (addr n : Nat) :
    accessOk s.params space addr n = true ↔ inRange s space addr n := by
  unfold accessOk inRange sizeAdmitted
  rw [Bool.and_eq_true, Bool.and_eq_true, decide_eq_true_eq, decide_eq_true_eq, and_assoc]
  cases space <;> simp [admitsSize, extent, spaceBytes, or_assoc]

/-- A legal write to PIX keeps its canonical form (20_memory.md R43). -/
theorem pixStore_wf {e : Nat} (m : Memory Byte) (addr n : Nat) (v : Word) (h : addr + n ≤ e)
    (hm : Memory.wf e m = true) : Memory.wf e (pixStore m addr n v) = true := by
  unfold pixStore
  exact Memory.wf_foldl _ _ (fun m j hj hm => Memory.wf_store _ (by have := List.mem_range.mp hj; omega) hm) _ hm

theorem pixStore_read (d : Nat) (m : Memory Byte) (addr n : Nat) (v : Word) (k : Nat) :
    readByte .pix d (pixStore m addr n v) k =
      if addr ≤ k ∧ k < addr + n then v.extractLsb' (8 * (k - addr)) 8 else readByte .pix d m k := by
  unfold pixStore
  induction n with
  | zero => rw [if_neg (by omega)]; rfl
  | succ n ih =>
    rw [List.range_succ, List.foldl_append]
    simp only [List.foldl_cons, List.foldl_nil]
    rw [readByte_store, ih]
    by_cases h : k = addr + n
    · rw [if_pos h, if_pos (by omega), h, Nat.add_sub_cancel_left]
    · rw [if_neg h]
      by_cases h2 : addr ≤ k ∧ k < addr + n
      · rw [if_pos h2, if_pos (by omega)]
      · rw [if_neg h2, if_neg (by omega)]

/-- What a write can do: it is refused, it does what its register does, or it stores into PIX inside the extent. -/
theorem memWrite_cases (space : Space) (addr n : Nat) (v : Word) (s : State) :
    memWrite space addr n v s = refuseAccess s ∨
      (∃ r, space = .reg ∧ n = 4 ∧ regAt addr = some r ∧ memWrite space addr n v s = regWrite r v s) ∨
      (space = .pix ∧ addr + n ≤ 4 * s.params.nmax ∧
        memWrite space addr n v s = { s with pix := pixStore s.pix addr n v }) := by
  unfold memWrite
  split
  · rename_i h
    simp only [Bool.and_eq_true] at h
    have hr := (accessOk_iff s space addr n).mp h.1
    cases space
    case reg =>
      cases hreg : regAt addr with
      | none => exact .inl rfl
      | some r => exact .inr (.inl ⟨r, rfl, hr.1, rfl, by simp⟩)
    case pix => exact .inr (.inr ⟨rfl, hr.2.2, rfl⟩)
    all_goals exact .inl rfl
  · exact .inl rfl

/-- A Host access is a write's effect, or a read's, followed by at most one reply. -/
theorem hostAccess_cases (a : Access) (s : State) :
    (∃ space addr n v, a = .write space addr n v ∧ hostAccess a s = memWrite space addr n v s) ∨
      (∃ space addr n w, a = .read space addr n ∧
        (hostAccess a s = { s with replies := s.replies ++ [w] } ∨
          hostAccess a s = { refuseAccess s with replies := s.replies ++ [w] })) := by
  cases a with
  | write space addr n v => exact .inl ⟨_, _, _, _, rfl, rfl⟩
  | read space addr n =>
    refine .inr ⟨_, _, _, (memRead space addr n s).1, rfl, ?_⟩
    unfold hostAccess
    rcases memRead_state space addr n s with h | h
    · exact .inl (by simp only [h])
    · exact .inr (by simp only [h]; rfl)

end Sys2Proof.Machine
end

