-- ==== Sys2Proof/Laws/Operands.lean ====
section
/-!
SUPPORT. The operands and the memory reads of a state after each shared update that does not touch what they read:
each true by definition.
-/

namespace Sys2Proof.Machine

/-! ### issue -/

@[simp] theorem issue_w (w : Word) (s : State) : (issue w s).w = s.w := rfl
@[simp] theorem issue_h (w : Word) (s : State) : (issue w s).h = s.h := rfl
@[simp] theorem issue_wc (w : Word) (s : State) : (issue w s).wc = s.wc := rfl
@[simp] theorem issue_n (w : Word) (s : State) : (issue w s).n = s.n := rfl
@[simp] theorem issue_stride (w : Word) (s : State) : (issue w s).stride = s.stride := rfl
@[simp] theorem issue_photo (w : Word) (s : State) : (issue w s).photo = s.photo := rfl
@[simp] theorem issue_rotate (w : Word) (s : State) : (issue w s).rotate = s.rotate := rfl
@[simp] theorem issue_align (w : Word) (s : State) : (issue w s).align = s.align := rfl
@[simp] theorem issue_grayFits (w : Word) (s : State) : (issue w s).grayFits = s.grayFits := rfl
@[simp] theorem issue_canvasFits (w : Word) (s : State) : (issue w s).canvasFits = s.canvasFits := rfl
@[simp] theorem issue_pixAt (w : Word) (s : State) (a : Nat) : (issue w s).pixAt a = s.pixAt a := rfl
@[simp] theorem issue_grayAt (w : Word) (s : State) (a : Nat) : (issue w s).grayAt a = s.grayAt a := rfl
@[simp] theorem issue_bmpAt (w : Word) (s : State) (a : Nat) : (issue w s).bmpAt a = s.bmpAt a := rfl
@[simp] theorem issue_histAt (w : Word) (s : State) (a : Nat) : (issue w s).histAt a = s.histAt a := rfl
@[simp] theorem issue_lutAt (w : Word) (s : State) (a : Nat) : (issue w s).lutAt a = s.lutAt a := rfl

/-! ### retire -/

@[simp] theorem retire_w (s : State) : (retire s).w = s.w := rfl
@[simp] theorem retire_h (s : State) : (retire s).h = s.h := rfl
@[simp] theorem retire_wc (s : State) : (retire s).wc = s.wc := rfl
@[simp] theorem retire_n (s : State) : (retire s).n = s.n := rfl
@[simp] theorem retire_stride (s : State) : (retire s).stride = s.stride := rfl
@[simp] theorem retire_photo (s : State) : (retire s).photo = s.photo := rfl
@[simp] theorem retire_rotate (s : State) : (retire s).rotate = s.rotate := rfl
@[simp] theorem retire_align (s : State) : (retire s).align = s.align := rfl
@[simp] theorem retire_grayFits (s : State) : (retire s).grayFits = s.grayFits := rfl
@[simp] theorem retire_canvasFits (s : State) : (retire s).canvasFits = s.canvasFits := rfl
@[simp] theorem retire_pixAt (s : State) (a : Nat) : (retire s).pixAt a = s.pixAt a := rfl
@[simp] theorem retire_grayAt (s : State) (a : Nat) : (retire s).grayAt a = s.grayAt a := rfl
@[simp] theorem retire_bmpAt (s : State) (a : Nat) : (retire s).bmpAt a = s.bmpAt a := rfl
@[simp] theorem retire_histAt (s : State) (a : Nat) : (retire s).histAt a = s.histAt a := rfl
@[simp] theorem retire_lutAt (s : State) (a : Nat) : (retire s).lutAt a = s.lutAt a := rfl

/-! ### complete -/

@[simp] theorem complete_w (s : State) : (complete s).w = s.w := rfl
@[simp] theorem complete_h (s : State) : (complete s).h = s.h := rfl
@[simp] theorem complete_wc (s : State) : (complete s).wc = s.wc := rfl
@[simp] theorem complete_n (s : State) : (complete s).n = s.n := rfl
@[simp] theorem complete_stride (s : State) : (complete s).stride = s.stride := rfl
@[simp] theorem complete_photo (s : State) : (complete s).photo = s.photo := rfl
@[simp] theorem complete_rotate (s : State) : (complete s).rotate = s.rotate := rfl
@[simp] theorem complete_align (s : State) : (complete s).align = s.align := rfl
@[simp] theorem complete_grayFits (s : State) : (complete s).grayFits = s.grayFits := rfl
@[simp] theorem complete_canvasFits (s : State) : (complete s).canvasFits = s.canvasFits := rfl
@[simp] theorem complete_pixAt (s : State) (a : Nat) : (complete s).pixAt a = s.pixAt a := rfl
@[simp] theorem complete_grayAt (s : State) (a : Nat) : (complete s).grayAt a = s.grayAt a := rfl
@[simp] theorem complete_bmpAt (s : State) (a : Nat) : (complete s).bmpAt a = s.bmpAt a := rfl
@[simp] theorem complete_histAt (s : State) (a : Nat) : (complete s).histAt a = s.histAt a := rfl
@[simp] theorem complete_lutAt (s : State) (a : Nat) : (complete s).lutAt a = s.lutAt a := rfl

/-! ### raiseError -/

@[simp] theorem raiseError_w (e : ErrCode) (w : Word) (s : State) : (raiseError e w s).w = s.w := rfl
@[simp] theorem raiseError_h (e : ErrCode) (w : Word) (s : State) : (raiseError e w s).h = s.h := rfl
@[simp] theorem raiseError_wc (e : ErrCode) (w : Word) (s : State) : (raiseError e w s).wc = s.wc := rfl
@[simp] theorem raiseError_n (e : ErrCode) (w : Word) (s : State) : (raiseError e w s).n = s.n := rfl
@[simp] theorem raiseError_stride (e : ErrCode) (w : Word) (s : State) : (raiseError e w s).stride = s.stride := rfl
@[simp] theorem raiseError_photo (e : ErrCode) (w : Word) (s : State) : (raiseError e w s).photo = s.photo := rfl
@[simp] theorem raiseError_rotate (e : ErrCode) (w : Word) (s : State) : (raiseError e w s).rotate = s.rotate := rfl
@[simp] theorem raiseError_align (e : ErrCode) (w : Word) (s : State) : (raiseError e w s).align = s.align := rfl
@[simp] theorem raiseError_busy (e : ErrCode) (w : Word) (s : State) : (raiseError e w s).busy = s.busy := rfl
@[simp] theorem raiseError_grayFits (e : ErrCode) (w : Word) (s : State) : (raiseError e w s).grayFits = s.grayFits := rfl
@[simp] theorem raiseError_canvasFits (e : ErrCode) (w : Word) (s : State) : (raiseError e w s).canvasFits = s.canvasFits := rfl
@[simp] theorem raiseError_pixAt (e : ErrCode) (w : Word) (s : State) (a : Nat) : (raiseError e w s).pixAt a = s.pixAt a := rfl
@[simp] theorem raiseError_grayAt (e : ErrCode) (w : Word) (s : State) (a : Nat) : (raiseError e w s).grayAt a = s.grayAt a := rfl
@[simp] theorem raiseError_bmpAt (e : ErrCode) (w : Word) (s : State) (a : Nat) : (raiseError e w s).bmpAt a = s.bmpAt a := rfl
@[simp] theorem raiseError_histAt (e : ErrCode) (w : Word) (s : State) (a : Nat) : (raiseError e w s).histAt a = s.histAt a := rfl
@[simp] theorem raiseError_lutAt (e : ErrCode) (w : Word) (s : State) (a : Nat) : (raiseError e w s).lutAt a = s.lutAt a := rfl

/-! ### performError -/

@[simp] theorem performError_w (e : ErrCode) (w : Word) (s : State) : (performError e w s).w = s.w := rfl
@[simp] theorem performError_h (e : ErrCode) (w : Word) (s : State) : (performError e w s).h = s.h := rfl
@[simp] theorem performError_wc (e : ErrCode) (w : Word) (s : State) : (performError e w s).wc = s.wc := rfl
@[simp] theorem performError_n (e : ErrCode) (w : Word) (s : State) : (performError e w s).n = s.n := rfl
@[simp] theorem performError_stride (e : ErrCode) (w : Word) (s : State) : (performError e w s).stride = s.stride := rfl
@[simp] theorem performError_photo (e : ErrCode) (w : Word) (s : State) : (performError e w s).photo = s.photo := rfl
@[simp] theorem performError_rotate (e : ErrCode) (w : Word) (s : State) : (performError e w s).rotate = s.rotate := rfl
@[simp] theorem performError_align (e : ErrCode) (w : Word) (s : State) : (performError e w s).align = s.align := rfl
@[simp] theorem performError_grayFits (e : ErrCode) (w : Word) (s : State) : (performError e w s).grayFits = s.grayFits := rfl
@[simp] theorem performError_canvasFits (e : ErrCode) (w : Word) (s : State) : (performError e w s).canvasFits = s.canvasFits := rfl
@[simp] theorem performError_pixAt (e : ErrCode) (w : Word) (s : State) (a : Nat) : (performError e w s).pixAt a = s.pixAt a := rfl
@[simp] theorem performError_grayAt (e : ErrCode) (w : Word) (s : State) (a : Nat) : (performError e w s).grayAt a = s.grayAt a := rfl
@[simp] theorem performError_bmpAt (e : ErrCode) (w : Word) (s : State) (a : Nat) : (performError e w s).bmpAt a = s.bmpAt a := rfl
@[simp] theorem performError_histAt (e : ErrCode) (w : Word) (s : State) (a : Nat) : (performError e w s).histAt a = s.histAt a := rfl
@[simp] theorem performError_lutAt (e : ErrCode) (w : Word) (s : State) (a : Nat) : (performError e w s).lutAt a = s.lutAt a := rfl

/-! ### clearErrors -/

@[simp] theorem clearErrors_w (s : State) : (clearErrors s).w = s.w := rfl
@[simp] theorem clearErrors_h (s : State) : (clearErrors s).h = s.h := rfl
@[simp] theorem clearErrors_wc (s : State) : (clearErrors s).wc = s.wc := rfl
@[simp] theorem clearErrors_n (s : State) : (clearErrors s).n = s.n := rfl
@[simp] theorem clearErrors_stride (s : State) : (clearErrors s).stride = s.stride := rfl
@[simp] theorem clearErrors_photo (s : State) : (clearErrors s).photo = s.photo := rfl
@[simp] theorem clearErrors_rotate (s : State) : (clearErrors s).rotate = s.rotate := rfl
@[simp] theorem clearErrors_align (s : State) : (clearErrors s).align = s.align := rfl
@[simp] theorem clearErrors_busy (s : State) : (clearErrors s).busy = s.busy := rfl
@[simp] theorem clearErrors_grayFits (s : State) : (clearErrors s).grayFits = s.grayFits := rfl
@[simp] theorem clearErrors_canvasFits (s : State) : (clearErrors s).canvasFits = s.canvasFits := rfl
@[simp] theorem clearErrors_pixAt (s : State) (a : Nat) : (clearErrors s).pixAt a = s.pixAt a := rfl
@[simp] theorem clearErrors_grayAt (s : State) (a : Nat) : (clearErrors s).grayAt a = s.grayAt a := rfl
@[simp] theorem clearErrors_bmpAt (s : State) (a : Nat) : (clearErrors s).bmpAt a = s.bmpAt a := rfl
@[simp] theorem clearErrors_histAt (s : State) (a : Nat) : (clearErrors s).histAt a = s.histAt a := rfl
@[simp] theorem clearErrors_lutAt (s : State) (a : Nat) : (clearErrors s).lutAt a = s.lutAt a := rfl

/-! ### refuseAccess -/

@[simp] theorem refuseAccess_w (s : State) : (refuseAccess s).w = s.w := rfl
@[simp] theorem refuseAccess_h (s : State) : (refuseAccess s).h = s.h := rfl
@[simp] theorem refuseAccess_wc (s : State) : (refuseAccess s).wc = s.wc := rfl
@[simp] theorem refuseAccess_n (s : State) : (refuseAccess s).n = s.n := rfl
@[simp] theorem refuseAccess_stride (s : State) : (refuseAccess s).stride = s.stride := rfl
@[simp] theorem refuseAccess_photo (s : State) : (refuseAccess s).photo = s.photo := rfl
@[simp] theorem refuseAccess_rotate (s : State) : (refuseAccess s).rotate = s.rotate := rfl
@[simp] theorem refuseAccess_align (s : State) : (refuseAccess s).align = s.align := rfl
@[simp] theorem refuseAccess_busy (s : State) : (refuseAccess s).busy = s.busy := rfl
@[simp] theorem refuseAccess_grayFits (s : State) : (refuseAccess s).grayFits = s.grayFits := rfl
@[simp] theorem refuseAccess_canvasFits (s : State) : (refuseAccess s).canvasFits = s.canvasFits := rfl
@[simp] theorem refuseAccess_pixAt (s : State) (a : Nat) : (refuseAccess s).pixAt a = s.pixAt a := rfl
@[simp] theorem refuseAccess_grayAt (s : State) (a : Nat) : (refuseAccess s).grayAt a = s.grayAt a := rfl
@[simp] theorem refuseAccess_bmpAt (s : State) (a : Nat) : (refuseAccess s).bmpAt a = s.bmpAt a := rfl
@[simp] theorem refuseAccess_histAt (s : State) (a : Nat) : (refuseAccess s).histAt a = s.histAt a := rfl
@[simp] theorem refuseAccess_lutAt (s : State) (a : Nat) : (refuseAccess s).lutAt a = s.lutAt a := rfl

/-! ### writeStatus -/

@[simp] theorem writeStatus_w (d : Word) (s : State) : (writeStatus d s).w = s.w := rfl
@[simp] theorem writeStatus_h (d : Word) (s : State) : (writeStatus d s).h = s.h := rfl
@[simp] theorem writeStatus_wc (d : Word) (s : State) : (writeStatus d s).wc = s.wc := rfl
@[simp] theorem writeStatus_n (d : Word) (s : State) : (writeStatus d s).n = s.n := rfl
@[simp] theorem writeStatus_stride (d : Word) (s : State) : (writeStatus d s).stride = s.stride := rfl
@[simp] theorem writeStatus_photo (d : Word) (s : State) : (writeStatus d s).photo = s.photo := rfl
@[simp] theorem writeStatus_rotate (d : Word) (s : State) : (writeStatus d s).rotate = s.rotate := rfl
@[simp] theorem writeStatus_align (d : Word) (s : State) : (writeStatus d s).align = s.align := rfl
@[simp] theorem writeStatus_busy (d : Word) (s : State) : (writeStatus d s).busy = s.busy := rfl
@[simp] theorem writeStatus_grayFits (d : Word) (s : State) : (writeStatus d s).grayFits = s.grayFits := rfl
@[simp] theorem writeStatus_canvasFits (d : Word) (s : State) : (writeStatus d s).canvasFits = s.canvasFits := rfl
@[simp] theorem writeStatus_pixAt (d : Word) (s : State) (a : Nat) : (writeStatus d s).pixAt a = s.pixAt a := rfl
@[simp] theorem writeStatus_grayAt (d : Word) (s : State) (a : Nat) : (writeStatus d s).grayAt a = s.grayAt a := rfl
@[simp] theorem writeStatus_bmpAt (d : Word) (s : State) (a : Nat) : (writeStatus d s).bmpAt a = s.bmpAt a := rfl
@[simp] theorem writeStatus_histAt (d : Word) (s : State) (a : Nat) : (writeStatus d s).histAt a = s.histAt a := rfl
@[simp] theorem writeStatus_lutAt (d : Word) (s : State) (a : Nat) : (writeStatus d s).lutAt a = s.lutAt a := rfl

/-! ### applyReset -/

@[simp] theorem applyReset_pixAt (s : State) (a : Nat) : (applyReset s).pixAt a = s.pixAt a := rfl

/-! ### lumBody -/

@[simp] theorem lumBody_w (s : State) : (lumBody s).w = s.w := rfl
@[simp] theorem lumBody_h (s : State) : (lumBody s).h = s.h := rfl
@[simp] theorem lumBody_wc (s : State) : (lumBody s).wc = s.wc := rfl
@[simp] theorem lumBody_n (s : State) : (lumBody s).n = s.n := rfl
@[simp] theorem lumBody_stride (s : State) : (lumBody s).stride = s.stride := rfl
@[simp] theorem lumBody_photo (s : State) : (lumBody s).photo = s.photo := rfl
@[simp] theorem lumBody_rotate (s : State) : (lumBody s).rotate = s.rotate := rfl
@[simp] theorem lumBody_align (s : State) : (lumBody s).align = s.align := rfl
@[simp] theorem lumBody_busy (s : State) : (lumBody s).busy = s.busy := rfl
@[simp] theorem lumBody_grayFits (s : State) : (lumBody s).grayFits = s.grayFits := rfl
@[simp] theorem lumBody_canvasFits (s : State) : (lumBody s).canvasFits = s.canvasFits := rfl
@[simp] theorem lumBody_pixAt (s : State) (a : Nat) : (lumBody s).pixAt a = s.pixAt a := rfl
@[simp] theorem lumBody_bmpAt (s : State) (a : Nat) : (lumBody s).bmpAt a = s.bmpAt a := rfl
@[simp] theorem lumBody_lutAt (s : State) (a : Nat) : (lumBody s).lutAt a = s.lutAt a := rfl

/-! ### eqBody -/

@[simp] theorem eqBody_w (s : State) : (eqBody s).w = s.w := rfl
@[simp] theorem eqBody_h (s : State) : (eqBody s).h = s.h := rfl
@[simp] theorem eqBody_wc (s : State) : (eqBody s).wc = s.wc := rfl
@[simp] theorem eqBody_n (s : State) : (eqBody s).n = s.n := rfl
@[simp] theorem eqBody_stride (s : State) : (eqBody s).stride = s.stride := rfl
@[simp] theorem eqBody_photo (s : State) : (eqBody s).photo = s.photo := rfl
@[simp] theorem eqBody_rotate (s : State) : (eqBody s).rotate = s.rotate := rfl
@[simp] theorem eqBody_align (s : State) : (eqBody s).align = s.align := rfl
@[simp] theorem eqBody_busy (s : State) : (eqBody s).busy = s.busy := rfl
@[simp] theorem eqBody_grayFits (s : State) : (eqBody s).grayFits = s.grayFits := rfl
@[simp] theorem eqBody_canvasFits (s : State) : (eqBody s).canvasFits = s.canvasFits := rfl
@[simp] theorem eqBody_pixAt (s : State) (a : Nat) : (eqBody s).pixAt a = s.pixAt a := rfl
@[simp] theorem eqBody_bmpAt (s : State) (a : Nat) : (eqBody s).bmpAt a = s.bmpAt a := rfl
@[simp] theorem eqBody_histAt (s : State) (a : Nat) : (eqBody s).histAt a = s.histAt a := rfl

/-! ### dthBody -/

@[simp] theorem dthBody_w (s : State) : (dthBody s).w = s.w := rfl
@[simp] theorem dthBody_h (s : State) : (dthBody s).h = s.h := rfl
@[simp] theorem dthBody_wc (s : State) : (dthBody s).wc = s.wc := rfl
@[simp] theorem dthBody_n (s : State) : (dthBody s).n = s.n := rfl
@[simp] theorem dthBody_stride (s : State) : (dthBody s).stride = s.stride := rfl
@[simp] theorem dthBody_photo (s : State) : (dthBody s).photo = s.photo := rfl
@[simp] theorem dthBody_rotate (s : State) : (dthBody s).rotate = s.rotate := rfl
@[simp] theorem dthBody_align (s : State) : (dthBody s).align = s.align := rfl
@[simp] theorem dthBody_busy (s : State) : (dthBody s).busy = s.busy := rfl
@[simp] theorem dthBody_grayFits (s : State) : (dthBody s).grayFits = s.grayFits := rfl
@[simp] theorem dthBody_canvasFits (s : State) : (dthBody s).canvasFits = s.canvasFits := rfl
@[simp] theorem dthBody_pixAt (s : State) (a : Nat) : (dthBody s).pixAt a = s.pixAt a := rfl
@[simp] theorem dthBody_bmpAt (s : State) (a : Nat) : (dthBody s).bmpAt a = s.bmpAt a := rfl
@[simp] theorem dthBody_histAt (s : State) (a : Nat) : (dthBody s).histAt a = s.histAt a := rfl
@[simp] theorem dthBody_lutAt (s : State) (a : Nat) : (dthBody s).lutAt a = s.lutAt a := rfl

/-! ### packBody -/

@[simp] theorem packBody_w (s : State) : (packBody s).w = s.w := rfl
@[simp] theorem packBody_h (s : State) : (packBody s).h = s.h := rfl
@[simp] theorem packBody_wc (s : State) : (packBody s).wc = s.wc := rfl
@[simp] theorem packBody_n (s : State) : (packBody s).n = s.n := rfl
@[simp] theorem packBody_stride (s : State) : (packBody s).stride = s.stride := rfl
@[simp] theorem packBody_photo (s : State) : (packBody s).photo = s.photo := rfl
@[simp] theorem packBody_rotate (s : State) : (packBody s).rotate = s.rotate := rfl
@[simp] theorem packBody_align (s : State) : (packBody s).align = s.align := rfl
@[simp] theorem packBody_busy (s : State) : (packBody s).busy = s.busy := rfl
@[simp] theorem packBody_grayFits (s : State) : (packBody s).grayFits = s.grayFits := rfl
@[simp] theorem packBody_canvasFits (s : State) : (packBody s).canvasFits = s.canvasFits := rfl
@[simp] theorem packBody_pixAt (s : State) (a : Nat) : (packBody s).pixAt a = s.pixAt a := rfl
@[simp] theorem packBody_grayAt (s : State) (a : Nat) : (packBody s).grayAt a = s.grayAt a := rfl
@[simp] theorem packBody_histAt (s : State) (a : Nat) : (packBody s).histAt a = s.histAt a := rfl
@[simp] theorem packBody_lutAt (s : State) (a : Nat) : (packBody s).lutAt a = s.lutAt a := rfl

end Sys2Proof.Machine
end

