-- ==== Sys2Proof/Laws/Disperser.lean ====
section
/-!
SUPPORT. DTH: every tap points forward and stays in the image, so a pixel is final once visited, every pixel ends 0
or 255, nothing beyond the image is touched and the canonical form is kept (43_disperser.md R91 to R93).
-/

namespace Sys2Proof.Machine

/-- Every tap points to a pixel not yet visited (43_disperser.md R91). -/
theorem kernel_forward {t : Tap} (ht : t ∈ kernel) : 0 < t.dy ∨ (t.dy = 0 ∧ 0 < t.dx) := by
  have : ∀ t ∈ kernel, 0 < t.dy ∨ (t.dy = 0 ∧ 0 < t.dx) := by decide
  exact this t ht

/-- The target of a tap, as a column and a row of the image. -/
theorem tapTarget_eq_some {w h x y j : Nat} {t : Tap} :
    tapTarget w h x y t = some j ↔
      ∃ tx ty : Nat, tx < w ∧ ty < h ∧ (tx : Int) = x + t.dx ∧ ty = y + t.dy ∧ j = ty * w + tx := by
  unfold tapTarget
  dsimp only
  constructor
  · intro hj
    split at hj
    · simp at hj
    · rename_i hb
      refine ⟨(x + t.dx).toNat, y + t.dy, by omega, by omega, by omega, rfl, by simpa using hj.symm⟩
  · rintro ⟨tx, ty, h1, h2, h3, h4, rfl⟩
    rw [if_neg (by omega)]
    have : (x + t.dx).toNat = tx := by omega
    simp [this, h4]

theorem index_lt {w h x y : Nat} (hx : x < w) (hy : y < h) : y * w + x < w * h := by
  calc y * w + x < y * w + w := by omega
    _ = (y + 1) * w := by ring
    _ ≤ h * w := Nat.mul_le_mul_right w hy
    _ = w * h := Nat.mul_comm h w

theorem tapTarget_lt {w h x y j : Nat} {t : Tap} (hj : tapTarget w h x y t = some j) : j < w * h := by
  obtain ⟨tx, ty, h1, h2, _, _, rfl⟩ := tapTarget_eq_some.mp hj
  exact index_lt h1 h2

/-- A target lies after the visited pixel in the scan (43_disperser.md R92). -/
theorem tapTarget_gt {w h x y j : Nat} {t : Tap} (ht : t ∈ kernel) (hx : x < w)
    (hj : tapTarget w h x y t = some j) : y * w + x < j := by
  obtain ⟨tx, ty, h1, h2, h3, h4, rfl⟩ := tapTarget_eq_some.mp hj
  rcases kernel_forward ht with hd | ⟨hd, hdx⟩
  · have : (y + 1) * w ≤ ty * w := Nat.mul_le_mul_right w (by omega)
    have e : (y + 1) * w = y * w + w := by ring
    omega
  · have : ty = y := by omega
    subst this
    omega

theorem applyTap_wf {e draw w h x y : Nat} {r : Int} {m : Memory Byte} {t : Tap} (he : w * h ≤ e)
    (hm : Memory.wf e m = true) : Memory.wf e (applyTap draw w h x y r m t) = true := by
  unfold applyTap
  split
  · exact hm
  · rename_i j hj
    exact Memory.wf_store _ ((tapTarget_lt hj).trans_le he) hm

theorem visitPixel_wf {e draw w h i : Nat} {m : Memory Byte} (hi : i < w * h) (he : w * h ≤ e)
    (hm : Memory.wf e m = true) : Memory.wf e (visitPixel draw w h m i) = true := by
  unfold visitPixel
  exact Memory.wf_foldl _ _ (fun m t _ hm => applyTap_wf he hm) _ (Memory.wf_store _ (hi.trans_le he) hm)

/-- DTH keeps the canonical form of GRAY. -/
theorem disperse_wf {e draw w h : Nat} {m : Memory Byte} (he : w * h ≤ e) (hm : Memory.wf e m = true) :
    Memory.wf e (disperse draw w h m) = true :=
  Memory.wf_foldl _ _ (fun _ _ hi hm => visitPixel_wf (List.mem_range.mp hi) he hm) _ hm

/-- A fold that leaves one byte alone at every step leaves it alone. -/
theorem readByte_foldl {β : Type} {sp : Space} {d : Nat} (f : Memory Byte → β → Memory Byte) (l : List β) (j : Nat)
    (hf : ∀ m b, b ∈ l → readByte sp d (f m b) j = readByte sp d m j) (m : Memory Byte) :
    readByte sp d (l.foldl f m) j = readByte sp d m j := by
  induction l generalizing m with
  | nil => rfl
  | cons b l ih =>
    rw [List.foldl_cons, ih (fun m b' hb' => hf m b' (List.mem_cons_of_mem _ hb')), hf m b List.mem_cons_self]

/-- A visit leaves alone every pixel before the visited one, and quantises the visited one (43_disperser.md R92). -/
theorem visitPixel_read_le {draw w h i j : Nat} {m : Memory Byte} (hi : i < w * h) (hj : j ≤ i) :
    readByte .gray draw (visitPixel draw w h m i) j =
      if j = i then BitVec.ofNat 8 (quantise (readByte .gray draw m i).toNat) else readByte .gray draw m j := by
  have hw : 0 < w := by
    rcases Nat.eq_zero_or_pos w with h0 | h0
    · subst h0; simp at hi
    · exact h0
  unfold visitPixel
  rw [readByte_foldl, readByte_store]
  intro m t ht
  unfold applyTap
  split
  · rfl
  · rename_i k hk
    have := tapTarget_gt ht (Nat.mod_lt i hw) hk
    rw [Nat.div_add_mod' i w] at this
    rw [readByte_store, if_neg (by omega)]

/-- A visit touches nothing beyond the image (43_disperser.md R93). -/
theorem visitPixel_read_ge {draw w h i j : Nat} {m : Memory Byte} (hi : i < w * h) (hj : w * h ≤ j) :
    readByte .gray draw (visitPixel draw w h m i) j = readByte .gray draw m j := by
  unfold visitPixel
  rw [readByte_foldl, readByte_store, if_neg (by omega)]
  intro m t _
  unfold applyTap
  split
  · rfl
  · rename_i k hk
    have := tapTarget_lt hk
    rw [readByte_store, if_neg (by omega)]

theorem quantise_binary (o : Nat) : BitVec.ofNat 8 (quantise o) = 0#8 ∨ BitVec.ofNat 8 (quantise o) = 255#8 := by
  unfold quantise
  split
  · exact .inl rfl
  · exact .inr rfl

theorem visits_binary {draw w h : Nat} {m : Memory Byte} (n : Nat) (hn : n ≤ w * h) {j : Nat} (hj : j < n) :
    readByte .gray draw ((List.range n).foldl (visitPixel draw w h) m) j = 0#8 ∨
      readByte .gray draw ((List.range n).foldl (visitPixel draw w h) m) j = 255#8 := by
  induction n with
  | zero => omega
  | succ n ih =>
    rw [List.range_succ, List.foldl_append]
    simp only [List.foldl_cons, List.foldl_nil]
    rw [visitPixel_read_le (by omega) (by omega)]
    split
    · exact quantise_binary _
    · exact ih (by omega) (by omega)

/-- After DTH every pixel of the image is 0 or 255 (43_disperser.md R92). -/
theorem disperse_binary {draw w h : Nat} {m : Memory Byte} {j : Nat} (hj : j < w * h) :
    readByte .gray draw (disperse draw w h m) j = 0#8 ∨ readByte .gray draw (disperse draw w h m) j = 255#8 :=
  visits_binary (w * h) (le_refl _) hj

/-- DTH touches nothing beyond the image. -/
theorem disperse_read_ge {draw w h : Nat} {m : Memory Byte} {j : Nat} (hj : w * h ≤ j) :
    readByte .gray draw (disperse draw w h m) j = readByte .gray draw m j :=
  readByte_foldl _ _ _ (fun _ _ hi => visitPixel_read_ge (List.mem_range.mp hi) hj) _

/-- Storing keeps every element written. -/
theorem Memory.isSome_store {α : Type} {m : Memory α} {a b : Nat} {v : α} (h : (m.lookup b).isSome = true) :
    ((m.store a v).lookup b).isSome = true := by
  rw [Memory.lookup_store]
  split
  · rfl
  · exact h

theorem foldl_keeps {β γ : Type} {P : γ → Prop} (f : γ → β → γ) (l : List β)
    (hf : ∀ m b, P m → P (f m b)) (m : γ) (h : P m) : P (l.foldl f m) := by
  induction l generalizing m with
  | nil => exact h
  | cons b l ih => exact ih _ (hf m b h)

/-- DTH keeps every written element of GRAY written. -/
theorem disperse_written {draw w h : Nat} {m : Memory Byte} {j : Nat} (hm : (m.lookup j).isSome = true) :
    ((disperse draw w h m).lookup j).isSome = true := by
  unfold disperse
  refine foldl_keeps (P := fun m : Memory Byte => (m.lookup j).isSome = true) _ _ (fun m i hm => ?_) m hm
  unfold visitPixel
  refine foldl_keeps (P := fun m : Memory Byte => (m.lookup j).isSome = true) _ _ (fun m t hm => ?_) _
    (Memory.isSome_store hm)
  unfold applyTap
  split
  · exact hm
  · exact Memory.isSome_store hm

end Sys2Proof.Machine
end

