-- ==== Sys2Proof/Laws/Compositor.lean ====
section
/-!
SUPPORT. PACK: where the bit of a canvas dot lies, that different dots are different bits, and what the bitmap shows
after the pixels seen so far (44_canvas_compositor.md R101 to R105).
-/

namespace Sys2Proof.Machine

/-- The mask of a column has one bit, the leftmost pixel in bit 7 (44_canvas_compositor.md R104). -/
theorem columnMask_bit (cx b : Nat) (hb : b < 8) : (columnMask cx).getLsbD b = decide (b = 7 - cx % 8) := by
  unfold columnMask
  have hc : cx % 8 < 8 := Nat.mod_lt _ (by omega)
  generalize cx % 8 = c at hc
  have key : ∀ b : Fin 8, ∀ c : Fin 8, (0x80#8 >>> c.val).getLsbD b.val = decide (b.val = 7 - c.val) := by decide
  exact key ⟨b, hb⟩ ⟨c, hc⟩

/-- Row and column of a dot in bytes: (y × Wc + cx) div 8 = y × stride + cx div 8 (44_canvas_compositor.md R104). -/
theorem dotByte_eq {wc y cx : Nat} (h8 : wc % 8 = 0) : (y * wc + cx) / 8 = y * (wc / 8) + cx / 8 := by
  obtain ⟨q, hq⟩ : 8 ∣ wc := Nat.dvd_of_mod_eq_zero h8
  subst hq
  rw [Nat.mul_div_cancel_left q (by omega), show y * (8 * q) + cx = cx + 8 * (y * q) by ring,
    Nat.add_mul_div_left _ _ (by omega)]
  omega

/-- Two dots of the canvas share a byte and a bit only when they are the same dot. -/
theorem dot_injective {wc y cx y' cx' : Nat} (h8 : wc % 8 = 0) (h : cx < wc) (h' : cx' < wc)
    (hk : y * (wc / 8) + cx / 8 = y' * (wc / 8) + cx' / 8) (hb : cx % 8 = cx' % 8) : y = y' ∧ cx = cx' := by
  have e1 : cx / 8 < wc / 8 := by omega
  have e2 : cx' / 8 < wc / 8 := by omega
  have hy : y = y' := by
    have a : (y * (wc / 8) + cx / 8) / (wc / 8) = y := by
      rw [Nat.mul_comm, Nat.mul_add_div (by omega), Nat.div_eq_of_lt e1]; rfl
    have b : (y' * (wc / 8) + cx' / 8) / (wc / 8) = y' := by
      rw [Nat.mul_comm, Nat.mul_add_div (by omega), Nat.div_eq_of_lt e2]; rfl
    rw [hk] at a
    exact a.symm.trans b
  subst hy
  exact ⟨rfl, by omega⟩

/-- The byte of a dot lies in the bitmap. -/
theorem dotByte_lt {wc h y cx : Nat} (h8 : wc % 8 = 0) (hy : y < h) (hc : cx < wc) :
    y * (wc / 8) + cx / 8 < h * (wc / 8) := by
  have : cx / 8 < wc / 8 := by omega
  calc y * (wc / 8) + cx / 8 < y * (wc / 8) + wc / 8 := by omega
    _ = (y + 1) * (wc / 8) := by ring
    _ ≤ h * (wc / 8) := Nat.mul_le_mul_right _ hy

/-- The row of destination pixel `j` is a row of the image. -/
theorem pixelRow_lt {w h j : Nat} (hj : j < w * h) : j / w < h := Nat.div_lt_of_lt_mul hj

theorem pixelColumn_lt {w h j : Nat} (hj : j < w * h) : j % w < w := by
  rcases Nat.eq_zero_or_pos w with h0 | h0
  · subst h0; simp at hj
  · exact Nat.mod_lt _ h0

/-- What one ink pixel's turn does to the bit of a dot. -/
theorem packPixel_dot (s : State) {off j cx y : Nat} (m : Memory Byte) (h8 : s.wc % 8 = 0) (hoff : s.w + off ≤ s.wc)
    (hj : j < s.n) (hc : cx < s.wc) :
    (readByte .bmp s.draw (packPixel s off m j) (y * s.stride + cx / 8)).getLsbD (7 - cx % 8) =
      ((readByte .bmp s.draw m (y * s.stride + cx / 8)).getLsbD (7 - cx % 8) ||
        (isInk (s.grayAt (sourcePixel s.n s.rotate j)) && decide (j % s.w + off = cx ∧ j / s.w = y))) := by
  have hcol : j % s.w + off < s.wc := by
    have := pixelColumn_lt (w := s.w) (h := s.h) hj
    omega
  unfold packPixel
  by_cases hi : isInk (s.grayAt (sourcePixel s.n s.rotate j)) = true
  · simp only [hi, if_true, Bool.true_and]
    rw [dotByte_eq h8, readByte_store]
    change (if _ = j / s.w * s.stride + _ then _ else _ : Byte).getLsbD _ = _
    by_cases hk : y * s.stride + cx / 8 = j / s.w * s.stride + (j % s.w + off) / 8
    · rw [if_pos hk, BitVec.getLsbD_or, columnMask_bit _ _ (by omega), hk]
      congr 1
      rw [decide_eq_decide]
      constructor
      · intro hb
        have := dot_injective h8 hc hcol hk (by omega)
        exact ⟨this.2.symm, this.1.symm⟩
      · rintro ⟨h1, _⟩
        rw [h1]
    · rw [if_neg hk]
      have : ¬(j % s.w + off = cx ∧ j / s.w = y) := by
        rintro ⟨h1, h2⟩
        exact hk (by rw [h1, h2])
      simp [this]
  · simp [Bool.not_eq_true _ ▸ hi]

/-- What the bitmap shows once the pixels 0 .. n − 1 have had their turn. -/
theorem packFold_dot (s : State) {off n cx y : Nat} (m : Memory Byte) (h8 : s.wc % 8 = 0) (hoff : s.w + off ≤ s.wc)
    (hn : n ≤ s.n) (hc : cx < s.wc) :
    (readByte .bmp s.draw ((List.range n).foldl (packPixel s off) m) (y * s.stride + cx / 8)).getLsbD (7 - cx % 8) =
      ((readByte .bmp s.draw m (y * s.stride + cx / 8)).getLsbD (7 - cx % 8) ||
        (List.range n).any fun j =>
          isInk (s.grayAt (sourcePixel s.n s.rotate j)) && decide (j % s.w + off = cx ∧ j / s.w = y)) := by
  induction n with
  | zero => simp
  | succ n ih =>
    rw [List.range_succ, List.foldl_append, List.any_append]
    simp only [List.foldl_cons, List.foldl_nil, List.any_cons, List.any_nil, Bool.or_false]
    rw [packPixel_dot s _ h8 hoff (by omega) hc, ih (by omega), Bool.or_assoc]

/-- A dot of the packed bitmap is ink exactly when it lies on the placed image and its source pixel is ink
(44_canvas_compositor.md R105 item 1). -/
theorem packed_dot (s : State) {off cx y : Nat} (h8 : s.wc % 8 = 0) (hoff : s.w + off ≤ s.wc) (hc : cx < s.wc)
    (hy : y < s.h) :
    (readByte .bmp s.draw (packed s off) (y * s.stride + cx / 8)).getLsbD (7 - cx % 8) =
      decide (off ≤ cx ∧ cx < off + s.w ∧
        isInk (s.grayAt (sourcePixel s.n s.rotate (y * s.w + (cx - off)))) = true) := by
  unfold packed
  rw [packFold_dot s _ h8 hoff (le_refl _) hc, readByte_overwrite,
    if_pos (show y * s.stride + cx / 8 < s.h * s.stride from dotByte_lt h8 hy hc)]
  rw [show (0 : Byte) = 0#8 from rfl, BitVec.getLsbD_zero, Bool.false_or]
  rw [Bool.eq_iff_iff, List.any_eq_true, decide_eq_true_eq]
  constructor
  · rintro ⟨j, hj, hj'⟩
    have hj := List.mem_range.mp hj
    simp only [Bool.and_eq_true, decide_eq_true_eq] at hj'
    obtain ⟨h1, h2, h3⟩ := hj'
    have hw := pixelColumn_lt (w := s.w) (h := s.h) hj
    refine ⟨by omega, by omega, ?_⟩
    have : y * s.w + (cx - off) = j := by
      rw [← h2, ← h3, Nat.add_sub_cancel]
      exact Nat.div_add_mod' j s.w
    rw [this]; exact h1
  · rintro ⟨h1, h2, h3⟩
    have hx : cx - off < s.w := by omega
    refine ⟨y * s.w + (cx - off), List.mem_range.mpr (index_lt hx hy), ?_⟩
    simp only [Bool.and_eq_true, decide_eq_true_eq]
    refine ⟨h3, ?_, ?_⟩
    · rw [Nat.mul_comm, Nat.mul_add_mod, Nat.mod_eq_of_lt hx]; omega
    · rw [Nat.mul_comm, Nat.mul_add_div (by omega), Nat.div_eq_of_lt hx]; rfl

/-- The turn of a pixel touches nothing beyond the bitmap. -/
theorem packPixel_byte_lt (s : State) {off j : Nat} (h8 : s.wc % 8 = 0) (hoff : s.w + off ≤ s.wc) (hj : j < s.n) :
    (j / s.w * s.wc + (j % s.w + off)) / 8 < s.h * s.stride := by
  have := pixelColumn_lt (w := s.w) (h := s.h) hj
  rw [dotByte_eq h8]
  exact dotByte_lt h8 (pixelRow_lt hj) (by omega)

theorem packed_read_ge (s : State) {off k : Nat} (h8 : s.wc % 8 = 0) (hoff : s.w + off ≤ s.wc)
    (hk : s.h * s.stride ≤ k) : readByte .bmp s.draw (packed s off) k = s.bmpAt k := by
  unfold packed
  rw [readByte_foldl, readByte_overwrite, if_neg (by omega)]
  · rfl
  · intro m j hj
    have := packPixel_byte_lt s h8 hoff (List.mem_range.mp hj)
    unfold packPixel
    split
    · dsimp only
      rw [readByte_store, if_neg (by omega)]
    · rfl

/-- PACK keeps the canonical form of BMP. -/
theorem packed_wf (s : State) {e off : Nat} (h8 : s.wc % 8 = 0) (hoff : s.w + off ≤ s.wc)
    (he : s.h * s.stride ≤ e) (hm : Memory.wf e s.bmp = true) : Memory.wf e (packed s off) = true := by
  unfold packed
  refine Memory.wf_foldl _ _ (fun m j hj hm => ?_) _ (Memory.wf_overwrite _ he hm)
  have := packPixel_byte_lt s h8 hoff (List.mem_range.mp hj)
  unfold packPixel
  split
  · exact Memory.wf_store _ (by omega) hm
  · exact hm

/-- The image fits on the canvas at the offset of 44_canvas_compositor.md R101. -/
theorem canvasOffset_fits {wc w : Nat} (a : Align) (r : Bool) (h : w ≤ wc) : w + canvasOffset wc w a r ≤ wc := by
  unfold canvasOffset
  split <;> omega

/-- The machine's offset is the reading of 44_canvas_compositor.md R101. -/
theorem canvasOffset_eq_placedAt (s : State) : canvasOffset s.wc s.w s.align s.rotate = placedAt s := by
  unfold canvasOffset placedAt effectiveAlign
  cases s.align <;> cases s.rotate <;> rfl

/-- The machine's source pixel is the reading of 44_canvas_compositor.md R102: both axes reversed. -/
theorem sourcePixel_eq_sourceAt {s : State} {x y : Nat} (hx : x < s.w) (hy : y < s.h) :
    sourcePixel s.n s.rotate (y * s.w + x) = sourceAt s x y := by
  unfold sourcePixel sourceAt State.n
  split
  · obtain ⟨d, hd⟩ : ∃ d, s.h = y + 1 + d := ⟨s.h - 1 - y, by omega⟩
    rw [hd, show y + 1 + d - 1 - y = d by omega]
    have : s.w * (y + 1 + d) = d * s.w + s.w + y * s.w := by ring
    omega
  · rfl

end Sys2Proof.Machine
end

