-- ==== Sys2Proof/Laws/Sequencer.lean ====
section
/-!
SUPPORT. What a perform step can do, said once: a command is turned away (ignored in FAIL, or a command error), or it
executes its body and completes. Every later case analysis over commands cites these.
-/

namespace Sys2Proof.Machine

/-- The body of each command, as one function (45_sequencing_commands.md R111 "execute c"). -/
def bodyOf : Instr → State → State
  | .lum => lumBody
  | .eq => eqBody
  | .dth => dthBody
  | .pack => packBody
  | .run => runBody
  | .clr => clearErrors

/-- The conditions under which EQ, DTH and PACK fault instead of executing (log 9). -/
def engineFault (i : Instr) (s : State) : Option Fault :=
  match i with
  | .eq => if s.n = 0 then some .zeroPixels else if s.grayFits = false then some .grayOutOfRange else none
  | .dth => if s.grayFits = false then some .grayOutOfRange else none
  | .pack =>
    if s.grayFits = false then some .grayOutOfRange
    else if s.canvasFits = false then some .canvasOutOfRange else none
  | .lum => none
  | .run => none
  | .clr => none

/-- Every command has the one shape of 45_sequencing_commands.md R111. -/
theorem exec_eq (i : Instr) (s : State) :
    exec i s = match turnedAway i s with
      | some t => .next t
      | none => match engineFault i s with
        | some f => .fault f
        | none => .next (complete (bodyOf i s)) := by
  cases ht : turnedAway i s with
  | some t => cases i <;> simp only [exec, execLum, execEq, execDth, execPack, execRun, execClr, performWith, ht]
  | none =>
    cases i <;> simp only [exec, execLum, execEq, execDth, execPack, execRun, execClr, performWith, engineFault, bodyOf, ht]
    case eq => split_ifs <;> rfl
    case dth => split_ifs <;> rfl
    case pack => split_ifs <;> rfl

/-- A command that executes: it is legal, its start checks pass, and outside CLR the block is not in FAIL. -/
theorem turnedAway_eq_none {i : Instr} {s : State} :
    turnedAway i s = none ↔
      (s.phase = .fail → i = .clr) ∧ legal i s.phase s.photo = true ∧ checks i s = none := by
  unfold turnedAway
  split
  · rename_i h; simp [h.1, h.2]
  · rename_i h
    have h' : s.phase = .fail → i = .clr := fun hp => by_contra fun hc => h ⟨hp, hc⟩
    split
    · rename_i hl; simp [hl]
    · rename_i hl
      simp only [Option.map_eq_none_iff, Bool.eq_true_of_not_eq_false hl, true_and]
      exact ⟨fun hc => ⟨h', hc⟩, fun hc => hc.2⟩

/-- The start checks never answer "no error". -/
theorem startError_ne_noError {s : State} {e : ErrCode} (h : startError s = some e) : e ≠ .noError := by
  unfold startError at h
  repeat' split at h
  all_goals simp_all
  all_goals (subst h; decide)

theorem checks_ne_noError {i : Instr} {s : State} {e : ErrCode} (h : checks i s = some e) : e ≠ .noError := by
  cases i
  case lum => exact startError_ne_noError h
  case run => exact startError_ne_noError h
  all_goals simp [checks] at h

/-- A command that is turned away: ignored in FAIL, or it leaves the error record and nothing else. -/
theorem turnedAway_some {i : Instr} {s t : State} (h : turnedAway i s = some t) :
    (s.phase = .fail ∧ i ≠ .clr ∧ t = retire s) ∨
      (s.phase ≠ .fail ∧ i ≠ .clr ∧ ∃ e, e ≠ .noError ∧ t = performError e (encode i) s) := by
  unfold turnedAway at h
  split at h
  · rename_i hf
    exact .inl ⟨hf.1, hf.2, by simpa using h.symm⟩
  · rename_i hf
    have hi : i ≠ .clr := by
      rintro rfl
      simp [legal, checks] at h
    have hp : s.phase ≠ .fail := fun hp => hf ⟨hp, hi⟩
    split at h
    · exact .inr ⟨hp, hi, .eSeq, by decide, by simpa using h.symm⟩
    · obtain ⟨e, he, rfl⟩ := Option.map_eq_some_iff.mp h
      exact .inr ⟨hp, hi, e, checks_ne_noError he, rfl⟩

/-- What a perform step that answers a next state can do, said once. -/
theorem exec_next {i : Instr} {s t : State} (h : exec i s = .next t) :
    (s.phase = .fail ∧ i ≠ .clr ∧ t = retire s) ∨
      (s.phase ≠ .fail ∧ i ≠ .clr ∧ ∃ e, e ≠ .noError ∧ t = performError e (encode i) s) ∨
      (turnedAway i s = none ∧ engineFault i s = none ∧ t = complete (bodyOf i s)) := by
  rw [exec_eq] at h
  split at h
  · rename_i u hu
    obtain rfl : u = t := by simpa using h
    rcases turnedAway_some hu with h' | h'
    · exact .inl h'
    · exact .inr (.inl h')
  · rename_i hn
    split at h
    · simp at h
    · rename_i hf
      exact .inr (.inr ⟨hn, hf, by simpa using h.symm⟩)

/-- A command that executes completes with its body (45_sequencing_commands.md R117). -/
theorem exec_of_executes {i : Instr} {s : State} (h : turnedAway i s = none) (hf : engineFault i s = none) :
    exec i s = .next (complete (bodyOf i s)) := by
  rw [exec_eq, h]; simp only [hf]

/-- A command that is turned away leaves the state `turnedAway` gives. -/
theorem exec_of_turnedAway {i : Instr} {s t : State} (h : turnedAway i s = some t) : exec i s = .next t := by
  rw [exec_eq, h]

/-- The start checks pass exactly on the operands of 10_state.md R33 item 2. -/
theorem startError_eq_none {s : State} :
    startError s = none ↔ (1 ≤ s.w ∧ 1 ≤ s.h ∧ s.wc % 8 = 0) ∧ s.w ≤ s.wc ∧
      s.w * s.h ≤ s.params.nmax ∧ s.h * (s.wc / 8) ≤ s.params.bmax := by
  unfold startError
  constructor
  · intro h
    repeat' split at h
    all_goals simp_all
    omega
  · rintro ⟨⟨h1, h2, h3⟩, h4, h5, h6⟩
    rw [if_neg (by omega), if_neg (by omega), if_neg (by omega)]

end Sys2Proof.Machine
end

