-- ==== Sys2Proof/Laws/Step.lean ====
section
/-!
SUPPORT. What one step can do, said once: the Engine performs the pending command, the Engine has nothing to do, the
block is reset, or the Host's access has its step.
-/

namespace Sys2Proof.Machine

/-- The Engine's turn comes next, and `rest` are the inputs after it. -/
def EngineNext (s : State) (rest : List Input) : Prop :=
  (s.inputs = [] ∧ rest = []) ∨ s.inputs = .engine :: rest ∨
    (∃ a r, s.inputs = .access a :: r ∧ rest = s.inputs ∧ s.busy = true ∧ isStatusRead a = false)

/-- On the Engine's turn the step is the Engine's. -/
theorem step_of_engineNext {s : State} {rest : List Input} (h : EngineNext s rest) :
    step s = engineTurn { s with inputs := rest } := by
  unfold step turn
  rcases h with ⟨h, rfl⟩ | h | ⟨a, r, h, rfl, hb, ha⟩
  · rw [h]; dsimp only; rw [← h]
  · rw [h]
  · rw [h]; dsimp only; rw [hb, ha, ← h]; rfl

/-- Every state is in one of three cases: reset comes next, the Engine's turn does, or a Host access has its step. -/
theorem input_cases (s : State) :
    (∃ rest, s.inputs = .reset :: rest) ∨ (∃ rest, EngineNext s rest) ∨
      (∃ a rest, s.inputs = .access a :: rest ∧ (s.busy = false ∨ isStatusRead a = true)) := by
  cases hi : s.inputs with
  | nil => exact .inr (.inl ⟨[], .inl ⟨hi, rfl⟩⟩)
  | cons x rest =>
    cases x with
    | reset => exact .inl ⟨rest, rfl⟩
    | engine => exact .inr (.inl ⟨rest, .inr (.inl hi)⟩)
    | access a =>
      cases hb : s.busy
      · exact .inr (.inr ⟨a, rest, rfl, .inl rfl⟩)
      · cases ha : isStatusRead a
        · exact .inr (.inl ⟨s.inputs, .inr (.inr ⟨a, rest, hi, rfl, hb, ha⟩)⟩)
        · exact .inr (.inr ⟨a, rest, rfl, .inr ha⟩)

theorem step_of_reset {s : State} {rest : List Input} (h : s.inputs = .reset :: rest) :
    step s = .next (applyReset { s with inputs := rest }) := by
  unfold step turn
  rw [h]

theorem step_of_access {s : State} {a : Access} {rest : List Input} (h : s.inputs = .access a :: rest)
    (ha : s.busy = false ∨ isStatusRead a = true) :
    step s = .next (hostAccess a { s with inputs := rest }) := by
  unfold step turn
  rw [h]
  dsimp only
  rw [if_neg]
  rcases ha with ha | ha <;> simp [ha]

/-- On its turn the Engine performs the pending command. -/
theorem engineTurn_of_some {s : State} {w : Word} {rest : List Input} (h : s.pending = some w) :
    engineTurn { s with inputs := rest } = perform w { s with inputs := rest } := by
  unfold engineTurn
  dsimp only
  rw [h]

/-- On its turn with nothing pending the Engine does nothing. -/
theorem engineTurn_of_none {s : State} {rest : List Input} (h : s.pending = none) :
    engineTurn { s with inputs := rest } = .next { s with inputs := rest } := by
  unfold engineTurn
  dsimp only
  rw [h]

/-- What a perform step can do: the command's own step, or that of an illegal word. -/
theorem perform_cases (w : Word) (s : State) :
    (∃ i, decode w = .ok i ∧ perform w s = exec i s) ∨
      (∃ e, decode w = .error e ∧ perform w s = .next (performIllegal w s)) := by
  unfold perform
  cases h : decode w with
  | ok i => exact .inl ⟨i, rfl, rfl⟩
  | error e => exact .inr ⟨e, rfl, rfl⟩

/-- What a step that answers a next state can do, said once. -/
theorem step_next {s t : State} (h : step s = .next t) :
    (∃ rest, s.inputs = .reset :: rest ∧ t = applyReset { s with inputs := rest }) ∨
      (∃ rest, EngineNext s rest ∧ s.pending = none ∧ t = { s with inputs := rest }) ∨
      (∃ rest w i, EngineNext s rest ∧ s.pending = some w ∧ decode w = .ok i ∧
        exec i { s with inputs := rest } = .next t) ∨
      (∃ rest w e, EngineNext s rest ∧ s.pending = some w ∧ decode w = .error e ∧
        t = performIllegal w { s with inputs := rest }) ∨
      (∃ a rest, s.inputs = .access a :: rest ∧ (s.busy = false ∨ isStatusRead a = true) ∧
        t = hostAccess a { s with inputs := rest }) := by
  rcases input_cases s with ⟨rest, hr⟩ | ⟨rest, hr⟩ | ⟨a, rest, hr, ha⟩
  · rw [step_of_reset hr] at h
    exact .inl ⟨rest, hr, by simpa using h.symm⟩
  · rw [step_of_engineNext hr] at h
    rcases Option.eq_none_or_eq_some s.pending with hp | ⟨w, hp⟩
    · rw [engineTurn_of_none hp] at h
      exact .inr (.inl ⟨rest, hr, hp, by simpa using h.symm⟩)
    · rw [engineTurn_of_some hp] at h
      rcases perform_cases w { s with inputs := rest } with ⟨i, hd, he⟩ | ⟨e, hd, he⟩
      · exact .inr (.inr (.inl ⟨rest, w, i, hr, hp, hd, he ▸ h⟩))
      · rw [he] at h
        exact .inr (.inr (.inr (.inl ⟨rest, w, e, hr, hp, hd, by simpa using h.symm⟩)))
  · rw [step_of_access hr ha] at h
    exact .inr (.inr (.inr (.inr ⟨a, rest, hr, ha, by simpa using h.symm⟩)))

end Sys2Proof.Machine
end

