-- ==== Sys2Proof/Laws/Control.lean ====
section
/-!
SUPPORT. RUN as the composition of the stages, the start checks as the geometry of a conversion, and runs of several
steps.
-/

namespace Sys2Proof.Machine

/-- In photo mode RUN is LUM, EQ, DTH, PACK (45_sequencing_commands.md R114). -/
theorem runBody_photo {s : State} (h : s.photo = true) :
    runBody s = packBody (dthBody (eqBody (lumBody s))) := by
  unfold runBody
  dsimp only
  rw [if_pos h]

/-- Without photo mode RUN is LUM, PACK (45_sequencing_commands.md R114). -/
theorem runBody_noPhoto {s : State} (h : s.photo = false) : runBody s = packBody (lumBody s) := by
  unfold runBody
  dsimp only
  rw [if_neg (by simp [h])]

/-- The start checks pass exactly on the geometry of 10_state.md R33 item 2. -/
theorem startError_eq_none_iff {s : State} : startError s = none ↔ GeometryOk s := by
  rw [startError_eq_none]
  exact ⟨fun ⟨⟨a, b, c⟩, d, e, f⟩ => ⟨a, b, c, d, e, f⟩, fun ⟨a, b, c, d, e, f⟩ => ⟨⟨a, b, c⟩, d, e, f⟩⟩

/-- The geometry depends on the operand registers and the capacities only. -/
theorem GeometryOk.transfer {s t : State} (h : GeometryOk s) (h1 : t.width = s.width) (h2 : t.height = s.height)
    (h3 : t.canvasWidth = s.canvasWidth) (h4 : t.params = s.params) : GeometryOk t := by
  obtain ⟨a, b, c, d, e, f⟩ := h
  constructor <;> simp only [State.w, State.h, State.wc, h1, h2, h3, h4] <;> assumption

/-- Under the geometry of a conversion no command faults. -/
theorem engineFault_eq_none {s : State} (h : GeometryOk s) (i : Instr) : engineFault i s = none := by
  have hn : s.n ≠ 0 := Nat.ne_of_gt (Nat.mul_pos h.width_pos h.height_pos)
  have hg : s.grayFits = true := decide_eq_true h.gray_fits
  have hc : s.canvasFits = true := by
    unfold State.canvasFits State.stride
    simp [h.canvas_bytes, h.width_fits, h.bitmap_fits]
  cases i <;> simp [engineFault, hn, hg, hc]

theorem runSteps_succ {s t : State} {k : Nat} (h : step s = .next t) : runSteps (k + 1) s = runSteps k t := by
  rw [runSteps, h]

end Sys2Proof.Machine
end

