-- ==== Sys2Proof/Laws/HostDriver.lean ====
section
/-!
SUPPORT. What the Host's scripts do, said once: scripts in a row, one line against a quiescent block, a command with
its WAIT, the pixel load, the bitmap read, the clear.
-/

namespace Sys2Proof.Machine

@[simp] theorem thenDo_next {α β : Type} (a : α) (f : α → Host.Outcome β Fault Refusal) : thenDo (.next a) f = f a := rfl

theorem thenDo_assoc {α β γ : Type} (o : Host.Outcome α Fault Refusal) (f : α → Host.Outcome β Fault Refusal)
    (g : β → Host.Outcome γ Fault Refusal) : thenDo (thenDo o f) g = thenDo o fun a => thenDo (f a) g := by
  cases o <;> rfl

/-- A script in two parts. -/
theorem runScript_append (a b : List Input) (s : State) :
    runScript (a ++ b) s = thenDo (runScript a s) (runScript b) := by
  induction a generalizing s with
  | nil => rfl
  | cons i a ih =>
    simp only [List.cons_append, runScript]
    rw [thenDo_assoc]
    congr 1
    funext t
    exact ih t

/-- A register write leaves the inputs. -/
theorem regWrite_inputs (r : RegName) (d : Word) (s : State) : (regWrite r d s).inputs = s.inputs := by
  rcases regWrite_cases r d s with h | h | h | ⟨_, h⟩ | ⟨_, ⟨_, h⟩ | ⟨_, h⟩ | ⟨_, h⟩ | ⟨_, h⟩⟩ <;> rw [h] <;> rfl

/-- A Host access leaves the inputs. -/
theorem hostAccess_inputs (a : Access) (s : State) : (hostAccess a s).inputs = s.inputs := by
  rcases hostAccess_cases a s with ⟨sp, ad, n, v, _, h⟩ | ⟨_, _, _, _, _, h | h⟩ <;> rw [h]
  · rcases memWrite_cases sp ad n v s with h | ⟨q, _, _, _, h⟩ | ⟨_, _, h⟩ <;> rw [h]
    · rfl
    · exact regWrite_inputs q v s
  · rfl

/-- No command touches the inputs. -/
theorem exec_inputs {i : Instr} {s t : State} (h : exec i s = .next t) : t.inputs = s.inputs := by
  rcases exec_next h with ⟨_, _, rfl⟩ | ⟨_, _, e, _, rfl⟩ | ⟨_, _, rfl⟩
  · rfl
  · rfl
  · cases i <;> first | rfl | skip
    cases hp : s.photo
    · simp only [bodyOf]; rw [runBody_noPhoto hp]; rfl
    · simp only [bodyOf]; rw [runBody_photo hp]; rfl

/-- A line that is an access has its step at once against a quiescent block, and so does the read of STATUS while
BUSY = 1. -/
theorem feed_access {s : State} {a : Access} (h : s.pending = none ∨ isStatusRead a = true) :
    feed (.access a) s = .next (hostAccess a { s with inputs := [] }) := by
  unfold feed
  have hs : step { s with inputs := [.access a] } = .next (hostAccess a { s with inputs := [] }) := by
    refine step_of_access (s := { s with inputs := [.access a] }) rfl ?_
    rcases h with h | h
    · exact .inl (by simp [State.busy, h])
    · exact .inr h
  rw [hs, thenDo_next, if_pos (hostAccess_inputs a _)]

/-- A line that is the Engine's turn performs the pending command. -/
theorem feed_engine {s t : State} {i : Instr} (hp : s.pending = some (encode i))
    (h : exec i { s with inputs := [] } = .next t) : feed .engine s = .next t := by
  unfold feed
  have hd : decode (encode i) = .ok i := by cases i <;> rfl
  have hs : step { s with inputs := [.engine] } = .next t := by
    refine (step_of_engineNext (s := { s with inputs := [.engine] }) (rest := []) (.inr (.inl rfl))).trans ?_
    refine (engineTurn_of_some (s := { s with inputs := [.engine] }) (w := encode i) hp).trans ?_
    unfold perform
    rw [hd]
    exact h
  rw [hs, thenDo_next, if_pos ((exec_inputs h).trans rfl)]

/-- A read of STATUS that has its step. -/
theorem feed_status {s : State} :
    feed (rd .status) s = .next { s with inputs := [], replies := s.replies ++ [statusWord s] } := by
  refine (feed_access (.inr rfl)).trans ?_
  rfl

/-- `CMD i; WAIT` against a quiescent block: the command is performed, and STATUS is read after it. `words` are what
the polls before the Engine's turn have read. -/
theorem runScript_command {s : State} {i : Instr} (hp : s.pending = none) (polls : Nat) :
    ∃ words, ∀ t, exec i { s with pending := some (encode i), done := false, inputs := [], replies := words } = .next t →
      runScript (cmd i :: wait polls) s = .next { t with inputs := [], replies := t.replies ++ [statusWord t] } := by
  have hissue : feed (cmd i) s = .next { s with pending := some (encode i), done := false, inputs := [] } :=
    feed_access (.inl hp)
  have hpolls : ∀ (n : Nat) (u : State), u.inputs = [] →
      ∃ words, runScript (List.replicate n (rd .status)) u = .next { u with replies := words } := by
    intro n
    induction n with
    | zero => intro u hu; exact ⟨u.replies, rfl⟩
    | succ n ih =>
      intro u hu
      simp only [List.replicate_succ, runScript]
      rw [feed_status, thenDo_next]
      obtain ⟨words, hw⟩ := ih { u with inputs := [], replies := u.replies ++ [statusWord u] } rfl
      refine ⟨words, hw.trans ?_⟩
      rw [← hu]
  obtain ⟨words, hw⟩ := hpolls polls { s with pending := some (encode i), done := false, inputs := [] } rfl
  refine ⟨words, fun t ht => ?_⟩
  simp only [runScript, wait]
  rw [hissue, thenDo_next, runScript_append, hw, thenDo_next]
  simp only [runScript]
  rw [feed_engine rfl ht, thenDo_next, feed_status]
  rfl

@[simp] theorem emit_warning (room : Option Nat) (warning : Bool) (stream : Except FrameRefusal (List Byte))
    (block : State) : (emit room warning stream block).warning = warning := by
  unfold emit
  repeat' split
  all_goals rfl

@[simp] theorem emit_block (room : Option Nat) (warning : Bool) (stream : Except FrameRefusal (List Byte))
    (block : State) : (emit room warning stream block).block = block := by
  unfold emit
  repeat' split
  all_goals rfl

/-- The Host's view of ERR and WARN in the word read from STATUS (10_state.md R16). -/
theorem statusErr_statusWord (s : State) : statusErr (statusWord s) = s.err ∧ statusWarn (statusWord s) = s.warn := by
  unfold statusErr statusWarn statusWord
  generalize s.busy = b
  constructor <;> cases b <;> cases s.done <;> cases s.err <;> cases s.warn <;> cases s.buserr <;> cases s.phase <;>
    decide

/-- A script whose first line is an access against a quiescent block. -/
theorem runScript_access {a : Access} {rest : List Input} {s : State} (h : s.pending = none) :
    runScript (.access a :: rest) s = runScript rest (hostAccess a { s with inputs := [] }) := by
  simp only [runScript]
  rw [feed_access (.inl h)]
  rfl

/-- The bytes of a PIX word (20_memory.md R41). -/
theorem pixelWord_bytes (p : Pixel) :
    (pixelWord p).extractLsb' 0 8 = p.r ∧ (pixelWord p).extractLsb' 8 8 = p.g ∧
      (pixelWord p).extractLsb' 16 8 = p.b ∧ (pixelWord p).extractLsb' 24 8 = p.a := by
  unfold pixelWord
  refine ⟨?_, ?_, ?_, ?_⟩ <;>
    (apply BitVec.eq_of_getLsbD_eq
     intro i hi
     simp only [BitVec.getLsbD_extractLsb', BitVec.getLsbD_append]
     interval_cases i <;> rfl)

/-- LOADPIX from pixel `k` on: the pixels stand in PIX, every other byte and every other field is as before. -/
theorem runScript_loadPixFrom (ps : List Pixel) (k : Nat) (s : State) (hp : s.pending = none) (hi : s.inputs = [])
    (hk : k + ps.length ≤ s.params.nmax) :
    ∃ t, runScript (loadPixFrom k ps) s = .next t ∧ t = { s with pix := t.pix } ∧
      (∀ j px, ps[j]? = some px →
        t.pixAt (4 * (k + j)) = px.r ∧ t.pixAt (4 * (k + j) + 1) = px.g ∧
          t.pixAt (4 * (k + j) + 2) = px.b ∧ t.pixAt (4 * (k + j) + 3) = px.a) ∧
      ∀ a, a < 4 * k ∨ 4 * (k + ps.length) ≤ a → t.pixAt a = s.pixAt a := by
  induction ps generalizing k s with
  | nil => exact ⟨s, rfl, rfl, by simp, fun _ _ => rfl⟩
  | cons p ps ih =>
    simp only [List.length_cons] at hk
    let u : State := { s with pix := pixStore s.pix (4 * k) 4 (pixelWord p) }
    have hread (a : Nat) : u.pixAt a = if 4 * k ≤ a ∧ a < 4 * k + 4 then (pixelWord p).extractLsb' (8 * (a - 4 * k)) 8
        else s.pixAt a := pixStore_read 0 s.pix (4 * k) 4 (pixelWord p) a
    have hacc : hostAccess (.write .pix (4 * k) 4 (pixelWord p)) { s with inputs := [] } = u := by
      have hok : accessOk s.params .pix (4 * k) 4 = true :=
        (accessOk_iff s _ _ _).mpr ⟨by simp [sizeAdmitted], by omega, by simp [spaceBytes]; omega⟩
      simp only [hostAccess, memWrite, hok, hostWritable, Bool.and_self, if_true]
      rw [← hi]
    obtain ⟨t, hrun, hframe, hpix, hrest⟩ := ih (k + 1) u hp hi (by show k + 1 + ps.length ≤ s.params.nmax; omega)
    refine ⟨t, ?_, hframe, ?_, ?_⟩
    · simp only [loadPixFrom, wrm]
      rw [runScript_access hp, hacc]
      exact hrun
    · intro j px hj
      cases j with
      | zero =>
        obtain rfl : p = px := by simpa using hj
        have e := pixelWord_bytes p
        have hbyte : ∀ o, o < 4 → t.pixAt (4 * k + o) = (pixelWord p).extractLsb' (8 * o) 8 := by
          intro o ho
          rw [hrest _ (by omega), hread, if_pos (by omega)]
          simp
        exact ⟨(hbyte 0 (by omega)).trans e.1, (hbyte 1 (by omega)).trans e.2.1,
          (hbyte 2 (by omega)).trans e.2.2.1, (hbyte 3 (by omega)).trans e.2.2.2⟩
      | succ j =>
        have := hpix j px (by simpa using hj)
        rwa [show k + 1 + j = k + (j + 1) by omega] at this
    · intro a ha
      simp only [List.length_cons] at ha
      rw [hrest a (by omega), hread, if_neg (by omega)]

/-- One byte of BMP, read over the bus. -/
theorem hostAccess_bmpByte {s : State} {k : Nat} (hi : s.inputs = []) (hk : k < s.params.bmax) :
    hostAccess (.read .bmp k 1) { s with inputs := [] } = { s with replies := s.replies ++ [(s.bmpAt k).setWidth 32] } := by
  have hok : accessOk s.params .bmp k 1 = true :=
    (accessOk_iff s _ _ _).mpr ⟨by simp [sizeAdmitted], by omega, by simp [spaceBytes]; omega⟩
  simp only [hostAccess, memRead, hok, if_true]
  have hword : BitVec.ofNat 32 (spaceValue { s with inputs := [] } .bmp k 1) = (s.bmpAt k).setWidth 32 := by
    have hx : State.bmpAt { s with inputs := [] } = s.bmpAt := rfl
    simp only [spaceValue, spaceByte, hx, List.range_one, List.map_cons, List.map_nil, littleEndian, Nat.add_zero]
    apply BitVec.eq_of_toNat_eq
    simp
  rw [hword, ← hi]

/-- `RDM BMP, ...` over any bytes inside the extent: they are the words read, in order, and nothing else changes. -/
theorem runScript_bitmapBytes (l : List Nat) (s : State) (hp : s.pending = none) (hi : s.inputs = [])
    (hl : ∀ k ∈ l, k < s.params.bmax) :
    runScript (l.map fun k => rdm .bmp k 1) s =
      .next { s with replies := s.replies ++ l.map fun k => (s.bmpAt k).setWidth 32 } := by
  induction l generalizing s with
  | nil => simp [runScript]
  | cons k l ih =>
    simp only [List.map_cons, rdm]
    rw [runScript_access hp, hostAccess_bmpByte hi (hl k (by simp))]
    refine (ih { s with replies := s.replies ++ [(s.bmpAt k).setWidth 32] } hp hi
      (fun j hj => hl j (by simp [hj]))).trans ?_
    simp only [List.append_assoc, List.singleton_append]
    rfl

/-- `CMD CLR; WAIT` against a quiescent block, in any phase. -/
theorem runScript_clear (s : State) (hp : s.pending = none) (polls : Nat) :
    ∃ words, runScript (clearScript polls) s =
      .next { clearErrors s with done := true, inputs := [], replies := words } := by
  obtain ⟨w, hw⟩ := runScript_command (i := .clr) hp polls
  have he (u : State) : exec .clr u = .next (complete (clearErrors u)) := by
    rw [exec_of_executes]
    · rfl
    · rw [turnedAway_eq_none]
      simp [legal, checks]
    · rfl
  have h := hw _ (he _)
  cases s
  cases hp
  exact ⟨_, h⟩

/-- The Sink Writer's stream looks at no byte of the bitmap beyond H × stride. -/
theorem sinkStream_congr {f g : Nat → Byte} {wc h lmax : Nat} {cut : Bool}
    (hfg : ∀ k, k < h * (wc / 8) → f k = g k) : sinkStream f wc h lmax cut = sinkStream g wc h lmax cut := by
  have hb : (List.range (bandCount h lmax)).map (bandFrame f wc h lmax) =
      (List.range (bandCount h lmax)).map (bandFrame g wc h lmax) := by
    refine List.map_congr_left fun b _ => ?_
    unfold bandFrame storeCommand
    dsimp only
    congr 2
    refine List.map_congr_left fun j hj => hfg _ ?_
    rw [List.mem_range] at hj
    have hrows : b * lmax + bandRows h lmax b ≤ h ∨ bandRows h lmax b = 0 := by unfold bandRows; omega
    rcases hrows with hrows | hrows
    · have := Nat.mul_le_mul_right (wc / 8) hrows
      rw [Nat.add_mul] at this
      omega
    · rw [hrows] at hj
      omega
  unfold sinkStream
  rw [hb]

end Sys2Proof.Machine
end

