-- ==== Sys2Proof/Laws/Luminance.lean ====
section
/-!
SUPPORT. LUM: the luminance of a pixel, the histogram as counts, the number of levels (41_luminance.md R71 to R74).
-/

namespace Sys2Proof.Machine

/-- The machine's luminance is the reading of 41_luminance.md R71, R72 and R75. -/
theorem pixelLuma_eq_expected {r g b a : Nat} (ha : a ≤ 255) : pixelLuma r g b a = expectedLuma r g b a := by
  unfold pixelLuma expectedLuma luma blendChannel kRed kGreen kBlue lumaDiv
  by_cases h : a = 255
  · subst h; simp
  · have h0 : a / 255 = 0 := by omega
    rw [if_neg h, h0]
    simp only [Nat.zero_mul, Nat.add_zero]
    omega

/-- A luminance is a byte (41_luminance.md R72). -/
theorem expectedLuma_le {r g b a : Nat} (hr : r ≤ 255) (hg : g ≤ 255) (hb : b ≤ 255) :
    expectedLuma r g b a ≤ 255 := by
  unfold expectedLuma
  split
  · omega
  · omega

theorem imageLuma_le (s : State) (i : Nat) : imageLuma s i ≤ 255 :=
  expectedLuma_le (by omega) (by omega) (by omega)

/-- The byte LUM stores for pixel `i` is its luminance. -/
theorem lumaOf_toNat (s : State) (i : Nat) : (lumaOf s i).toNat = imageLuma s i := by
  unfold lumaOf
  rw [pixelLuma_eq_expected (by omega), BitVec.toNat_ofNat]
  exact Nat.mod_eq_of_lt (by have := imageLuma_le s i; unfold imageLuma at this; omega)

/-! ### The histogram -/

theorem countLevel_lookup (d : Nat) (m : Memory Word) (l : Byte) (v : Nat) :
    (countLevel d m l).lookup v = if v = l.toNat then some (readBucket d m v + 1) else m.lookup v := by
  unfold countLevel
  rw [Memory.lookup_store]
  split
  · subst_vars; rfl
  · rfl

theorem levelCount_succ (n : Nat) (level : Nat → Nat) (v : Nat) :
    levelCount (n + 1) level v = levelCount n level v + if level n = v then 1 else 0 := by
  unfold levelCount
  rw [List.range_succ, List.countP_append]
  simp [List.countP_cons]

/-- Bucket `v` of the histogram of `n` pixels holds the number of pixels of level `v`, as a 32-bit count. -/
theorem histogram_lookup (d n : Nat) (level : Nat → Byte) (v : Nat) (hv : v < 256) :
    (histogram d n level).lookup v = some (BitVec.ofNat 32 (levelCount n (fun i => (level i).toNat) v)) := by
  induction n with
  | zero => simp [histogram, levelCount, hv]
  | succ n ih =>
    have hs : histogram d (n + 1) level = countLevel d (histogram d n level) (level n) := by
      simp [histogram, List.range_succ]
    rw [hs, countLevel_lookup, levelCount_succ]
    by_cases h : v = (level n).toNat
    · rw [if_pos h, if_pos h.symm, readBucket_of_written ih]
      congr 1
      rw [BitVec.ofNat_add]
      rfl
    · rw [if_neg h, if_neg (Ne.symm h), ih]
      simp

theorem levelCount_le (n : Nat) (level : Nat → Nat) (v : Nat) : levelCount n level v ≤ n := by
  unfold levelCount
  exact (List.countP_le_length).trans (by simp)

/-- With at most 2^32 − 1 pixels no bucket overflows (41_luminance.md R73). -/
theorem histogram_bucket (d n : Nat) (level : Nat → Byte) (v : Nat) (hv : v < 256) (hn : n < 2 ^ 32) :
    (readBucket d (histogram d n level) v).toNat = levelCount n (fun i => (level i).toNat) v := by
  rw [readBucket_of_written (histogram_lookup d n level v hv), BitVec.toNat_ofNat]
  exact Nat.mod_eq_of_lt (lt_of_le_of_lt (levelCount_le _ _ _) hn)

theorem histogram_wf (d n : Nat) (level : Nat → Byte) : Memory.wf 256 (histogram d n level) = true := by
  unfold histogram
  apply Memory.wf_foldl
  · intro m i _ hm
    exact Memory.wf_store _ (level i).isLt hm
  · exact Memory.wf_table _ (le_refl _)

theorem sum_range_add_single (k : Nat) (f : Nat → Nat) (x : Nat) :
    ((List.range k).map fun v => f v + if x = v then 1 else 0).sum
      = ((List.range k).map f).sum + if x < k then 1 else 0 := by
  induction k with
  | zero => simp
  | succ k ih =>
    rw [List.range_succ, List.map_append, List.map_append, List.sum_append, List.sum_append, ih]
    simp only [List.map_cons, List.map_nil, List.sum_cons, List.sum_nil]
    by_cases h1 : x < k
    · rw [if_pos h1, if_neg (by omega), if_pos (by omega)]; omega
    · by_cases h2 : x = k
      · rw [if_neg h1, if_pos h2, if_pos (by omega)]; omega
      · rw [if_neg h1, if_neg h2, if_neg (by omega)]; omega

/-- Every pixel is counted in one bucket (41_luminance.md R73). -/
theorem levelCount_sum (n : Nat) (level : Nat → Nat) (h : ∀ i, i < n → level i < 256) :
    ((List.range 256).map (levelCount n level)).sum = n := by
  induction n with
  | zero =>
    have zeros : ∀ k : Nat, ((List.range k).map fun _ => 0).sum = 0 := by simp
    exact zeros 256
  | succ n ih =>
    have : (List.range 256).map (levelCount (n + 1) level)
        = (List.range 256).map fun v => levelCount n level v + if level n = v then 1 else 0 := by
      apply List.map_congr_left
      intro v _
      exact levelCount_succ n level v
    rw [this, sum_range_add_single, ih (fun i hi => h i (by omega)), if_pos (h n (by omega))]

/-- DISTINCT is the number of levels present (41_luminance.md R74). -/
theorem distinctLevels_histogram (d n : Nat) (level : Nat → Byte) (hn : n < 2 ^ 32) :
    distinctLevels d (histogram d n level) = levelsPresent n fun i => (level i).toNat := by
  unfold distinctLevels levelsPresent
  apply List.countP_congr
  intro v hv
  have hb := histogram_bucket d n level v (List.mem_range.mp hv) hn
  simp only [decide_eq_true_eq, ← hb]
  constructor
  · intro h
    exact Nat.pos_of_ne_zero fun h0 => h (BitVec.eq_of_toNat_eq (h0.trans rfl))
  · intro h h0
    rw [h0] at h
    exact absurd h (by decide)

theorem distinctLevels_le (d : Nat) (m : Memory Word) : distinctLevels d m ≤ 256 := by
  unfold distinctLevels
  exact (List.countP_le_length).trans (by simp)

theorem levelsPresent_succ_le (n : Nat) (level : Nat → Nat) :
    levelsPresent (n + 1) level ≤ levelsPresent n level + 1 := by
  unfold levelsPresent
  have key : ∀ k, (List.range k).countP (fun v => decide (0 < levelCount (n + 1) level v))
      ≤ (List.range k).countP (fun v => decide (0 < levelCount n level v)) + if level n < k then 1 else 0 := by
    intro k
    induction k with
    | zero => simp
    | succ k ih =>
      rw [List.range_succ, List.countP_append, List.countP_append]
      simp only [List.countP_cons, List.countP_nil, levelCount_succ, decide_eq_true_eq] at ih ⊢
      by_cases h : level n = k
      · simp only [h, if_true, lt_self_iff_false, if_false, Nat.lt_succ_self] at ih ⊢
        split <;> split <;> omega
      · simp only [h, if_false, Nat.add_zero] at ih ⊢
        by_cases h2 : level n < k
        · simp only [h2, if_true] at ih ⊢
          rw [if_pos (show level n < k + 1 by omega)]
          omega
        · simp only [h2, if_false] at ih ⊢
          rw [if_neg (show ¬level n < k + 1 by omega)]
          omega
  have := key 256
  split at this <;> omega

/-- No more levels than pixels (10_state.md R33 item 3). -/
theorem levelsPresent_le (n : Nat) (level : Nat → Nat) : levelsPresent n level ≤ n := by
  induction n with
  | zero => simp [levelsPresent, levelCount]
  | succ n ih => exact (levelsPresent_succ_le n level).trans (by omega)

/-- An image of at least one pixel has at least one level (10_state.md R33 item 3). -/
theorem levelsPresent_pos {n : Nat} {level : Nat → Nat} (hn : 1 ≤ n) (h : ∀ i, i < n → level i < 256) :
    1 ≤ levelsPresent n level := by
  unfold levelsPresent
  apply List.countP_pos_iff.mpr
  refine ⟨level 0, List.mem_range.mpr (h 0 (by omega)), ?_⟩
  apply decide_eq_true
  apply List.countP_pos_iff.mpr
  exact ⟨0, List.mem_range.mpr (by omega), by simp⟩

end Sys2Proof.Machine
end

