-- ==== Sys2Proof/Laws/PerInstr.lean ====
section
/-!
SUPPORT. What holds of every instruction as syntax, one lemma per constructor: its command word has format C of
30_encoding.md R60 and its op code is one of those of R61.
-/

namespace Sys2Proof.Laws.FormatC

open Sys2Proof

/-- The word of `i` is of format C, with an assigned op code in bits 7:0, and no other instruction has that op
code (30_encoding.md R60, R61). -/
def Statement (i : Instr) : Prop :=
  zeroField (encode i) = 0 ∧ opField (encode i) ∈ opCodes ∧ commandWordOk (encode i) = true ∧
    ∀ j : Instr, opField (encode j) = opField (encode i) → j = i

theorem lum : Statement .lum :=
  ⟨by decide, by decide, by decide, fun j h => by cases j <;> first | rfl | exact absurd h (by decide)⟩

theorem eq : Statement .eq :=
  ⟨by decide, by decide, by decide, fun j h => by cases j <;> first | rfl | exact absurd h (by decide)⟩

theorem dth : Statement .dth :=
  ⟨by decide, by decide, by decide, fun j h => by cases j <;> first | rfl | exact absurd h (by decide)⟩

theorem pack : Statement .pack :=
  ⟨by decide, by decide, by decide, fun j h => by cases j <;> first | rfl | exact absurd h (by decide)⟩

theorem run : Statement .run :=
  ⟨by decide, by decide, by decide, fun j h => by cases j <;> first | rfl | exact absurd h (by decide)⟩

theorem clr : Statement .clr :=
  ⟨by decide, by decide, by decide, fun j h => by cases j <;> first | rfl | exact absurd h (by decide)⟩

end Sys2Proof.Laws.FormatC
end

