-- ==== Sys2Proof/Laws/ToneMapper.lean ====
section
/-!
SUPPORT. EQ: the running sum of its loop is the cumulative distribution, and LUT is the table of 42_tone_mapper.md
R82.
-/

namespace Sys2Proof.Machine

/-- The sum of the first `k` buckets. -/
def prefixSum (bucket : Nat → Nat) (k : Nat) : Nat := ((List.range k).map bucket).sum

@[simp] theorem prefixSum_zero (bucket : Nat → Nat) : prefixSum bucket 0 = 0 := rfl

theorem prefixSum_succ (bucket : Nat → Nat) (k : Nat) :
    prefixSum bucket (k + 1) = prefixSum bucket k + bucket k := by
  simp [prefixSum, List.range_succ]

theorem prefixSum_mono (bucket : Nat → Nat) {j k : Nat} (h : j ≤ k) : prefixSum bucket j ≤ prefixSum bucket k := by
  induction k with
  | zero => rw [Nat.le_zero.mp h]
  | succ k ih =>
    rcases Nat.lt_or_ge j (k + 1) with h' | h'
    · rw [prefixSum_succ]; exact (ih (by omega)).trans (Nat.le_add_right _ _)
    · rw [show j = k + 1 by omega]

theorem cdfAt_eq (s : State) (v : Nat) : cdfAt s v = prefixSum (fun u => (s.histAt u).toNat) (v + 1) := rfl

theorem histSum_eq (s : State) : histSum s = prefixSum (fun u => (s.histAt u).toNat) 256 := rfl

/-- `cdf` is the inclusive prefix sum (42_tone_mapper.md R81). -/
theorem cdf_eq_prefixSum (bucket : Nat → Nat) (v : Nat) : cdf bucket v = prefixSum bucket (v + 1) := by
  induction v with
  | zero => simp [cdf, prefixSum_succ]
  | succ v ih => rw [cdf, ih, prefixSum_succ bucket (v + 1)]

/-- No prefix sum exceeds the whole sum (42_tone_mapper.md R81). -/
theorem cdfAt_le {s : State} {v : Nat} (hv : v < 256) : cdfAt s v ≤ histSum s := by
  rw [cdfAt_eq, histSum_eq]
  exact prefixSum_mono _ (by omega)

theorem cdfAt_mono {s : State} {v₁ v₂ : Nat} (h : v₁ ≤ v₂) : cdfAt s v₁ ≤ cdfAt s v₂ := by
  rw [cdfAt_eq, cdfAt_eq]
  exact prefixSum_mono _ (by omega)

theorem lutLoop_lookup (bucket : Nat → Nat) (n k v u : Nat) :
    (lutLoop bucket n k v (prefixSum bucket v)).lookup u =
      if v ≤ u ∧ u < v + k then some (BitVec.ofNat 8 (255 * prefixSum bucket (u + 1) / n)) else none := by
  induction k generalizing v with
  | zero => simp [lutLoop]
  | succ k ih =>
    unfold lutLoop
    rw [Memory.lookup_cons, ← prefixSum_succ, ih (v + 1)]
    by_cases h : u = v
    · subst h
      rw [if_pos rfl, if_pos (by omega)]
      rfl
    · rw [if_neg h]
      by_cases h2 : v + 1 ≤ u ∧ u < v + 1 + k
      · rw [if_pos h2, if_pos (by omega)]
      · rw [if_neg h2, if_neg (by omega)]

/-- LUT after EQ is the table of 42_tone_mapper.md R82. -/
theorem lutTable_lookup (s : State) {v : Nat} (hv : v < 256) :
    (lutTable s).lookup v = some (BitVec.ofNat 8 (255 * cdfAt s v / s.n)) := by
  unfold lutTable
  have := lutLoop_lookup (fun v => (s.histAt v).toNat) s.n 256 0 v
  rw [prefixSum_zero] at this
  rw [this, if_pos (by omega), cdfAt_eq]

theorem lutLoop_risingFrom (bucket : Nat → Nat) (n k v c : Nat) :
    Memory.risingFrom v (lutLoop bucket n k v c) = true := by
  induction k generalizing v c with
  | zero => rfl
  | succ k ih => simp [lutLoop, Memory.risingFrom, ih]

theorem lutLoop_below (bucket : Nat → Nat) (n k v c : Nat) :
    ((lutLoop bucket n k v c).all fun e => decide (e.1 < v + k)) = true := by
  induction k generalizing v c with
  | zero => rfl
  | succ k ih =>
    simp only [lutLoop, List.all_cons, Bool.and_eq_true, decide_eq_true_eq]
    refine ⟨by omega, ?_⟩
    have := ih (v + 1) (c + bucket v)
    rwa [show v + 1 + k = v + (k + 1) by omega] at this

theorem lutTable_wf (s : State) : Memory.wf 256 (lutTable s) = true := by
  unfold lutTable Memory.wf
  rw [lutLoop_risingFrom, Bool.true_and]
  simpa using lutLoop_below (fun v => (s.histAt v).toNat) s.n 256 0 0

/-- When the histogram counts the image, no quotient exceeds a byte (42_tone_mapper.md R82). -/
theorem quotient_le {s : State} {v : Nat} (hv : v < 256) (hsum : histSum s = s.n) : 255 * cdfAt s v / s.n ≤ 255 := by
  have := cdfAt_le (s := s) hv
  rw [hsum] at this
  rcases Nat.eq_zero_or_pos s.n with h | h
  · simp [h]
  · exact (Nat.div_le_div_right (Nat.mul_le_mul_left 255 this)).trans_eq (Nat.mul_div_cancel _ h)

end Sys2Proof.Machine
end

