-- ==== Sys2Proof/Tests/Slice0.lean ====
section
/-!
SUPPORT. The model's own tests. `test_…`: single steps on small states, every expected value taken from
95_test_vectors.md or worked out by hand from the rule named. `witness_…`: for every statement with hypotheses, a
concrete state and operands that meet them together.
-/

namespace Sys2Proof.Tests

open Sys2Proof Sys2Proof.Machine

/-! ### Small states -/

/-- The next state, if there is one. -/
def nextOf : Host.Outcome State Fault Refusal → Option State
  | .next t => some t
  | .fault _ => none
  | .refused _ => none

/-- Bytes at index 0 and up. -/
def bytes (l : List Nat) : List Host.Cell := l.zipIdx.map fun p => (p.2, BitVec.ofNat 8 p.1)

/-- A block with capacities of 64 pixels and 16 bitmap bytes, before a conversion. -/
def block (w h wc opts : Nat) : State :=
  { State.reset with
    width := BitVec.ofNat 32 w
    height := BitVec.ofNat 32 h
    canvasWidth := BitVec.ofNat 32 wc
    opts := BitVec.ofNat 4 opts
    params := { nmax := 64, bmax := 16 } }

/-- A block in phase `p` with gray values `g`. -/
def grayBlock (w h wc opts : Nat) (p : Phase) (g : List Nat) : State :=
  { block w h wc opts with phase := p, gray := bytes g }

/-- One opaque pixel (10, 20, 30) on a canvas of 8 dots. -/
def onePixel (opts : Nat) : State := { block 1 1 8 opts with pix := bytes [10, 20, 30, 255] }

/-- `onePixel` after LUM. -/
def lumDone (opts : Nat) : State := complete (lumBody (onePixel opts))

/-- A block in the failure state after a command out of phase. -/
def failed : State :=
  { State.reset with phase := .fail, err := true, errcode := .eSeq, errinfo := 0x00000002#32 }

/-! ### The checks on syntax and parameters refuse ill-formed terms -/

theorem test_wf_accepts : [Instr.lum, .eq, .dth, .pack, .run, .clr].all (fun i => commandWordOk (encode i)) = true := by
  decide

theorem test_wf_zero_field : commandWordOk 0x00000101#32 = false ∧ commandWordOk 0x80000005#32 = false := by decide

theorem test_wf_op_code : commandWordOk 0x00000000#32 = false ∧ commandWordOk 0x00000006#32 = false := by decide

theorem test_wf_nmax : Params.WellFormed ⟨0, 1⟩ = false ∧ Params.WellFormed ⟨2 ^ 32, 1⟩ = false := by decide

theorem test_wf_bmax : Params.WellFormed ⟨1, 0⟩ = false ∧ Params.WellFormed ⟨1, 2 ^ 32⟩ = false := by decide

theorem test_wf_data : Access.WellFormed (.write .pix 0 1 0x00000100#32) = false ∧
    Access.WellFormed (.write .pix 0 2 0x00010000#32) = false ∧
    Access.WellFormed (.write .pix 0 4 0xFFFFFFFF#32) = true := by decide

/-! ### Decoding, from the words of 30_encoding.md R61 written out -/

theorem test_decode_lum : decodeTableWord 32 0x00000001 = some .lum := by decide

theorem test_decode_eq : decodeTableWord 32 0x00000002 = some .eq := by decide

theorem test_decode_dth : decodeTableWord 32 0x00000003 = some .dth := by decide

theorem test_decode_pack : decodeTableWord 32 0x00000004 = some .pack := by decide

theorem test_decode_run : decodeTableWord 32 0x00000005 = some .run := by decide

theorem test_decode_clr : decodeTableWord 32 0x0000000F = some .clr := by decide

/-- 95_test_vectors.md Q2 to Q5: zero, an op code between CLR and RUN, a bit in the zero field. -/
theorem test_decode_illegal : decodeTableWord 32 0 = none ∧ decodeTableWord 32 0x0E = none ∧
    decodeTableWord 32 0x101 = none ∧ decodeTableWord 32 0x80000005 = none := by decide

/-! ### Single commands -/

/-- 95_test_vectors.md L12, L13, L25, L27: the blend and the weighted sum. -/
theorem test_lum_pixels : pixelLuma 10 20 30 255 = 18 ∧ pixelLuma 200 100 50 255 = 118 ∧
    pixelLuma 77 88 99 1 = 254 ∧ pixelLuma 12 200 99 254 = 1 := by decide

/-- L30 and L31: red and transparent give 37 FF; the advisory in photo mode only. -/
theorem test_lum_image :
    ((nextOf (exec .lum { block 2 1 8 1 with pix := bytes [255, 0, 0, 255, 0, 0, 0, 0] })).map fun t =>
      (t.gray, t.distinct, t.warn, t.phase)) = some (bytes [0x37, 0xFF], 2#9, true, .lumd) := by decide +kernel

/-- E4: 0, 255, 255 become 85, 255, 255. -/
theorem test_eq_image :
    ((nextOf (exec .eq { grayBlock 3 1 8 1 .lumd [0, 255, 255] with
        hist := Memory.table 256 fun v => if v = 0 then 1#32 else if v = 255 then 2#32 else 0#32 })).map fun t =>
      (t.gray, t.lutAt 254, t.phase)) = some (bytes [85, 255, 255], 85#8, .eqd) := by decide +kernel

/-- T2: flat 128 with both signs of the residual. -/
theorem test_dth_flat :
    ((nextOf (exec .dth (grayBlock 3 2 8 1 .eqd [128, 128, 128, 128, 128, 128]))).map fun t => (t.gray, t.phase))
      = some (bytes [0, 255, 0, 255, 0, 255], .dthd) := by decide +kernel

/-- T1b: the first visit that moves anything, with negative quotients truncated toward zero. -/
theorem test_dth_visit :
    visitPixel 0 5 3 (bytes [255, 255, 200, 255, 255, 255, 255, 255, 255, 255, 255, 255, 255, 255, 255]) 2
      = bytes [255, 255, 255, 247, 250, 252, 250, 247, 250, 252, 254, 252, 250, 252, 254] := by decide +kernel

/-- P2, left without rotation: A0 00 20 00. -/
theorem test_pack_left :
    ((nextOf (exec .pack (grayBlock 3 2 16 4 .lumd [0, 255, 0, 255, 255, 0]))).map fun t => (t.bmp, t.offset))
      = some (bytes [0xA0, 0x00, 0x20, 0x00], 0#32) := by decide +kernel

/-- P2, unset with rotation: offset 13, 00 04 00 05. -/
theorem test_pack_rotated :
    ((nextOf (exec .pack (grayBlock 3 2 16 2 .lumd [0, 255, 0, 255, 255, 0]))).map fun t => (t.bmp, t.offset))
      = some (bytes [0x00, 0x04, 0x00, 0x05], 13#32) := by decide +kernel

/-- One ink pixel (L12 gives 18) in photo mode, by hand: a single level equalises to 255 (R84), so the dot is paper;
without photo mode 18 is ink. -/
theorem test_run_one_pixel :
    ((nextOf (exec .run (onePixel 1))).map fun t => (t.bmp, t.gray, t.phase)) = some (bytes [0x00], bytes [255], .packd) ∧
    ((nextOf (exec .run (onePixel 0))).map fun t => (t.bmp, t.gray, t.phase)) = some (bytes [0x80], bytes [18], .packd) := by
  decide +kernel

/-- 45_sequencing_commands.md R115, its example: CLR in FAIL leaves STATUS = 2 and ERRCODE = 0. -/
theorem test_clr_example :
    ((nextOf (exec .clr failed)).map fun t => (statusWord t, t.errcode)) = some (0x00000002#32, .noError) := by decide +kernel

/-- G4 and S8: WIDTH = 20 on a canvas of 16 raises E_CAP with ERRINFO = 1, STATUS = 0x704. -/
theorem test_capacity :
    ((nextOf (exec .lum (block 20 1 16 0))).map fun t => (statusWord t, t.errcode, t.errinfo, t.gray))
      = some (0x00000704#32, .eCap, 1#32, []) := by decide +kernel

/-! ### Steps -/

/-- A word placed by withFetchWord is performed by the very next step: each of the six in IDLE after reset. LUM and RUN
fail the start checks (WIDTH = 0), EQ, DTH and PACK are out of phase, CLR completes. -/
theorem test_fetch :
    ([1, 2, 3, 4, 5, 15].map fun w => (nextOf (step (State.reset.withFetchWord 32 w))).map fun t =>
      (t.errcode, t.busy, t.done)) =
    [some (.eCfg, false, false), some (.eSeq, false, false), some (.eSeq, false, false), some (.eSeq, false, false),
      some (.eCfg, false, false), some (.noError, false, true)] := by decide +kernel

/-- M1: the identification word, read over the bus. -/
theorem test_read_id :
    ((nextOf (step { State.reset with inputs := [.access (.read .reg 0 4)] })).map fun t => t.replies)
      = some [0x4C554D41#32] := by decide +kernel

/-- M4 and, at offset 2 as in M6, a misaligned write: dropped, BUSERR = 1. -/
theorem test_write_pix :
    ((nextOf (step { block 1 1 8 0 with inputs := [.access (.write .pix 0 4 0x8063C80C#32)] })).map fun t =>
      (t.pix, t.buserr)) = some (bytes [0x0C, 0xC8, 0x63, 0x80], false) ∧
    ((nextOf (step { block 1 1 8 0 with inputs := [.access (.write .pix 2 4 0x8063C80C#32)] })).map fun t =>
      (t.pix, t.buserr)) = some ([], true) := by decide +kernel

/-- F2: two bands, the second shorter, all 53 bytes. -/
theorem test_stream :
    (sinkStream (fun k => BitVec.ofNat 8 ([0xD0, 0xB0, 0x38].getD k 0)) 8 3 2 false).toOption =
      some ([0x1B, 0x40,
        0x1D, 0x38, 0x4C, 0x0C, 0x00, 0x00, 0x00, 0x30, 0x70, 0x30, 0x01, 0x01, 0x31, 0x08, 0x00, 0x02, 0x00, 0xD0, 0xB0,
        0x1D, 0x28, 0x4C, 0x02, 0x00, 0x30, 0x32,
        0x1D, 0x38, 0x4C, 0x0B, 0x00, 0x00, 0x00, 0x30, 0x70, 0x30, 0x01, 0x01, 0x31, 0x08, 0x00, 0x01, 0x00, 0x38,
        0x1D, 0x28, 0x4C, 0x02, 0x00, 0x30, 0x32].map (BitVec.ofNat 8)) := by decide +kernel

/-! ### The Host at work -/

/-- What one call of the Host on a block of 64 pixels and 16 bitmap bytes reports and writes: canvas `wc`, Lmax = 2. -/
def hostRun (wc polls : Nat) (form : ConversionForm) (room : Option Nat) (img : Image) : Option (HostReport × Bool × List Byte) :=
  match hostConvert { HostConfig.default 0 with canvasWidth := BitVec.ofNat 32 wc, maxBandHeight := 2 } form polls room
      (.ok img) (block 0 0 0 0) with
  | .next r => some (r.report, r.warning, r.written)
  | .fault _ => none
  | .refused _ => none

/-- The decoded image of `onePixel`. -/
def onePixelImage : Image := { width := 1, height := 1, pixels := [⟨10, 20, 30, 255⟩] }

/-- The stream of `onePixelImage` on a canvas of 8 dots, by hand from R123, R124, R125: one band of one row, 11 bytes
after the length field, the dot of 18 ≤ 128 leftmost. -/
def onePixelStream : List Byte :=
  [0x1B, 0x40, 0x1D, 0x38, 0x4C, 0x0B, 0x00, 0x00, 0x00, 0x30, 0x70, 0x30, 0x01, 0x01, 0x31, 0x08, 0x00, 0x01, 0x00,
    0x80, 0x1D, 0x28, 0x4C, 0x02, 0x00, 0x30, 0x32]

/-- Both forms of R128 deliver it, with one read of STATUS before each Engine turn. -/
theorem test_host_delivers :
    hostRun 8 1 .run none onePixelImage = some (.success, false, onePixelStream) ∧
    hostRun 8 1 .stepwise none onePixelImage = some (.success, false, onePixelStream) := by decide +kernel

/-- The failure branch of R128 with R130: the same image wider than a canvas of 0 dots, and on a canvas of 9; a sink
that takes 26 of the 27 bytes. -/
theorem test_host_failures :
    hostRun 0 0 .run none onePixelImage = some (.failure .capacityExceeded, false, []) ∧
    hostRun 9 0 .stepwise none onePixelImage = some (.failure (.programming .eCfg), false, []) ∧
    hostRun 8 0 .run (some 26) onePixelImage = some (.failure .sinkWriteFailure, false, onePixelStream.take 26) := by
  decide +kernel

/-- R128 with R130 and R127: in photo mode `onePixelImage` has one level, so WARN = 1 is surfaced beside success, beside
the failure of a sink that takes no byte and beside the refusal of Lmax = 0. -/
theorem test_host_warns :
    ([(2, none), (2, some 0), (0, none)].map fun (lmax, room) =>
      match hostConvert { HostConfig.default 0 with photo := true, canvasWidth := 8, maxBandHeight := lmax } .run 0 room
          (.ok onePixelImage) (block 0 0 0 0) with
      | .next r => some (r.report, r.warning)
      | .fault _ => none
      | .refused _ => none) =
    [some (.success, true), some (.failure .sinkWriteFailure, true), some (.unframed .zeroBand, true)] := by
  decide +kernel

/-! ### Witnesses: states of the invariant -/

/-- `onePixel` passes the start checks at every boundary: W = Wc − 7, and with 64 and 16 the capacities in `fullBlock`
are met exactly. -/
theorem onePixel_geometry (opts : Nat) : GeometryOk (onePixel opts) := by
  constructor <;> simp [onePixel, block, State.w, State.h, State.wc]

/-- W = Wc, N = NMAX and H × stride = BMAX: every check at its boundary. -/
def fullBlock : State := { block 8 8 8 0 with params := { nmax := 64, bmax := 8 } }

theorem fullBlock_geometry : GeometryOk fullBlock := by constructor <;> decide +kernel

/-- The one pixel has one level: DISTINCT = 1. -/
theorem lumDone_distinct (opts : Nat) : (lumDone opts).distinct.toNat = 1 ∧
    distinctLevels 0 (lumDone opts).hist = 1 ∧ (lumDone opts).warn = advisory (onePixel opts).photo 1 := by
  have hd : distinctLevels 0 (histogram 0 1 (lumaOf (onePixel opts))) = 1 := by
    rw [distinctLevels_histogram _ _ _ (by decide)]
    have hpos := levelsPresent_pos (n := 1) (level := fun i => (lumaOf (onePixel opts) i).toNat) (by decide)
      fun i _ => (lumaOf (onePixel opts) i).isLt
    have hle := levelsPresent_le 1 fun i => (lumaOf (onePixel opts) i).toNat
    omega
  have hhist : (lumDone opts).hist = histogram 0 1 (lumaOf (onePixel opts)) := rfl
  have hdist : (lumDone opts).distinct = BitVec.ofNat 9 (distinctLevels 0 (histogram 0 1 (lumaOf (onePixel opts)))) := rfl
  have hwarn : (lumDone opts).warn =
    advisory (onePixel opts).photo (distinctLevels 0 (histogram 0 1 (lumaOf (onePixel opts)))) := rfl
  rw [hdist, hhist, hwarn, hd]
  exact ⟨rfl, rfl, rfl⟩

/-- The state after LUM in photo mode meets the invariant with every conversion clause at work. -/
theorem lumDone_inv : Inv (lumDone 1) where
  params_ok := by decide
  memories_ok := by
    have h := histogram_wf 0 1 (lumaOf (onePixel 1))
    have hm : memoriesOk (lumDone 1) =
      (Memory.wf 256 (histogram 0 1 (lumaOf (onePixel 1))) && true && true && true && true) := rfl
    rw [hm, h]
    rfl
  err_iff := by decide
  errcode_iff := by decide
  errinfo_zero := fun _ => rfl
  busy_not_done := fun h => nomatch h
  warn_idle := fun h => nomatch h
  geometry := fun _ => by constructor <;> simp [lumDone, onePixel, block, State.w, State.h, State.wc]
  hist_written := fun _ v hv => by
    have hh : (lumDone 1).hist = histogram 0 1 (lumaOf (onePixel 1)) := rfl
    rw [hh, histogram_lookup 0 1 (lumaOf (onePixel 1)) v hv, Option.isSome_some]
  gray_written := fun _ i hi => by
    have h0 : i = 0 := Nat.lt_one_iff.mp hi
    subst h0
    rfl
  hist_sum := fun _ => by
    have h := levelCount_sum 1 (fun i => (lumaOf (onePixel 1) i).toNat) fun i _ => (lumaOf (onePixel 1) i).isLt
    refine Eq.trans (congrArg List.sum (List.map_congr_left fun v hv => ?_)) h
    exact histogram_bucket 0 1 (lumaOf (onePixel 1)) v (List.mem_range.mp hv) (by decide)
  distinct_count := fun _ => (lumDone_distinct 1).1.trans (lumDone_distinct 1).2.1.symm
  distinct_range := fun _ => by rw [(lumDone_distinct 1).1]; decide
  warn_advisory := fun _ => by
    rw [(lumDone_distinct 1).1, (lumDone_distinct 1).2.2]
    rfl
  photo_stage := fun _ => rfl
  lut_table := fun h => nomatch h
  gray_binary := fun h => nomatch h
  offset_placed := fun h => nomatch h

/-- The invariant outside a conversion asks for nothing but the error record and the flags. -/
theorem inv_of_quiet {s : State} (hq : s.phase = .idle ∨ s.phase = .fail) (hp : s.params.WellFormed = true)
    (hm : memoriesOk s = true) (he : s.err = true ↔ s.phase = .fail) (hc : s.errcode ≠ .noError ↔ s.phase = .fail)
    (hi : s.phase ≠ .fail → s.errinfo = 0) (hb : s.busy = true → s.done = false)
    (hw : s.phase = .idle → s.warn = false) : Inv s := by
  rcases hq with h | h <;>
    exact { params_ok := hp, memories_ok := hm, err_iff := he, errcode_iff := hc, errinfo_zero := hi, busy_not_done := hb,
            warn_idle := hw,
            geometry := by simp [h, converting], hist_written := by simp [h, converting],
            gray_written := by simp [h, converting], hist_sum := by simp [h, converting],
            distinct_count := by simp [h, converting], distinct_range := by simp [h, converting],
            warn_advisory := by simp [h, converting], photo_stage := by simp [h],
            lut_table := by simp [h, equalised], gray_binary := by simp [h, dithered], offset_placed := by simp [h] }

/-- A block with RUN pending and one read of STATUS before the Engine's turn. -/
def waiting : State := { onePixel 1 with pending := some 0x00000005#32, inputs := [.access (.read .reg 0x08 4), .engine] }

theorem waiting_inv : Inv waiting :=
  inv_of_quiet (.inl rfl) (by decide +kernel) (by decide +kernel) (by decide +kernel) (by decide +kernel)
    (by decide +kernel) (by decide +kernel) (by decide +kernel)

/-- `failed` with LUM pending. -/
def failedWaiting : State := { failed with pending := some 0x00000001#32, inputs := [.engine] }

theorem failedWaiting_inv : Inv failedWaiting :=
  inv_of_quiet (.inr rfl) (by decide +kernel) (by decide +kernel) (by decide +kernel) (by decide +kernel)
    (by decide +kernel) (by decide +kernel) (by decide +kernel)

/-! ### Witnesses: the hypotheses of each statement, met together -/

theorem witness_CommandBytesDecodeAsTheirWord : Instr.WellFormed .clr = true := rfl

theorem witness_StepPerformsThePendingCommand :
    decode 0x00000001#32 = .ok .lum ∧
    (∃ s : State, s.pending = some 0x00000001#32 ∧ s.inputs = []) ∧
    (∃ s : State, s.pending = some 0x00000001#32 ∧ s.inputs = [.engine]) ∧
    ∃ s : State, s.pending = some 0x00000001#32 ∧ s.inputs = [.access (.read .pix 0 4)] ∧
      Access.read .pix 0 4 ≠ .read .reg 0x08 4 :=
  ⟨rfl, ⟨issue 1 State.reset, rfl, rfl⟩, ⟨{ issue 1 State.reset with inputs := _ }, rfl, rfl⟩,
    ⟨{ issue 1 State.reset with inputs := _ }, rfl, rfl, by decide⟩⟩

theorem witness_IssueLatchesTheWord :
    (∃ s : State, s.inputs = [.access (.write .reg 0x04 4 0x00000001#32)] ∧ s.pending = none) ∧
    ∃ s t : State, s.inputs = [.access (.write .reg 0x04 4 0x00000001#32)] ∧ s.pending = some 0x0000000F#32 ∧
      step s = .next t :=
  ⟨⟨{ State.reset with inputs := _ }, rfl, rfl⟩, ⟨{ issue 0xF State.reset with inputs := _ }, _, rfl, rfl, rfl⟩⟩

theorem witness_StallHoldsOtherAccesses :
    ∃ (s t : State) (w : Word), s.pending = some w ∧ s.inputs = [.access (.read .reg 0x0C 4)] ∧
      Access.read .reg 0x0C 4 ≠ .read .reg 0x08 4 ∧ step s = .next t :=
  ⟨{ issue 0xF State.reset with inputs := _ }, _, _, rfl, rfl, by decide, rfl⟩

theorem witness_BusyEndsWithinItsInputs : Inv waiting ∧ waiting.busy = true := ⟨waiting_inv, rfl⟩

theorem witness_IllegalWordRaisesEIll :
    (issue 0x00000100#32 State.reset).pending = some 0x00000100#32 ∧ State.reset.phase ≠ .fail ∧
      (0x00000100#32).toNat / 2 ^ 8 ≠ 0 ∧
      (0x00000006#32).toNat / 2 ^ 8 = 0 ∧ (0x00000006#32).toNat % 2 ^ 8 ∉ [0x01, 0x02, 0x03, 0x04, 0x05, 0x0F] := by
  decide

theorem witness_FailureIsSticky :
    failedWaiting.pending = some 0x00000001#32 ∧ failedWaiting.phase = .fail ∧ 0x00000001#32 ≠ 0x0000000F#32 ∧
      Inv failedWaiting ∧ ∃ t, engineTurn failedWaiting = .next t :=
  ⟨rfl, rfl, by decide, failedWaiting_inv, ⟨_, rfl⟩⟩

theorem witness_OutOfPhaseRaisesESeq :
    (lumDone 1).phase ≠ .fail ∧ (lumDone 1).phase ≠ .idle ∧
      ¬((lumDone 0).phase = .lumd ∧ (lumDone 0).photo = true) ∧ (lumDone 1).phase ≠ .eqd ∧
      ¬((lumDone 1).phase = .lumd ∧ (lumDone 1).photo = false ∨ (lumDone 1).phase = .dthd) := by decide +kernel

theorem witness_StartChecksInOrder :
    (block 0 1 8 0).phase = .idle ∧ (block 0 1 8 0).w = 0 ∧ (block 1 0 8 0).h = 0 ∧ (block 1 1 9 0).wc % 8 ≠ 0 ∧
    (1 ≤ (block 9 1 8 0).w ∧ 1 ≤ (block 9 1 8 0).h ∧ (block 9 1 8 0).wc % 8 = 0 ∧ (block 9 1 8 0).wc < (block 9 1 8 0).w) ∧
    ((block 8 9 8 0).w ≤ (block 8 9 8 0).wc ∧ (block 8 9 8 0).params.nmax < (block 8 9 8 0).w * (block 8 9 8 0).h) ∧
    ((block 1 17 8 0).params.bmax < (block 1 17 8 0).h * ((block 1 17 8 0).wc / 8)) ∧ GeometryOk fullBlock :=
  ⟨by decide +kernel, by decide +kernel, by decide +kernel, by decide +kernel, by decide +kernel, by decide +kernel,
    by decide +kernel, fullBlock_geometry⟩

theorem witness_ErrorsArePrecise :
    ∃ t, exec .eq State.reset = .next t ∧ State.reset.phase ≠ .fail ∧ t.phase = .fail := ⟨_, rfl, by decide, rfl⟩

theorem witness_PhaseFollowsTheTransitionTable : ∃ t, exec .clr failed = .next t := ⟨_, rfl⟩

theorem witness_OnlyClrAndResetLeaveFailure :
    (∃ t, step { failed with inputs := [.reset] } = .next t ∧ t.phase ≠ .fail) ∧
    ∃ t, step { failed with pending := some 0x0000000F#32 } = .next t ∧ t.phase ≠ .fail :=
  ⟨⟨_, rfl, by decide⟩, ⟨_, rfl, by decide⟩⟩

/-- Both clauses at their boundary, a = 255 and a = 254. -/
theorem witness_BlendAgainstWhite : blendChannel 7 255 = 7 ∧ blendChannel 7 254 = 1 ∧ blendChannel 7 0 = 255 := by decide

theorem witness_LumaWeightedSum : luma 255 255 255 = 255 ∧ luma 255 255 254 = 254 ∧ luma 128 129 128 = 128 := by decide

theorem witness_LumConvertsTheImage :
    fullBlock.params.WellFormed = true ∧ fullBlock.phase = .idle ∧ GeometryOk fullBlock :=
  ⟨by decide +kernel, rfl, fullBlock_geometry⟩

theorem witness_EqRemapsTheImage :
    (lumDone 1).phase = .lumd ∧ (lumDone 1).photo = true ∧ 1 ≤ (lumDone 1).n ∧ (lumDone 1).n ≤ (lumDone 1).params.nmax := by
  decide +kernel

theorem witness_EqKeepsLevelOrder : Inv (lumDone 1) ∧ (lumDone 1).phase = .lumd ∧ (lumDone 1).photo = true ∧
    (∀ u, 255 < u → u < 256 → (lumDone 1).histAt u = 0#32) :=
  ⟨lumDone_inv, rfl, rfl, fun u h1 h2 => by omega⟩

/-- One pixel of each level: N = 256, k = 1. -/
def uniform : State :=
  { block 16 16 16 1 with phase := .lumd, hist := Memory.table 256 fun _ => 1#32, params := { nmax := 256, bmax := 32 } }

theorem witness_EqOfUniformHistogramIsIdentity :
    uniform.phase = .lumd ∧ uniform.photo = true ∧ 1 ≤ 1 ∧ uniform.n = 256 * 1 ∧ uniform.n ≤ uniform.params.nmax ∧
      ∀ v, v < 256 → (uniform.histAt v).toNat = 1 := by decide +kernel

theorem witness_VisitDiffusesForward : 0 < 1 ∧ 4 < 5 ∧ 2 < 3 := by decide

theorem witness_DthVisitsEveryPixelOnce :
    (grayBlock 8 8 8 1 .eqd []).phase = .eqd ∧ (grayBlock 8 8 8 1 .eqd []).n ≤ (grayBlock 8 8 8 1 .eqd []).params.nmax := by
  decide +kernel

theorem witness_DthKeepsBinaryImages :
    let s := grayBlock 2 1 8 1 .eqd [0, 255]
    s.phase = .eqd ∧ s.n ≤ s.params.nmax ∧ ∀ i, i < s.n → s.grayAt i = 0#8 ∨ s.grayAt i = 255#8 := by decide +kernel

/-- The canvas exactly full, and P1's odd difference. -/
theorem witness_CanvasOffsetByAlignment : 512 ≤ 512 ∧ canvasOffset 512 512 .center true = 0 ∧ canvasOffset 8 3 .center false = 2 := by
  decide

theorem witness_PackDrawsTheBitmap :
    (let s := { fullBlock with phase := .lumd };
      (s.phase = .lumd ∧ s.photo = false) ∧ s.wc % 8 = 0 ∧ s.w ≤ s.wc ∧ s.n ≤ s.params.nmax ∧ s.h * s.stride ≤ s.params.bmax) ∧
    (let s := { fullBlock with phase := .dthd, opts := 1 };
      s.phase = .dthd ∧ s.wc % 8 = 0 ∧ s.w ≤ s.wc ∧ s.n ≤ s.params.nmax ∧ s.h * s.stride ≤ s.params.bmax) := by decide +kernel

theorem witness_RunConvertsTheImage :
    ((onePixel 0).photo = false ∧ (onePixel 0).phase = .idle ∧ GeometryOk (onePixel 0)) ∧
    ((onePixel 1).photo = true ∧ (onePixel 1).phase = .idle ∧ GeometryOk (onePixel 1)) ∧
      (onePixel 1).params.WellFormed = true :=
  ⟨⟨rfl, rfl, onePixel_geometry 0⟩, ⟨rfl, rfl, onePixel_geometry 1⟩, by decide +kernel⟩

theorem witness_RunWithoutPhotoThresholdsEachPixel :
    fullBlock.phase = .idle ∧ GeometryOk fullBlock ∧ fullBlock.photo = false := ⟨rfl, fullBlock_geometry, rfl⟩

theorem witness_RunEqualsTheStepwiseSequence :
    (onePixel 1).phase = .idle ∧ (onePixel 1).pending = none ∧ (onePixel 1).inputs = [] ∧ GeometryOk (onePixel 1) ∧
      (onePixel 1).photo = true ∧ GeometryOk (onePixel 0) ∧ (onePixel 0).photo = false :=
  ⟨rfl, rfl, rfl, onePixel_geometry 1, rfl, onePixel_geometry 0, rfl⟩

theorem witness_CommandsKeepOperandsAndPix : ∃ t, exec .clr State.reset = .next t := ⟨_, rfl⟩

theorem witness_AdvisoryBlocksNothing : ∃ t, exec .dth (lumDone 1) = .next t := ⟨_, rfl⟩

/-- Two blocks that differ in every memory but PIX. -/
theorem witness_ConversionDependsOnPixAndOperandsOnly :
    let a := onePixel 1
    let b := { onePixel 1 with gray := bytes [7], bmp := bytes [9], hist := [(3, 4#32)], lut := bytes [5], draw := 1 }
    a.phase = .idle ∧ b.phase = .idle ∧ GeometryOk a ∧ a.width = b.width ∧ a.height = b.height ∧
      a.canvasWidth = b.canvasWidth ∧ a.opts = b.opts ∧ a.params = b.params ∧
      (∀ k, k < 4 * a.n → a.pixAt k = b.pixAt k) ∧ a.gray ≠ b.gray :=
  ⟨rfl, rfl, onePixel_geometry 1, rfl, rfl, rfl, rfl, rfl, fun _ _ => rfl, by decide⟩

/-- One refused access for each clause, at the boundary of its range. -/
theorem witness_RefusedAccessesSetBuserr :
    State.reset.pending = none ∧
    ¬inRange (onePixel 0) .pix 254 4 ∧ ¬inRange (onePixel 0) .pix 256 4 ∧ ¬inRange (onePixel 0) .hist 0 1 ∧
    inRange (onePixel 0) .pix 252 4 ∧ 0x24 ∈ unmappedOffsets ∧ (Space.lut ≠ .reg ∧ Space.lut ≠ .pix) ∧
    0x30 ∈ readOnlyOffsets ∧ (0x28 ∈ lockedOffsets ∧ (lumDone 0).phase ≠ .idle) := by
  refine ⟨rfl, ?_, ?_, ?_, ?_, by decide, by decide, by decide, by decide, by decide⟩ <;>
    simp [inRange, sizeAdmitted, spaceBytes, onePixel, block]

theorem witness_OperandRegistersLockOutsideIdle :
    (∃ s : State, s.pending = none ∧ s.phase = .idle ∧ s.inputs = [.access (.write .reg 0x28 4 0xFFFFFFFF#32)]) ∧
    ∃ s : State, s.pending = none ∧ s.phase ≠ .idle ∧ s.inputs = [.access (.write .reg 0x28 4 0xFFFFFFFF#32)] :=
  ⟨⟨{ State.reset with inputs := _ }, rfl, rfl, rfl⟩, ⟨{ failed with inputs := _ }, rfl, by decide, rfl⟩⟩

theorem witness_ControlRegisterWrites :
    (∃ s : State, s.pending = none ∧ s.inputs = [.access (.write .reg 0x14 4 0xFFFFFFFF#32)]) ∧
    ∃ s : State, s.pending = none ∧ s.inputs = [.access (.write .reg 0x08 4 0x00000010#32)] :=
  ⟨⟨{ failed with inputs := _ }, rfl, rfl⟩, ⟨{ failed with inputs := _ }, rfl, rfl⟩⟩

theorem witness_RegisterReads :
    ∃ (s : State) (v : Word), s.pending = none ∧ s.inputs = [.access (.read .reg 0x0C 4)] ∧ s.errcode = .eSeq ∧
      (0x0C, v) ∈ [(0x0C, match s.errcode with
        | .noError => 0#32 | .eIll => 1#32 | .eSeq => 2#32 | .eCfg => 3#32 | .eCap => 4#32 | .eAlloc => 5#32)] :=
  ⟨{ failed with inputs := _ }, 2#32, rfl, rfl, rfl, by decide⟩

/-- M28: the last pixel. -/
theorem witness_PixWriteThenRead :
    (onePixel 0).pending = none ∧ inRange (onePixel 0) .pix 252 4 ∧ (0xFFFFFFFF#32).toNat < 2 ^ (8 * 4) ∧
      inRange (onePixel 0) .pix 255 1 := by
  refine ⟨rfl, ?_, by decide, ?_⟩ <;> simp [inRange, sizeAdmitted, spaceBytes, onePixel, block]

theorem witness_MemoryReadsAreLittleEndian :
    ∃ s : State, s.pending = none ∧ s.inputs = [.access (.read .lut 252 4)] ∧ inRange s .lut 252 4 ∧
      inRange s .gray 60 4 ∧ inRange s .bmp 15 1 ∧ inRange s .pix 254 2 ∧ inRange s .hist (4 * 255) 4 := by
  refine ⟨{ onePixel 0 with inputs := _ }, rfl, rfl, ?_, ?_, ?_, ?_, ?_⟩ <;>
    simp [inRange, sizeAdmitted, spaceBytes, onePixel, block]

theorem witness_HostKeepsEngineBuffers :
    ∃ s t : State, s.pending = none ∧ s.inputs = [.access (.write .pix 0 1 7#32)] ∧ step s = .next t :=
  ⟨{ onePixel 0 with inputs := _ }, _, rfl, rfl, rfl⟩

theorem witness_BuserrIsSticky :
    (∃ s t : State, s.buserr = true ∧ step s = .next t ∧ t.buserr = false ∧ s.inputs = [.reset]) ∧
    ∃ s t : State, s.buserr = true ∧ step s = .next t ∧ t.buserr = false ∧
      s.inputs = [.access (.write .reg 0x08 4 0x00000010#32)] :=
  ⟨⟨{ State.reset with buserr := true, inputs := _ }, _, rfl, rfl, rfl, rfl⟩,
    ⟨{ State.reset with buserr := true, inputs := _ }, _, rfl, rfl, rfl, rfl⟩⟩

theorem witness_IrqFollowsStatusAndEnables :
    (∃ t, exec .clr waiting = .next t ∧ t.done = true) ∧
    (∃ t, exec .eq waiting = .next t ∧ t.err = true) ∧ Inv waiting ∧ waiting.busy = true ∧
    (0x00000002#32).getLsbD 1 = true ∧ State.reset.err = false :=
  ⟨⟨_, rfl, rfl⟩, ⟨_, rfl, rfl⟩, waiting_inv, rfl, by decide, rfl⟩

theorem witness_ResetPutsRegistersBack :
    (∃ s : State, s.inputs = [.reset] ∧ s.pending = none ∧ s.phase = .lumd) ∧
    ∃ s : State, s.inputs = [.reset] ∧ s.pending = some 0x00000001#32 :=
  ⟨⟨{ lumDone 1 with inputs := _ }, rfl, rfl, rfl⟩, ⟨{ failedWaiting with inputs := _ }, rfl, rfl⟩⟩

theorem witness_EveryStepKeepsTheInvariant : Inv failedWaiting ∧ ∃ t, step failedWaiting = .next t :=
  ⟨failedWaiting_inv, ⟨_, rfl⟩⟩

theorem witness_BlockNeverStopsUnderTheInvariant : Inv (lumDone 1) := lumDone_inv

theorem witness_EveryStepKeepsMemoriesCanonical :
    memoriesOk failedWaiting = true ∧ (∃ t, step failedWaiting = .next t) ∧ memoriesOk (lumDone 1) = true :=
  ⟨by decide +kernel, ⟨_, rfl⟩, lumDone_inv.memories_ok⟩

theorem witness_NothingIsRefusedByTheModel : GeometryOk fullBlock := fullBlock_geometry

/-- F3: H = Lmax gives one band, H = Lmax + 1 two. -/
theorem witness_BandsCutTheRows : 1 ≤ 2 ∧ bandCount 2 2 = 1 ∧ bandCount 3 2 = 2 ∧ bandCount 4 2 = 2 ∧ bandCount 0 2 = 0 := by
  decide

theorem witness_SinkStreamLength :
    (1 ≤ 65535 ∧ 65535 ≤ 65535) ∧ 65535 < 65536 ∧ (sinkStream (fun _ => 0) 65536 1 1 false).toOption = none ∧
      (sinkStream (fun _ => 0) 8 1 65536 false).toOption = none ∧ (sinkStream (fun _ => 0) 8 1 0 false).toOption = none := by
  decide +kernel

theorem witness_StoreCommandLayout : 65535 ≤ 65535 ∧ (storeCommand (fun _ => 0#8) 65528 0 0).length = 17 := by
  decide +kernel

/-- The image as large as the pixel capacity. -/
theorem witness_ConfigurationReachesTheRegisters :
    (block 0 0 0 0).phase = .idle ∧ (block 0 0 0 0).pending = none ∧
      (List.replicate 64 (Pixel.mk 1 2 3 255)).length ≤ (block 0 0 0 0).params.nmax := by decide +kernel

theorem block_inv : Inv (block 0 0 0 0) :=
  inv_of_quiet (.inl rfl) (by decide +kernel) (by decide +kernel) (by decide +kernel) (by decide +kernel)
    (by decide +kernel) (by decide +kernel) (by decide +kernel)

/-- 8 × 8 on a canvas of 8: W = Wc, N = NMAX; bands of Lmax = 1 and of Lmax = 65,535. -/
theorem witness_HostDeliversTheBitmap :
    let img : Image := { width := 8, height := 8, pixels := List.replicate 64 ⟨1, 2, 3, 255⟩ }
    let s := block 0 0 0 0
    Inv s ∧ s.phase = .idle ∧ s.pending = none ∧ img.WellFormed = true ∧ 1 ≤ img.width.toNat ∧ 1 ≤ img.height.toNat ∧
      (8#32).toNat % 8 = 0 ∧ img.width.toNat ≤ (8#32).toNat ∧ img.width.toNat * img.height.toNat ≤ s.params.nmax ∧
      img.height.toNat * ((8#32).toNat / 8) ≤ s.params.bmax ∧ (8#32).toNat ≤ 65535 ∧
      (1 ≤ (1#32).toNat ∧ (1#32).toNat ≤ 65535) ∧ (1 ≤ (65535#32).toNat ∧ (65535#32).toNat ≤ 65535) :=
  ⟨block_inv, by decide +kernel⟩

/-- The same image, and one sink and one band height for each clause: no stream with Lmax = 0; of a stream of 27 bytes a
sink takes all with room for 27 and not with room for 26. -/
theorem witness_HostSurfacesTheAdvisory :
    (let img : Image := { width := 8, height := 8, pixels := List.replicate 64 ⟨1, 2, 3, 255⟩ }
     let s := block 0 0 0 0
     Inv s ∧ s.phase = .idle ∧ s.pending = none ∧ img.WellFormed = true ∧ 1 ≤ img.width.toNat ∧ 1 ≤ img.height.toNat ∧
      (8#32).toNat % 8 = 0 ∧ img.width.toNat ≤ (8#32).toNat ∧ img.width.toNat * img.height.toNat ≤ s.params.nmax ∧
      img.height.toNat * ((8#32).toNat / 8) ≤ s.params.bmax) ∧
    (sinkStream (fun _ => 0#8) 8 8 0 false).toOption = none ∧
    ((sinkStream (fun _ => 0#8) 8 1 1 false).toOption.map List.length) = some 27 ∧ 27 ≤ 27 ∧ 26 < 27 :=
  ⟨⟨block_inv, by decide +kernel⟩, by decide +kernel⟩

/-- One image per clause: W = 0, H = 0, Wc mod 8 ≠ 0; W = Wc + 1; N = NMAX + 1; H × stride = BMAX + 1. -/
theorem witness_HostReportsFailuresAndWritesNothing :
    let s := block 0 0 0 0
    (Inv s ∧ s.phase = .idle ∧ s.pending = none) ∧
      (0#32).toNat = 0 ∧ (9#32).toNat % 8 ≠ 0 ∧
      (1 ≤ (9#32).toNat ∧ 1 ≤ (1#32).toNat ∧ (8#32).toNat % 8 = 0 ∧ (8#32).toNat < (9#32).toNat) ∧
      (1 ≤ (65#32).toNat ∧ (72#32).toNat % 8 = 0 ∧ (65#32).toNat ≤ (72#32).toNat ∧
        s.params.nmax < (65#32).toNat * (1#32).toNat) ∧
      (1 ≤ (1#32).toNat ∧ 1 ≤ (17#32).toNat ∧ (1#32).toNat ≤ (8#32).toNat ∧
        s.params.bmax < (17#32).toNat * ((8#32).toNat / 8)) :=
  ⟨⟨block_inv, by decide +kernel⟩, by decide +kernel⟩

end Sys2Proof.Tests
end

section
/-! The decoder of 30_encoding.md R62 inverts the encoder: a word decodes to an instruction exactly when it is that
instruction's word. -/

namespace Sys2Proof

/-- A command word is its two fields (30_encoding.md R60). -/
theorem toNat_eq_fields (w : Word) : w.toNat = 256 * zeroField w + opField w :=
  (Nat.div_add_mod w.toNat 256).symm

@[simp] theorem opField_encode (i : Instr) : opField (encode i) = i.op := by
  cases i <;> rfl

@[simp] theorem zeroField_encode (i : Instr) : zeroField (encode i) = 0 := by
  cases i <;> rfl

/-- A word is an instruction's word when its two fields are. -/
theorem eq_encode_iff {w : Word} {i : Instr} : w = encode i ↔ zeroField w = 0 ∧ opField w = i.op := by
  constructor
  · rintro rfl
    exact ⟨zeroField_encode i, opField_encode i⟩
  · rintro ⟨hzero, hop⟩
    apply BitVec.eq_of_toNat_eq
    rw [toNat_eq_fields w, toNat_eq_fields (encode i), hzero, hop, zeroField_encode, opField_encode]

/-- Each op code of 30_encoding.md R61 is read as its own command, and no other op code is read as one. -/
theorem decodeOp_eq_ok_iff {n : Nat} {i : Instr} : decodeOp n = .ok i ↔ n = i.op := by
  constructor
  · intro h
    unfold decodeOp at h
    split at h <;> cases h <;> rfl
  · rintro rfl
    cases i <;> rfl

theorem decode_of_zeroField_ne {w : Word} (h : zeroField w ≠ 0) : decode w = .error (.zeroField (zeroField w)) :=
  if_pos h

theorem decode_of_zeroField_eq {w : Word} (h : zeroField w = 0) : decode w = decodeOp (opField w) :=
  if_neg (not_not.mpr h)

/-- 30_encoding.md R61: the words that decode to an instruction are its one exact word. -/
theorem decode_eq_ok_iff {w : Word} {i : Instr} : decode w = .ok i ↔ w = encode i := by
  rw [eq_encode_iff]
  by_cases hzero : zeroField w = 0
  · rw [decode_of_zeroField_eq hzero, decodeOp_eq_ok_iff, and_iff_right hzero]
  · simp [decode_of_zeroField_ne hzero, hzero]

@[simp] theorem decode_encode (i : Instr) : decode (encode i) = .ok i := by
  rw [decode_eq_ok_iff]

/-- 30_encoding.md R62, R63: the words that are no instruction's word are the illegal ones. -/
theorem forall_ne_encode_iff {w : Word} : (∀ i, w ≠ encode i) ↔ ∃ r, decode w = .error r := by
  constructor
  · intro h
    cases hd : decode w with
    | ok i =>
      rw [decode_eq_ok_iff] at hd
      exact absurd hd (h i)
    | error r => exact ⟨r, rfl⟩
  · rintro ⟨r, hr⟩ i rfl
    rw [decode_encode] at hr
    cases hr

/-- Settles O1: each word of the table is `encode` of its command, so both halves are the decoder inverting the
encoder. -/
theorem decodeExactlySixWords : Obligations.DecodeExactlySixWords := by
  unfold Obligations.DecodeExactlySixWords
  intro w
  exact ⟨decode_eq_ok_iff, decode_eq_ok_iff, decode_eq_ok_iff, decode_eq_ok_iff, decode_eq_ok_iff,
    decode_eq_ok_iff, forall_ne_encode_iff⟩

end Sys2Proof
end

section
/-! The luminance of 41_luminance.md: R71's blend of one channel against white and R72's weighted sum. -/

namespace Sys2Proof

open Machine

/-- An opaque pixel keeps its colour. -/
@[simp] theorem blendChannel_opaque (c : Nat) : blendChannel c 255 = c := by
  simp [blendChannel, lumaDiv]

/-- Below full opacity the alpha quotient is 0, so the colour drops out. -/
theorem blendChannel_translucent (c : Nat) {a : Nat} (ha : a ≤ 254) : blendChannel c a = 255 - a := by
  have hquot : a / 255 = 0 := Nat.div_eq_of_lt (Nat.lt_succ_of_le ha)
  simp [blendChannel, lumaDiv, hquot]

theorem blendChannel_le {c a : Nat} (hc : c ≤ 255) (ha : a ≤ 255) : blendChannel c a ≤ 255 := by
  obtain rfl | hlt := Nat.eq_or_lt_of_le ha
  · rwa [blendChannel_opaque]
  · rw [blendChannel_translucent c (Nat.le_of_lt_succ hlt)]
    exact Nat.sub_le 255 a

/-- Settles O15: the opaque and the translucent blend are the two cases of the alpha quotient. -/
theorem blendAgainstWhite : Obligations.BlendAgainstWhite := by
  unfold Obligations.BlendAgainstWhite
  intro c a hc ha
  refine ⟨rfl, ?full, ?partly, blendChannel_le hc ha⟩
  case full =>
    rintro rfl
    exact blendChannel_opaque c
  case partly =>
    intro hlt
    rw [blendChannel_translucent c hlt]
    exact ⟨rfl, by omega⟩

/-- The numerator of `luma` (41_luminance.md R72). -/
def lumaNumerator (r g b : Nat) : Nat := 55 * r + 182 * g + 18 * b

theorem luma_eq (r g b : Nat) : luma r g b = lumaNumerator r g b / 255 := rfl

/-- The weights sum to 255. -/
theorem lumaNumerator_gray (v : Nat) : lumaNumerator v v v = 255 * v := by
  unfold lumaNumerator
  omega

theorem lumaNumerator_mono {r g b r' g' b' : Nat} (hr : r ≤ r') (hg : g ≤ g') (hb : b ≤ b') :
    lumaNumerator r g b ≤ lumaNumerator r' g' b' := by
  unfold lumaNumerator
  omega

theorem lumaNumerator_le {r g b : Nat} (hr : r ≤ 255) (hg : g ≤ 255) (hb : b ≤ 255) :
    lumaNumerator r g b ≤ 65025 :=
  lumaNumerator_mono hr hg hb

@[simp] theorem luma_gray (v : Nat) : luma v v v = v := by
  rw [luma_eq, lumaNumerator_gray, Nat.mul_div_cancel_left v (by decide)]

theorem luma_mono {r g b r' g' b' : Nat} (hr : r ≤ r') (hg : g ≤ g') (hb : b ≤ b') :
    luma r g b ≤ luma r' g' b' :=
  Nat.div_le_div_right (lumaNumerator_mono hr hg hb)

/-- White bounds every pixel. -/
theorem luma_le {r g b : Nat} (hr : r ≤ 255) (hg : g ≤ 255) (hb : b ≤ 255) : luma r g b ≤ 255 :=
  (luma_mono hr hg hb).trans_eq (luma_gray 255)

/-- Only white reaches 255: the quotient does when the numerator takes its greatest value, and every weight is
positive. -/
theorem luma_eq_max_iff {r g b : Nat} (hr : r ≤ 255) (hg : g ≤ 255) (hb : b ≤ 255) :
    luma r g b = 255 ↔ r = 255 ∧ g = 255 ∧ b = 255 := by
  constructor
  · intro h
    have hnum : 65025 ≤ lumaNumerator r g b :=
      (Nat.le_div_iff_mul_le (k := 255) (by decide)).mp (h.symm.le.trans_eq (luma_eq r g b))
    unfold lumaNumerator at hnum
    omega
  · rintro ⟨rfl, rfl, rfl⟩
    exact luma_gray 255

/-- Settles O16: the sum is monotone in each channel and the identity on grays, so white bounds it. -/
theorem lumaWeightedSum : Obligations.LumaWeightedSum := by
  unfold Obligations.LumaWeightedSum
  intro r g b hr hg hb
  exact ⟨luma_eq r g b, lumaNumerator_le hr hg hb, luma_le hr hg hb, luma_eq_max_iff hr hg hb, luma_gray r⟩

end Sys2Proof
end

section
/-! The canvas offset of 44_canvas_compositor.md R101: one equation for each alignment, and its range. -/

namespace Sys2Proof

open Machine

@[simp] theorem canvasOffset_left (wc w : Nat) (rotate : Bool) : canvasOffset wc w .left rotate = 0 := rfl

@[simp] theorem canvasOffset_center (wc w : Nat) (rotate : Bool) :
    canvasOffset wc w .center rotate = (wc - w) / 2 := rfl

@[simp] theorem canvasOffset_right (wc w : Nat) (rotate : Bool) : canvasOffset wc w .right rotate = wc - w := rfl

/-- An unset alignment means right for a rotated image and left for one that is not. -/
@[simp] theorem canvasOffset_unset (wc w : Nat) (rotate : Bool) :
    canvasOffset wc w .unset rotate = if rotate then wc - w else 0 := by
  cases rotate <;> rfl

/-- Settles O24: each alignment has its equation, D0's numbers are its values at Wc = 512 and W = 100, and the range is
`canvasOffset_fits` with the image's width on either side. -/
theorem canvasOffsetByAlignment : Obligations.CanvasOffsetByAlignment := by
  unfold Obligations.CanvasOffsetByAlignment
  refine ⟨fun wc w hw => ⟨?aligned, ?unset, ?rotated, ?range⟩, ?numbers⟩
  case aligned =>
    intro rotate
    exact ⟨canvasOffset_left wc w rotate, canvasOffset_center wc w rotate, canvasOffset_right wc w rotate⟩
  case unset => exact canvasOffset_unset wc w false
  case rotated => exact canvasOffset_unset wc w true
  case range =>
    intro align rotate
    have hfits : w + canvasOffset wc w align rotate ≤ wc := canvasOffset_fits align rotate hw
    exact ⟨Nat.le_sub_of_add_le' hfits, Nat.add_comm w _ ▸ hfits⟩
  case numbers => simp

end Sys2Proof
end

section
/-! The bands of 48_host_framing.md R122: when a band exists, the rows it holds, and the rows of the first ones. -/

namespace Sys2Proof

open Machine

/-- The bands cover the rows exactly when their number is at least ceil(H / Lmax). -/
theorem bandCount_le_iff {h lmax n : Nat} (hl : 1 ≤ lmax) : bandCount h lmax ≤ n ↔ h ≤ n * lmax := by
  rw [Nat.mul_comm]
  exact ceilDiv_le_iff_le_mul hl

/-- A band exists exactly when its first row does. -/
theorem lt_bandCount_iff {h lmax b : Nat} (hl : 1 ≤ lmax) : b < bandCount h lmax ↔ b * lmax < h := by
  rw [← not_le, bandCount_le_iff hl, not_le]

theorem bandRows_pos {h lmax b : Nat} (hl : 1 ≤ lmax) (hb : b * lmax < h) : 1 ≤ bandRows h lmax b :=
  le_min hl (Nat.sub_pos_of_lt hb)

/-- A band ends where the next one begins, or at the last row. -/
theorem bandStart_add_bandRows {h lmax b : Nat} (hb : b * lmax ≤ h) :
    b * lmax + bandRows h lmax b = min ((b + 1) * lmax) h := by
  rw [bandRows, Nat.succ_mul, ← Nat.add_min_add_left, Nat.add_sub_cancel' hb]

/-- The first `n` bands hold the rows above the start of band `n`. -/
theorem sum_bandRows_range (h lmax n : Nat) :
    ((List.range n).map (bandRows h lmax)).sum = min (n * lmax) h := by
  induction n with
  | zero => simp
  | succ n ih =>
    rw [List.sum_range_succ, ih]
    rcases le_total (n * lmax) h with hn | hn
    · rw [min_eq_left hn, bandStart_add_bandRows hn]
    · have hnext : h ≤ (n + 1) * lmax := hn.trans (Nat.mul_le_mul_right lmax n.le_succ)
      rw [min_eq_right hn, min_eq_right hnext, bandRows, Nat.sub_eq_zero_of_le hn, Nat.min_zero, Nat.add_zero]

/-- Settles O50: the bands that exist are those whose first row does, each ends where the next begins, and together
they hold the rows above the end of the last. -/
theorem bandsCutTheRows : Obligations.BandsCutTheRows := by
  unfold Obligations.BandsCutTheRows
  refine ⟨by decide, fun h lmax hl => ?_⟩
  have hcover : h ≤ bandCount h lmax * lmax := (bandCount_le_iff hl).mp le_rfl
  refine ⟨hcover, ?lastStarts, ?band, ?total⟩
  case lastStarts =>
    intro hh
    have hsome : 0 < bandCount h lmax := (lt_bandCount_iff hl).mpr (by omega)
    exact (lt_bandCount_iff hl).mp (Nat.sub_one_lt_of_lt hsome)
  case band =>
    intro b hb
    have hstart : b * lmax < h := (lt_bandCount_iff hl).mp hb
    exact ⟨rfl, bandRows_pos hl hstart, bandStart_add_bandRows hstart.le⟩
  case total => rw [sum_bandRows_range, min_eq_right hcover]

end Sys2Proof
end

section
/-! The store command of 48_host_framing.md R123: each field of its table at its offset, and what the little-endian
fields are read as. -/

namespace Sys2Proof

open Machine

@[simp] theorem length_littleEndianBytes (k v : Nat) : (littleEndianBytes k v).length = k := by
  induction k generalizing v with
  | zero => rfl
  | succ k ih => rw [littleEndianBytes, List.length_cons, ih]

/-- `k` bytes keep a number modulo 256 ^ k. -/
theorem littleEndian_littleEndianBytes (k v : Nat) : littleEndian (littleEndianBytes k v) = v % 256 ^ k := by
  induction k generalizing v with
  | zero => exact (Nat.mod_one v).symm
  | succ k ih => rw [littleEndianBytes, littleEndian, ih, BitVec.toNat_ofNat, Nat.pow_succ' (m := 256), Nat.mod_mul]

/-- A field reads back the number it was written with when the number fits. -/
theorem littleEndian_littleEndianBytes_of_lt {k v : Nat} (hv : v < 256 ^ k) :
    littleEndian (littleEndianBytes k v) = v := by
  rw [littleEndian_littleEndianBytes, Nat.mod_eq_of_lt hv]

section
variable (bmp : Nat → Byte) (wc r0 k : Nat)

theorem storeCommand_opcode : (storeCommand bmp wc r0 k).take 3 = [0x1D#8, 0x38#8, 0x4C#8] := rfl

theorem storeCommand_lengthField :
    ((storeCommand bmp wc r0 k).drop 3).take 4 = littleEndianBytes 4 (10 + k * (wc / 8)) := rfl

theorem storeCommand_parameters :
    ((storeCommand bmp wc r0 k).drop 7).take 6 = [0x30#8, 0x70#8, 0x30#8, 0x01#8, 0x01#8, 0x31#8] := rfl

theorem storeCommand_widthField : ((storeCommand bmp wc r0 k).drop 13).take 2 = littleEndianBytes 2 wc := rfl

theorem storeCommand_rowsField : ((storeCommand bmp wc r0 k).drop 15).take 2 = littleEndianBytes 2 k := rfl

theorem storeCommand_payload :
    (storeCommand bmp wc r0 k).drop 17 = (List.range (k * (wc / 8))).map fun j => bmp (r0 * (wc / 8) + j) := rfl

@[simp] theorem length_storeCommand : (storeCommand bmp wc r0 k).length = 17 + k * (wc / 8) := by
  simp only [storeCommand, List.length_append, length_littleEndianBytes, List.length_map, List.length_range,
    List.length_cons, List.length_nil]

end

/-- The length field counts the 10 header bytes after it and the payload, which four bytes hold for every canvas width
and band height of two bytes (48_host_framing.md R123). -/
theorem storeCommand_lengthField_lt {wc k : Nat} (hwc : wc ≤ 65535) (hk : k ≤ 65535) :
    10 + k * (wc / 8) < 256 ^ 4 := by
  have hpayload : k * (wc / 8) ≤ 65535 * (65535 / 8) := Nat.mul_le_mul hk (Nat.div_le_div_right hwc)
  omega

/-- Settles O52: each field stands at its offset, and the three numbers fit the fields that hold them. -/
theorem storeCommandLayout : Obligations.StoreCommandLayout := by
  unfold Obligations.StoreCommandLayout
  intro bmp wc r0 k hwc hk
  refine ⟨length_storeCommand bmp wc r0 k, storeCommand_opcode bmp wc r0 k, ?size,
    storeCommand_parameters bmp wc r0 k, ?width, ?rows, ?payload⟩
  case size =>
    rw [storeCommand_lengthField, littleEndian_littleEndianBytes_of_lt (storeCommand_lengthField_lt hwc hk)]
  case width => rw [storeCommand_widthField, littleEndian_littleEndianBytes_of_lt (by omega)]
  case rows => rw [storeCommand_rowsField, littleEndian_littleEndianBytes_of_lt (by omega)]
  case payload =>
    intro j hj
    rw [storeCommand_payload, List.getElem?_map, List.getElem?_range hj, Option.map_some]

end Sys2Proof
end

section
/-! Command errors (60_exceptions.md R142 to R149): which words and which commands are turned away, and with what
record. -/

namespace Sys2Proof

open Machine

/-! ### Illegal words -/

theorem op_mem_opCodes (i : Instr) : i.op ∈ opCodes := by
  cases i <;> decide

/-- A word with a bit set in 31:8, or with an unassigned op code, is illegal (30_encoding.md R63). -/
theorem decode_error_of_fields {w : Word} (h : zeroField w ≠ 0 ∨ opField w ∉ opCodes) :
    ∃ r, decode w = .error r := by
  refine forall_ne_encode_iff.mp ?_
  rintro i rfl
  rcases h with hzero | hop
  · exact hzero (zeroField_encode i)
  · rw [opField_encode] at hop
    exact hop (op_mem_opCodes i)

theorem perform_of_ok {w : Word} {i : Instr} (h : decode w = .ok i) (s : State) : perform w s = exec i s := by
  unfold perform
  rw [h]

theorem perform_of_error {w : Word} {r : Illegal} (h : decode w = .error r) (s : State) :
    perform w s = .next (performIllegal w s) := by
  unfold perform
  rw [h]

theorem performIllegal_of_fail {s : State} (w : Word) (h : s.phase = .fail) : performIllegal w s = retire s :=
  if_pos h

theorem performIllegal_of_not_fail {s : State} (w : Word) (h : s.phase ≠ .fail) :
    performIllegal w s = performError .eIll w s :=
  if_neg h

theorem engineTurn_of_pending {s : State} {w : Word} (h : s.pending = some w) : engineTurn s = perform w s :=
  engineTurn_of_some (rest := s.inputs) h

/-- Settles O8: such a word is illegal, and outside FAIL an illegal word leaves the error record of E_ILL. -/
theorem illegalWordRaisesEIll : Obligations.IllegalWordRaisesEIll := by
  unfold Obligations.IllegalWordRaisesEIll
  intro s w hw hphase hfields
  obtain ⟨r, hr⟩ := decode_error_of_fields hfields
  rw [engineTurn_of_pending hw, perform_of_error hr, performIllegal_of_not_fail w hphase]
  rfl

/-! ### The three ways a command is turned away -/

theorem turnedAway_of_fail {i : Instr} {s : State} (hphase : s.phase = .fail) (hi : i ≠ .clr) :
    turnedAway i s = some (retire s) :=
  if_pos ⟨hphase, hi⟩

theorem turnedAway_of_not_legal {i : Instr} {s : State} (hphase : s.phase ≠ .fail)
    (hlegal : legal i s.phase s.photo = false) : turnedAway i s = some (performError .eSeq (encode i) s) := by
  unfold turnedAway
  rw [if_neg fun h => hphase h.1, if_pos hlegal]

theorem turnedAway_of_checks {i : Instr} {s : State} {e : ErrCode} (hphase : s.phase ≠ .fail)
    (hlegal : legal i s.phase s.photo = true) (he : checks i s = some e) :
    turnedAway i s = some (performError e (encode i) s) := by
  unfold turnedAway
  rw [if_neg fun h => hphase h.1, if_neg (by simp [hlegal]), he, Option.map_some]

/-- In FAIL every word but that of CLR, legal or not, is ignored (60_exceptions.md R149). -/
theorem perform_of_fail {s : State} {w : Word} (hphase : s.phase = .fail) (hw : w ≠ encode .clr) :
    perform w s = .next (retire s) := by
  cases hd : decode w with
  | ok i =>
    have hi : i ≠ .clr := by
      rintro rfl
      exact hw (decode_eq_ok_iff.mp hd)
    rw [perform_of_ok hd, exec_of_turnedAway (turnedAway_of_fail hphase hi)]
  | error r => rw [perform_of_error hd, performIllegal_of_fail w hphase]

/-- Settles O9: the word is ignored, and under the invariant a busy block in FAIL already shows DONE = 0 and ERR = 1. -/
theorem failureIsSticky : Obligations.FailureIsSticky := by
  unfold Obligations.FailureIsSticky
  intro s w hw hphase hclr
  have hturn : engineTurn s = .next (retire s) := by
    rw [engineTurn_of_pending hw, perform_of_fail hphase hclr]
  refine ⟨hturn, ?_⟩
  intro hinv t ht
  obtain rfl : retire s = t := Host.Outcome.next.inj (hturn.symm.trans ht)
  have hbusy : s.busy = true := Option.isSome_of_eq_some hw
  exact ⟨hinv.busy_not_done hbusy, hinv.err_iff.mpr hphase, rfl, rfl⟩

/-- The complement of the legality table (45_sequencing_commands.md R112). -/
theorem legal_eq_false_iff {i : Instr} {p : Phase} {photo : Bool} :
    legal i p photo = false ↔
      (i = .lum ∨ i = .run) ∧ p ≠ .idle ∨
        i = .eq ∧ ¬(p = .lumd ∧ photo = true) ∨
        i = .dth ∧ p ≠ .eqd ∨
        i = .pack ∧ ¬(p = .lumd ∧ photo = false ∨ p = .dthd) := by
  cases i <;> simp [legal]

/-- Settles O10: the condition is the complement of the legality table. -/
theorem outOfPhaseRaisesESeq : Obligations.OutOfPhaseRaisesESeq := by
  unfold Obligations.OutOfPhaseRaisesESeq
  intro s i hphase hseq
  exact exec_of_turnedAway (turnedAway_of_not_legal hphase (legal_eq_false_iff.mpr hseq))

end Sys2Proof
end

section
/-! The start checks of LUM and RUN (45_sequencing_commands.md R113): the code of each failing line, and completion when
every line passes. -/

namespace Sys2Proof

open Machine

/-! ### One equation per line -/

theorem startError_eq_eCfg {s : State} (h : s.w = 0 ∨ s.h = 0 ∨ s.wc % 8 ≠ 0) : startError s = some .eCfg :=
  if_pos h

theorem startError_eq_eCap {s : State} (hw : 1 ≤ s.w) (hh : 1 ≤ s.h) (hwc : s.wc % 8 = 0) (hcap : s.wc < s.w) :
    startError s = some .eCap := by
  unfold startError
  rw [if_neg (by omega), if_pos hcap]

theorem startError_eq_eAlloc {s : State} (hw : 1 ≤ s.w) (hh : 1 ≤ s.h) (hwc : s.wc % 8 = 0) (hcap : s.w ≤ s.wc)
    (halloc : s.params.nmax < s.w * s.h ∨ s.params.bmax < s.h * (s.wc / 8)) : startError s = some .eAlloc := by
  unfold startError
  rw [if_neg (by omega), if_neg (by omega), if_pos halloc]

/-! ### A command that starts a conversion -/

@[simp] theorem runBody_phase (s : State) : (runBody s).phase = .packd := rfl

@[simp] theorem runBody_errcode (s : State) : (runBody s).errcode = s.errcode := by
  cases h : s.photo
  · simp [runBody_noPhoto h]
  · simp [runBody_photo h]

section
variable {s : State} {i : Instr} (hi : i = .lum ∨ i = .run)
include hi

theorem checks_of_start : checks i s = startError s := by
  rcases hi with rfl | rfl <;> rfl

theorem legal_of_start (hphase : s.phase = .idle) : legal i s.phase s.photo = true := by
  rw [hphase]
  rcases hi with rfl | rfl <;> rfl

theorem engineFault_of_start : engineFault i s = none := by
  rcases hi with rfl | rfl <;> rfl

theorem bodyOf_phase_of_start : (bodyOf i s).phase ≠ .fail := by
  rcases hi with rfl | rfl <;> simp [bodyOf]

theorem bodyOf_errcode_of_start : (bodyOf i s).errcode = s.errcode := by
  rcases hi with rfl | rfl <;> simp [bodyOf]

/-- The first failing line gives the error record its code. -/
theorem exec_of_startError {e : ErrCode} (hphase : s.phase = .idle) (he : startError s = some e) :
    exec i s = .next (performError e (encode i) s) := by
  refine exec_of_turnedAway (turnedAway_of_checks ?_ (legal_of_start hi hphase) ?_)
  · simp [hphase]
  · rw [checks_of_start hi, he]

/-- Operands that pass every line are converted. -/
theorem exec_of_geometry (hphase : s.phase = .idle) (hgeo : GeometryOk s) :
    exec i s = .next (complete (bodyOf i s)) := by
  refine exec_of_executes (turnedAway_eq_none.mpr ⟨?_, legal_of_start hi hphase, ?_⟩) (engineFault_of_start hi)
  · simp [hphase]
  · rw [checks_of_start hi, startError_eq_none_iff.mpr hgeo]

end

/-- Settles O11: each line has its code when the lines before it pass, and a conversion with the geometry completes. -/
theorem startChecksInOrder : Obligations.StartChecksInOrder := by
  unfold Obligations.StartChecksInOrder
  intro s i hi hphase
  refine ⟨?config, ?capacity, ?allocation, ?completes⟩
  case config => exact fun hcfg => exec_of_startError hi hphase (startError_eq_eCfg hcfg)
  case capacity =>
    intro hw hh hwc hcap
    exact exec_of_startError hi hphase (startError_eq_eCap hw hh hwc hcap)
  case allocation =>
    intro hw hh hwc hcap halloc
    exact exec_of_startError hi hphase (startError_eq_eAlloc hw hh hwc hcap halloc)
  case completes =>
    intro hgeo
    exact ⟨_, exec_of_geometry hi hphase hgeo, bodyOf_phase_of_start hi, bodyOf_errcode_of_start hi, rfl⟩

end Sys2Proof
end

section
/-! The advisory WARN (60_exceptions.md R156): no part of a perform step reads it, so each part commutes with writing
it. -/

namespace Sys2Proof

open Machine

/-- `s` with WARN = `b`. -/
def setWarn (b : Bool) (s : State) : State := { s with warn := b }

@[simp] theorem setWarn_phase (b : Bool) (s : State) : (setWarn b s).phase = s.phase := rfl

@[simp] theorem setWarn_photo (b : Bool) (s : State) : (setWarn b s).photo = s.photo := rfl

theorem checks_setWarn (i : Instr) (b : Bool) (s : State) : checks i (setWarn b s) = checks i s := by
  cases i <;> rfl

theorem engineFault_setWarn (i : Instr) (b : Bool) (s : State) : engineFault i (setWarn b s) = engineFault i s := by
  cases i <;> rfl

/-- A command is turned away whatever WARN is, and then keeps it. -/
theorem turnedAway_setWarn (i : Instr) (b : Bool) (s : State) :
    turnedAway i (setWarn b s) = (turnedAway i s).map (setWarn b) := by
  unfold turnedAway
  rw [setWarn_phase, setWarn_photo, checks_setWarn]
  split_ifs
  · rfl
  · rfl
  · rw [Option.map_map]
    rfl

/-- EQ, DTH and PACK keep WARN; LUM, RUN and CLR write it, whatever it was. -/
theorem bodyOf_setWarn (i : Instr) (b : Bool) (s : State) :
    ∃ c, bodyOf i (setWarn b s) = setWarn c (bodyOf i s) := by
  cases i
  case eq => exact ⟨b, rfl⟩
  case dth => exact ⟨b, rfl⟩
  case pack => exact ⟨b, rfl⟩
  case lum => exact ⟨(lumBody s).warn, rfl⟩
  case run => exact ⟨(runBody s).warn, rfl⟩
  case clr => exact ⟨(clearErrors s).warn, rfl⟩

/-- A perform step answers a next state when the command is turned away to it, or executes and completes in it. -/
theorem exec_eq_next_iff {i : Instr} {s t : State} :
    exec i s = .next t ↔
      turnedAway i s = some t ∨
        (turnedAway i s = none ∧ engineFault i s = none ∧ complete (bodyOf i s) = t) := by
  rw [exec_eq]
  cases turnedAway i s with
  | some u => simp
  | none => cases engineFault i s <;> simp

/-- With WARN set either way a command has the same outcome but for WARN. -/
theorem exec_setWarn {i : Instr} {s t : State} (b : Bool) (h : exec i s = .next t) :
    ∃ c, exec i (setWarn b s) = .next (setWarn c t) := by
  simp only [exec_eq_next_iff, turnedAway_setWarn, engineFault_setWarn]
  rcases exec_eq_next_iff.mp h with haway | ⟨hexec, hfault, rfl⟩
  · refine ⟨b, .inl ?_⟩
    rw [haway, Option.map_some]
  · obtain ⟨c, hbody⟩ := bodyOf_setWarn i b s
    refine ⟨c, .inr ⟨?_, hfault, ?_⟩⟩
    · rw [hexec, Option.map_none]
    · rw [hbody]
      rfl

/-- Settles O31: the two outcomes differ in WARN at most, which `irq` does not read. -/
theorem advisoryBlocksNothing : Obligations.AdvisoryBlocksNothing := by
  unfold Obligations.AdvisoryBlocksNothing
  intro s t i b h
  obtain ⟨c, hc⟩ := exec_setWarn b h
  exact ⟨setWarn c t, hc, rfl, rfl, rfl⟩

end Sys2Proof
end

section
/-! The bytes of a CMD write (30_encoding.md R60): laid out and read back they are the word, so decoding them is
decoding the word. -/

namespace Sys2Proof

/-- The four bytes of a word are read back as the word (20_memory.md R41). -/
@[simp] theorem ofNat_littleEndianBytes (w : Word) :
    BitVec.ofNat 32 (littleEndian (littleEndianBytes 4 w.toNat)) = w := by
  rw [littleEndian_littleEndianBytes_of_lt w.isLt, BitVec.ofNat_toNat, BitVec.setWidth_eq]

theorem decodeBytes_littleEndianBytes (w : Word) : decodeBytes (littleEndianBytes 4 w.toNat) = some (decode w) := by
  unfold decodeBytes
  rw [if_pos (length_littleEndianBytes 4 _), ofNat_littleEndianBytes]

/-- Settles O2: the bytes decode as their word, and `decode` inverts `encode`. -/
theorem commandBytesDecodeAsTheirWord : Obligations.CommandBytesDecodeAsTheirWord := by
  unfold Obligations.CommandBytesDecodeAsTheirWord
  refine ⟨decodeBytes_littleEndianBytes, fun i _ => ?_⟩
  rw [decodeBytes_littleEndianBytes, decode_encode]

/-- Settles O3: the six words are those of the commands; the other four fail in bits 7:0 or in bits 31:8. -/
theorem writtenCommandWords : Obligations.WrittenCommandWords := by
  unfold Obligations.WrittenCommandWords
  exact ⟨decode_encode .lum, decode_encode .eq, decode_encode .dth, decode_encode .pack, decode_encode .run,
    decode_encode .clr, decode_of_zeroField_eq rfl, decode_of_zeroField_eq rfl,
    decode_of_zeroField_ne (by decide), decode_of_zeroField_ne (by decide)⟩

end Sys2Proof
end

section
/-! What the six commands do and leave (45_sequencing_commands.md R111 to R117): the phase each ends in, and the
registers and memories that none of them writes. -/

namespace Sys2Proof.Machine

/-- What holds after LUM and is kept by the later stages holds after RUN (45_sequencing_commands.md R114). -/
theorem runBody_induction {motive : State → Prop} {s : State} (lum : motive (lumBody s))
    (eq : ∀ t, motive t → motive (eqBody t)) (dth : ∀ t, motive t → motive (dthBody t))
    (pack : ∀ t, motive t → motive (packBody t)) : motive (runBody s) := by
  cases hphoto : s.photo
  · rw [runBody_noPhoto hphoto]
    exact pack _ lum
  · rw [runBody_photo hphoto]
    exact pack _ (dth _ (eq _ lum))

/-! ### What no command writes -/

/-- The part of the state that no command writes, but for PENDING (45_sequencing_commands.md R115). -/
def keptByCommands (s : State) : (Word × Word × Word × BitVec 4) × (BitVec 2 × Bool × List Host.Cell) ×
    (Params × Nat × List Input × List Word) :=
  ((s.width, s.height, s.canvasWidth, s.opts), (s.irqEn, s.buserr, s.pix), s.params, s.draw, s.inputs, s.replies)

theorem keptByCommands_bodyOf (i : Instr) (s : State) : keptByCommands (bodyOf i s) = keptByCommands s := by
  cases i
  case run =>
    exact runBody_induction (motive := fun t => keptByCommands t = keptByCommands s) rfl (fun _ h => h)
      (fun _ h => h) (fun _ h => h)
  all_goals rfl

theorem keptByCommands_exec {i : Instr} {s t : State} (h : exec i s = .next t) :
    keptByCommands t = keptByCommands s := by
  rcases exec_next h with ⟨_, _, rfl⟩ | ⟨_, _, e, _, rfl⟩ | ⟨_, _, rfl⟩
  · rfl
  · rfl
  · exact keptByCommands_bodyOf i s

/-- A perform step ends with BUSY = 0 (45_sequencing_commands.md R111). -/
theorem exec_pending {i : Instr} {s t : State} (h : exec i s = .next t) : t.pending = none := by
  rcases exec_next h with ⟨_, _, rfl⟩ | ⟨_, _, e, _, rfl⟩ | ⟨_, _, rfl⟩ <;> rfl

/-- Settles O30: every case of `exec_next` keeps `keptByCommands` and clears PENDING. -/
theorem commandsKeepOperandsAndPix : Obligations.CommandsKeepOperandsAndPix := by
  unfold Obligations.CommandsKeepOperandsAndPix
  intro s t i h
  have hkept := keptByCommands_exec h
  simp only [keptByCommands, Prod.mk.injEq] at hkept
  obtain ⟨⟨hwidth, hheight, hcanvas, hopts⟩, ⟨hirq, hbuserr, hpix⟩, hparams, hdraw, hinputs, hreplies⟩ := hkept
  exact ⟨hwidth, hheight, hcanvas, hopts, hirq, hbuserr, hpix, hparams, hdraw, hinputs, hreplies, exec_pending h⟩

/-! ### The phase after a command -/

/-- The phase a completed command ends in (45_sequencing_commands.md R116). -/
def phaseAfter : Instr → Phase
  | .lum => .lumd
  | .eq => .eqd
  | .dth => .dthd
  | .pack => .packd
  | .run => .packd
  | .clr => .idle

@[simp] theorem bodyOf_phase (i : Instr) (s : State) : (bodyOf i s).phase = phaseAfter i := by
  cases i <;> rfl

theorem phaseAfter_ne_fail (i : Instr) : phaseAfter i ≠ .fail := by
  cases i <;> decide

/-- Settles O12: of the three cases of `exec_next` only the command error ends in FAIL, and it is the error record. -/
theorem errorsArePrecise : Obligations.ErrorsArePrecise := by
  unfold Obligations.ErrorsArePrecise
  intro s t i h hs ht
  rcases exec_next h with ⟨hfail, _, _⟩ | ⟨_, hi, e, he, rfl⟩ | ⟨_, _, rfl⟩
  · exact absurd hfail hs
  · exact ⟨hi, e, he, rfl⟩
  · exact absurd ((bodyOf_phase i s).symm.trans ht) (phaseAfter_ne_fail i)

/-- Settles O13: a command that completes was legal, which gives the row of the table; one turned away stays in FAIL or
enters it. -/
theorem phaseFollowsTheTransitionTable : Obligations.PhaseFollowsTheTransitionTable := by
  unfold Obligations.PhaseFollowsTheTransitionTable
  intro s t i h
  rcases exec_next h with ⟨hfail, hi, rfl⟩ | ⟨hs, hi, e, _, rfl⟩ | ⟨hexec, _, rfl⟩
  · simp [hfail, hi]
  · simp [hs, hi]
  · obtain ⟨_, hlegal, _⟩ := turnedAway_eq_none.mp hexec
    have hphase : (complete (bodyOf i s)).phase = phaseAfter i := bodyOf_phase i s
    have hdone : (complete (bodyOf i s)).done = true := rfl
    rw [hphase, hdone]
    cases i
    case clr => simp [phaseAfter]
    all_goals simpa [legal, phaseAfter] using hlegal

/-! ### CLR -/

theorem turnedAway_clr (s : State) : turnedAway .clr s = none :=
  turnedAway_eq_none.mpr ⟨fun _ => rfl, rfl, rfl⟩

@[simp] theorem exec_clr (s : State) : exec .clr s = .next (complete (clearErrors s)) :=
  exec_of_executes (turnedAway_clr s) rfl

/-- Settles O29: CLR is never turned away, and the record is its body completed. -/
theorem clrReturnsToIdle : Obligations.ClrReturnsToIdle := by
  unfold Obligations.ClrReturnsToIdle
  exact exec_clr

end Sys2Proof.Machine
end

section
/-! What a Host access writes (20_memory.md R42, R43, R45): one frame for every access, a smaller one outside IDLE,
where the operand registers are locked (10_state.md R25), the extent of PIX, and DONE beside BUSY. -/

namespace Sys2Proof.Machine

/-- `t` is `s` but for what a Host access can write, and outside IDLE but for what it can write there. -/
def HostFrame (s t : State) : Prop :=
  t = { s with
    width := t.width, height := t.height, canvasWidth := t.canvasWidth, opts := t.opts, pix := t.pix, irqEn := t.irqEn
    pending := t.pending, done := t.done, buserr := t.buserr, replies := t.replies } ∧
  (s.phase ≠ .idle → t = { s with
    pix := t.pix, irqEn := t.irqEn, pending := t.pending, done := t.done, buserr := t.buserr, replies := t.replies })

/-- What the invariant says of PIX, BUSY and DONE is kept from `s` to `t`. -/
def HostKeeps (s t : State) : Prop :=
  (Memory.wf (4 * s.params.nmax) s.pix = true → Memory.wf (4 * s.params.nmax) t.pix = true) ∧
  ((s.busy = true → s.done = false) → t.busy = true → t.done = false)

theorem regWrite_host (r : RegName) (d : Word) (s : State) :
    HostFrame s (regWrite r d s) ∧ HostKeeps s (regWrite r d s) := by
  rcases regWrite_cases r d s with h | h | h | ⟨_, h⟩ | ⟨hidle, ⟨_, h⟩ | ⟨_, h⟩ | ⟨_, h⟩ | ⟨_, h⟩⟩ <;> rw [h]
  case inl => exact ⟨⟨rfl, fun _ => rfl⟩, id, id⟩
  case inr.inl => exact ⟨⟨rfl, fun _ => rfl⟩, id, fun _ _ => rfl⟩
  case inr.inr.inl => exact ⟨⟨rfl, fun _ => rfl⟩, id, fun hdone hbusy => by simp [hdone hbusy]⟩
  case inr.inr.inr.inl => exact ⟨⟨rfl, fun _ => rfl⟩, id, id⟩
  all_goals exact ⟨⟨rfl, fun hlock => absurd hidle hlock⟩, id, id⟩

theorem memWrite_host (space : Space) (addr n : Nat) (v : Word) (s : State) :
    HostFrame s (memWrite space addr n v s) ∧ HostKeeps s (memWrite space addr n v s) := by
  rcases memWrite_cases space addr n v s with h | ⟨r, _, _, _, h⟩ | ⟨_, hfits, h⟩ <;> rw [h]
  · exact ⟨⟨rfl, fun _ => rfl⟩, id, id⟩
  · exact regWrite_host r v s
  · exact ⟨⟨rfl, fun _ => rfl⟩, pixStore_wf s.pix addr n v hfits, id⟩

theorem hostAccess_host (a : Access) (s : State) : HostFrame s (hostAccess a s) ∧ HostKeeps s (hostAccess a s) := by
  rcases hostAccess_cases a s with ⟨space, addr, n, v, _, h⟩ | ⟨_, _, _, _, _, h | h⟩ <;> rw [h]
  · exact memWrite_host space addr n v s
  · exact ⟨⟨rfl, fun _ => rfl⟩, id, id⟩
  · exact ⟨⟨rfl, fun _ => rfl⟩, id, id⟩

section
variable (a : Access) (s : State)

theorem hostAccess_frame :
    hostAccess a s = { s with
      width := (hostAccess a s).width, height := (hostAccess a s).height, canvasWidth := (hostAccess a s).canvasWidth
      opts := (hostAccess a s).opts, pix := (hostAccess a s).pix, irqEn := (hostAccess a s).irqEn
      pending := (hostAccess a s).pending, done := (hostAccess a s).done, buserr := (hostAccess a s).buserr
      replies := (hostAccess a s).replies } := by
  obtain ⟨⟨hframe, _⟩, _⟩ := hostAccess_host a s
  exact hframe

theorem hostAccess_locked (hlock : s.phase ≠ .idle) :
    hostAccess a s = { s with
      pix := (hostAccess a s).pix, irqEn := (hostAccess a s).irqEn, pending := (hostAccess a s).pending
      done := (hostAccess a s).done, buserr := (hostAccess a s).buserr, replies := (hostAccess a s).replies } := by
  obtain ⟨⟨_, hlocked⟩, _⟩ := hostAccess_host a s
  exact hlocked hlock

theorem hostAccess_pix_wf (h : Memory.wf (4 * s.params.nmax) s.pix = true) :
    Memory.wf (4 * s.params.nmax) (hostAccess a s).pix = true := by
  obtain ⟨_, hpix, _⟩ := hostAccess_host a s
  exact hpix h

theorem hostAccess_busy_not_done (h : s.busy = true → s.done = false) :
    (hostAccess a s).busy = true → (hostAccess a s).done = false := by
  obtain ⟨_, _, hdone⟩ := hostAccess_host a s
  exact hdone h

end

/-- A quiescent block answers the Host's access at once. -/
theorem step_of_quiescent {s : State} {a : Access} {rest : List Input} (hp : s.pending = none)
    (h : s.inputs = .access a :: rest) : step s = .next (hostAccess a { s with inputs := rest }) :=
  step_of_access h (.inl (by simp [State.busy, hp]))

/-- Settles O40: nothing listed is among what a Host access can write. -/
theorem hostKeepsEngineBuffers : Obligations.HostKeepsEngineBuffers := by
  unfold Obligations.HostKeepsEngineBuffers
  intro s t a rest hp hin h
  obtain rfl : hostAccess a { s with inputs := rest } = t :=
    Host.Outcome.next.inj ((step_of_quiescent hp hin).symm.trans h)
  rw [hostAccess_frame]
  simp only [and_self]

end Sys2Proof.Machine
end

section
/-! The memories stay in canonical form, inside their extents (20_memory.md R40, R54): each body under the checks that
let it execute, the Host's accesses, reset, and so every step. -/

namespace Sys2Proof.Machine

/-- `memoriesOk`, one memory at a time: HIST, LUT, PIX, GRAY, BMP. -/
def Canonical (s : State) : Prop :=
  Memory.wf 256 s.hist = true ∧ Memory.wf 256 s.lut = true ∧ Memory.wf (4 * s.params.nmax) s.pix = true ∧
    Memory.wf s.params.nmax s.gray = true ∧ Memory.wf s.params.bmax s.bmp = true

theorem memoriesOk_iff {s : State} : memoriesOk s = true ↔ Canonical s := by
  simp only [memoriesOk, Canonical, Bool.and_eq_true, and_assoc]

theorem grayFits_iff {s : State} : s.grayFits = true ↔ s.n ≤ s.params.nmax :=
  decide_eq_true_iff

theorem canvasFits_iff {s : State} :
    s.canvasFits = true ↔ s.wc % 8 = 0 ∧ s.w ≤ s.wc ∧ s.h * s.stride ≤ s.params.bmax := by
  simp [State.canvasFits, and_assoc]

/-! ### The conditions under which EQ, DTH and PACK execute (log 9) -/

theorem engineFault_eq_none_iff_eq {s : State} :
    engineFault .eq s = none ↔ s.n ≠ 0 ∧ s.n ≤ s.params.nmax := by
  rw [← grayFits_iff]
  by_cases hn : s.n = 0 <;> simp [engineFault, hn]

theorem engineFault_eq_none_iff_dth {s : State} : engineFault .dth s = none ↔ s.n ≤ s.params.nmax := by
  rw [← grayFits_iff]
  simp [engineFault]

theorem engineFault_eq_none_iff_pack {s : State} :
    engineFault .pack s = none ↔
      s.n ≤ s.params.nmax ∧ s.wc % 8 = 0 ∧ s.w ≤ s.wc ∧ s.h * s.stride ≤ s.params.bmax := by
  rw [← grayFits_iff, ← canvasFits_iff]
  cases hg : s.grayFits <;> simp [engineFault, hg]

/-! ### The bodies -/

namespace Canonical

variable {s : State} (h : Canonical s)
include h

theorem lumBody (hn : s.n ≤ s.params.nmax) : Canonical (lumBody s) := by
  obtain ⟨_, hlut, hpix, hgray, hbmp⟩ := h
  exact ⟨histogram_wf _ _ _, hlut, hpix, Memory.wf_overwrite _ hn hgray, hbmp⟩

theorem eqBody (hn : s.n ≤ s.params.nmax) : Canonical (eqBody s) := by
  obtain ⟨hhist, _, hpix, hgray, hbmp⟩ := h
  exact ⟨hhist, lutTable_wf s, hpix, Memory.wf_overwrite _ hn hgray, hbmp⟩

theorem dthBody (hn : s.n ≤ s.params.nmax) : Canonical (dthBody s) := by
  obtain ⟨hhist, hlut, hpix, hgray, hbmp⟩ := h
  exact ⟨hhist, hlut, hpix, disperse_wf hn hgray, hbmp⟩

theorem packBody (h8 : s.wc % 8 = 0) (hw : s.w ≤ s.wc) (hb : s.h * s.stride ≤ s.params.bmax) :
    Canonical (packBody s) := by
  obtain ⟨hhist, hlut, hpix, hgray, hbmp⟩ := h
  exact ⟨hhist, hlut, hpix, hgray, packed_wf s h8 (canvasOffset_fits s.align s.rotate hw) hb hbmp⟩

/-- RUN's stages share the geometry its start checks have passed. -/
theorem runBody (hg : GeometryOk s) : Canonical (runBody s) := by
  cases hphoto : s.photo
  · rw [runBody_noPhoto hphoto]
    exact (h.lumBody hg.gray_fits).packBody hg.canvas_bytes hg.width_fits hg.bitmap_fits
  · rw [runBody_photo hphoto]
    exact (((h.lumBody hg.gray_fits).eqBody hg.gray_fits).dthBody hg.gray_fits).packBody hg.canvas_bytes
      hg.width_fits hg.bitmap_fits

/-- A body that executes stays inside the memories: LUM and RUN by the start checks, EQ, DTH and PACK because they
would fault otherwise. -/
theorem bodyOf {i : Instr} (hexec : turnedAway i s = none) (hfault : engineFault i s = none) :
    Canonical (bodyOf i s) := by
  obtain ⟨_, _, hchecks⟩ := turnedAway_eq_none.mp hexec
  cases i
  case lum => exact h.lumBody (startError_eq_none_iff.mp hchecks).gray_fits
  case run => exact h.runBody (startError_eq_none_iff.mp hchecks)
  case clr => exact h
  case eq => exact h.eqBody (engineFault_eq_none_iff_eq.mp hfault).2
  case dth => exact h.dthBody (engineFault_eq_none_iff_dth.mp hfault)
  case pack =>
    obtain ⟨_, h8, hw, hb⟩ := engineFault_eq_none_iff_pack.mp hfault
    exact h.packBody h8 hw hb

/-! ### The steps -/

theorem exec {i : Instr} {t : State} (hnext : exec i s = .next t) : Canonical t := by
  rcases exec_next hnext with ⟨_, _, rfl⟩ | ⟨_, _, e, _, rfl⟩ | ⟨hexec, hfault, rfl⟩
  · exact h
  · exact h
  · exact h.bodyOf hexec hfault

theorem performIllegal (w : Word) : Canonical (performIllegal w s) := by
  by_cases hphase : s.phase = .fail
  · rw [performIllegal_of_fail w hphase]
    exact h
  · rw [performIllegal_of_not_fail w hphase]
    exact h

/-- Reset empties memories or keeps them. -/
theorem applyReset : Canonical (applyReset s) := by
  obtain ⟨hhist, hlut, hpix, hgray, hbmp⟩ := h
  cases hbusy : s.busy <;> simp [Canonical, *]

theorem hostAccess (a : Access) : Canonical (hostAccess a s) := by
  obtain ⟨hhist, hlut, hpix, hgray, hbmp⟩ := h
  have hpix' := hostAccess_pix_wf a s hpix
  rw [hostAccess_frame]
  exact ⟨hhist, hlut, hpix', hgray, hbmp⟩

theorem step {t : State} (hnext : step s = .next t) : Canonical t := by
  rcases step_next hnext with ⟨rest, _, rfl⟩ | ⟨rest, _, _, rfl⟩ | ⟨rest, w, i, _, _, _, hexec⟩ |
    ⟨rest, w, e, _, _, _, rfl⟩ | ⟨a, rest, _, _, rfl⟩
  · exact applyReset (s := { s with inputs := rest }) h
  · exact h
  · exact exec (s := { s with inputs := rest }) h hexec
  · exact performIllegal (s := { s with inputs := rest }) h w
  · exact hostAccess (s := { s with inputs := rest }) h a

end Canonical

/-- Settles O48: one lemma for each way `step_next` gives the next state. -/
theorem everyStepKeepsMemoriesCanonical : Obligations.EveryStepKeepsMemoriesCanonical := by
  unfold Obligations.EveryStepKeepsMemoriesCanonical
  intro s t h hnext
  exact memoriesOk_iff.mpr ((memoriesOk_iff.mp h).step hnext)

end Sys2Proof.Machine
end

section
/-! LUM and EQ in the terms of the rules: what the Host reads in GRAY, HIST, DISTINCT and LUT after each
(41_luminance.md R70 to R74, 42_tone_mapper.md R80 to R84). -/

namespace Sys2Proof.Machine

/-! ### LUM -/

/-- The capacities bound the pixels of a conversion (00_scope.md R4). -/
theorem GeometryOk.n_lt {s : State} (hg : GeometryOk s) (hp : s.params.WellFormed = true) : s.n < 2 ^ 32 := by
  simp only [Params.WellFormed, Bool.and_eq_true, decide_eq_true_eq] at hp
  obtain ⟨⟨⟨_, hnmax⟩, _⟩, _⟩ := hp
  exact hg.gray_fits.trans_lt hnmax

theorem GeometryOk.n_pos {s : State} (hg : GeometryOk s) : 1 ≤ s.n :=
  Nat.mul_pos hg.width_pos hg.height_pos

/-- The levels LUM counts are the luminances of the image. -/
theorem lumaOf_levels (s : State) : (fun i => (lumaOf s i).toNat) = imageLuma s :=
  funext (lumaOf_toNat s)

theorem lumBody_grayAt (s : State) (i : Nat) :
    (lumBody s).grayAt i = if i < s.n then lumaOf s i else s.grayAt i :=
  readByte_overwrite ..

theorem lumBody_histAt {s : State} {v : Nat} (hn : s.n < 2 ^ 32) (hv : v < 256) :
    ((lumBody s).histAt v).toNat = levelCount s.n (imageLuma s) v := by
  rw [← lumaOf_levels]
  exact histogram_bucket s.draw s.n (lumaOf s) v hv hn

/-- DISTINCT is nine bits wide and the levels are at most 256 (10_state.md R21). -/
theorem lumBody_distinct_toNat (s : State) :
    (lumBody s).distinct.toNat = distinctLevels s.draw (histogram s.draw s.n (lumaOf s)) := by
  rw [lumBody_distinct, BitVec.toNat_ofNat]
  exact Nat.mod_eq_of_lt ((distinctLevels_le _ _).trans_lt (by decide))

theorem lumBody_levelsPresent {s : State} (hn : s.n < 2 ^ 32) :
    (lumBody s).distinct.toNat = levelsPresent s.n (imageLuma s) := by
  rw [lumBody_distinct_toNat, distinctLevels_histogram _ _ _ hn, lumaOf_levels]

theorem lumBody_warn_eq (s : State) : (lumBody s).warn = advisory s.photo (lumBody s).distinct.toNat := by
  rw [lumBody_warn, lumBody_distinct_toNat]

theorem advisory_eq_true_iff {photo : Bool} {d : Nat} :
    advisory photo d = true ↔ photo = true ∧ d < 16 ∨ photo = false ∧ 16 ≤ d := by
  simp only [advisory, Bool.or_eq_true, Bool.and_eq_true, Bool.not_eq_true', decide_eq_true_eq]
  rfl

/-- Settles O17: the body of LUM completes, and each memory and register is read by its own lemma. -/
theorem lumConvertsTheImage : Obligations.LumConvertsTheImage := by
  unfold Obligations.LumConvertsTheImage
  intro s hp hphase hg
  have hn : s.n < 2 ^ 32 := hg.n_lt hp
  refine ⟨complete (lumBody s), exec_of_geometry (.inl rfl) hphase hg, rfl, ?pixel, ?beyond, fun v => lumBody_histAt hn,
    lumBody_levelsPresent hn, ?advice⟩
  case pixel =>
    intro i hi
    rw [complete_grayAt, lumBody_grayAt, if_pos hi, lumaOf_toNat]
  case beyond =>
    intro i hi
    rw [complete_grayAt, lumBody_grayAt, if_neg (by omega)]
  case advice =>
    rw [complete_warn, lumBody_warn_eq, lumBody_levelsPresent hn, advisory_eq_true_iff]

/-! ### EQ -/

/-- EQ executes in LUMD in photo mode on an image that fits. -/
theorem exec_eq_of_lumd {s : State} (hphase : s.phase = .lumd) (hphoto : s.photo = true) (hpos : 1 ≤ s.n)
    (hn : s.n ≤ s.params.nmax) : exec .eq s = .next (complete (eqBody s)) := by
  refine exec_of_executes (turnedAway_eq_none.mpr ⟨?_, ?_, rfl⟩) (engineFault_eq_none_iff_eq.mpr ⟨by omega, hn⟩)
  · simp [hphase]
  · simp [legal, hphase, hphoto]

theorem eqBody_lutAt {s : State} {v : Nat} (hv : v < 256) :
    (eqBody s).lutAt v = BitVec.ofNat 8 (255 * cdfAt s v / s.n) :=
  readByte_of_written (lutTable_lookup s hv)

theorem eqBody_grayAt (s : State) (i : Nat) :
    (eqBody s).grayAt i = if i < s.n then (eqBody s).lutAt (s.grayAt i).toNat else s.grayAt i :=
  readByte_overwrite ..

/-- When the histogram counts the image no entry is narrowed (42_tone_mapper.md R82, log 10). -/
theorem eqBody_lutAt_toNat {s : State} {v : Nat} (hsum : histSum s = s.n) (hv : v < 256) :
    ((eqBody s).lutAt v).toNat = 255 * cdfAt s v / s.n := by
  rw [eqBody_lutAt hv, BitVec.toNat_ofNat]
  exact Nat.mod_eq_of_lt (Nat.lt_succ_of_le (quotient_le hv hsum))

/-- Settles O18: the body of EQ completes, and LUT and GRAY are read by their own lemmas. -/
theorem eqRemapsTheImage : Obligations.EqRemapsTheImage := by
  unfold Obligations.EqRemapsTheImage
  intro s hphase hphoto hpos hn
  refine ⟨complete (eqBody s), exec_eq_of_lumd hphase hphoto hpos hn, rfl, fun v => eqBody_lutAt, ?pixel, ?beyond⟩
  case pixel =>
    intro i hi
    rw [complete_grayAt, eqBody_grayAt, if_pos hi]
    rfl
  case beyond =>
    intro i hi
    rw [complete_grayAt, eqBody_grayAt, if_neg (by omega)]

theorem prefixSum_of_zero_after {bucket : Nat → Nat} {j k : Nat} (hjk : j ≤ k)
    (h : ∀ u, j ≤ u → u < k → bucket u = 0) : prefixSum bucket k = prefixSum bucket j := by
  induction k, hjk using Nat.le_induction with
  | base => rfl
  | succ k hjk ih =>
    rw [prefixSum_succ, h k hjk k.lt_succ_self, ih fun u hu huk => h u hu (huk.trans k.lt_succ_self), Nat.add_zero]

/-- From the brightest level present on, the whole image is counted. -/
theorem cdfAt_of_brightest {s : State} {v : Nat} (hv : v < 256) (h : ∀ u, v < u → u < 256 → s.histAt u = 0#32) :
    cdfAt s v = histSum s := by
  rw [cdfAt_eq, histSum_eq]
  refine (prefixSum_of_zero_after hv fun u hu hu' => ?_).symm
  rw [h u hu hu']
  rfl

/-- Settles O19: under the invariant the buckets sum to N, so the entries are exact quotients of a rising sum that
reaches N at the brightest level. -/
theorem eqKeepsLevelOrder : Obligations.EqKeepsLevelOrder := by
  unfold Obligations.EqKeepsLevelOrder
  intro s hinv hphase hphoto
  have hconv : converting s.phase = true := by rw [hphase]; rfl
  have hg : GeometryOk s := hinv.geometry hconv
  have hsum : histSum s = s.n := hinv.hist_sum hconv
  refine ⟨complete (eqBody s), exec_eq_of_lumd hphase hphoto hg.n_pos hg.gray_fits, fun v => eqBody_lutAt_toNat hsum,
    ?rising, ?brightest⟩
  case rising =>
    intro u v huv hv
    rw [complete_lutAt, complete_lutAt, eqBody_lutAt_toNat hsum (huv.trans_lt hv), eqBody_lutAt_toNat hsum hv]
    exact Nat.div_le_div_right (Nat.mul_le_mul_left 255 (cdfAt_mono huv))
  case brightest =>
    intro v hv hdark
    rw [complete_lutAt, eqBody_lutAt hv, cdfAt_of_brightest hv hdark, hsum, Nat.mul_div_cancel _ hg.n_pos]

theorem cdfAt_of_uniform {s : State} {k v : Nat} (hv : v < 256) (h : ∀ u, u < 256 → (s.histAt u).toNat = k) :
    cdfAt s v = (v + 1) * k := by
  have hbuckets : (List.range (v + 1)).map (fun u => (s.histAt u).toNat) = (List.range (v + 1)).map fun _ => k :=
    List.map_congr_left fun u hu => h u (by have := List.mem_range.mp hu; omega)
  unfold cdfAt
  rw [hbuckets, List.map_const', List.sum_replicate, List.length_range, smul_eq_mul]

/-- 255 × (v + 1) / 256 = v for a byte (42_tone_mapper.md R84 item 3). -/
theorem uniform_quotient {k v : Nat} (hk : 1 ≤ k) (hv : v < 256) : 255 * ((v + 1) * k) / (256 * k) = v := by
  rw [← Nat.mul_assoc, Nat.mul_div_mul_right _ _ hk]
  omega

/-- Settles O20: every bucket holds N / 256, so entry v is 255 × (v + 1) / 256 = v. -/
theorem eqOfUniformHistogramIsIdentity : Obligations.EqOfUniformHistogramIsIdentity := by
  unfold Obligations.EqOfUniformHistogramIsIdentity
  intro s k hphase hphoto hk hn hfits huniform
  have hlut : ∀ v, v < 256 → (eqBody s).lutAt v = BitVec.ofNat 8 v := by
    intro v hv
    rw [eqBody_lutAt hv, cdfAt_of_uniform hv huniform, hn, uniform_quotient hk hv]
  refine ⟨complete (eqBody s), exec_eq_of_lumd hphase hphoto (by omega) hfits, ?table, ?image⟩
  case table =>
    intro v hv
    rw [complete_lutAt, hlut v hv, BitVec.toNat_ofNat, Nat.mod_eq_of_lt hv]
  case image =>
    intro i
    rw [complete_grayAt, eqBody_grayAt, hlut _ (s.grayAt i).isLt, BitVec.ofNat_toNat, BitVec.setWidth_eq, ite_self]

end Sys2Proof.Machine
end

section
/-! DTH: the visit of one pixel as the kernel matrix gives it, the whole scan, and the images it leaves alone
(43_disperser.md R90 to R94). -/

namespace Sys2Proof.Machine

/-! ### The arithmetic of a tap -/

theorem truncDiv_eq_tdiv (a b : Int) : truncDiv a b = Int.tdiv a b := by
  unfold truncDiv
  split
  case isTrue ha => exact (Int.tdiv_eq_ediv_of_nonneg ha).symm
  case isFalse ha =>
    rw [← Int.tdiv_eq_ediv_of_nonneg (by omega : 0 ≤ -a), Int.neg_tdiv, Int.neg_neg]

theorem clamp_eq_max_min (v : Int) : clamp v 0 255 = max 0 (min 255 v) := by
  unfold clamp
  split_ifs <;> omega

theorem diffused_increment (old : Byte) (e weight : Int) :
    diffused old (increment e weight) =
      BitVec.ofInt 8 (max 0 (min 255 ((old.toNat : Int) + Int.tdiv (e * weight) 1024))) := by
  unfold diffused increment
  rw [clamp_eq_max_min, truncDiv_eq_tdiv]
  rfl

/-- An increment of 0 leaves a byte alone. -/
@[simp] theorem diffused_zero (old : Byte) : diffused old 0 = old := by
  have hrange : max 0 (min 255 ((old.toNat : Int) + 0)) = (old.toNat : Int) := by omega
  unfold diffused
  rw [clamp_eq_max_min, hrange, BitVec.ofInt_natCast, BitVec.ofNat_toNat, BitVec.setWidth_eq]

@[simp] theorem increment_zero_left (weight : Int) : increment 0 weight = 0 := by
  simp [increment, truncDiv]

@[simp] theorem increment_zero_right (e : Int) : increment e 0 = 0 := by
  simp [increment, truncDiv]

theorem ofNat_quantise (o : Nat) : BitVec.ofNat 8 (quantise o) = if o ≤ 128 then 0#8 else 255#8 := by
  unfold quantise
  exact apply_ite (BitVec.ofNat 8) (o ≤ 128) 0 255

theorem residual_eq (o : Nat) : residual o = (o : Int) - if (o : Int) ≤ 128 then 0 else 255 := by
  unfold residual quantise tDither
  by_cases h : o ≤ 128
  · rw [if_pos h, if_pos (by omega)]
    rfl
  · rw [if_neg h, if_neg (by omega)]
    rfl

/-! ### The kernel as a matrix -/

theorem kernelWeight_of_mem {t : Tap} (ht : t ∈ kernel) : kernelWeight t.dx t.dy = t.weight := by
  have hall : ∀ t ∈ kernel, kernelWeight t.dx t.dy = t.weight := by decide
  exact hall t ht

/-- A non-zero entry of the matrix is a tap (43_disperser.md R91). -/
theorem mem_kernel_of_weight {dx : Int} {dy : Nat} (h : kernelWeight dx dy ≠ 0) :
    ⟨dx, dy, kernelWeight dx dy⟩ ∈ kernel := by
  have hdy : dy ≤ 2 := by
    by_contra hdy
    obtain ⟨k, rfl⟩ : ∃ k, dy = k + 3 := ⟨dy - 3, by omega⟩
    exact h rfl
  have hdx : -2 ≤ dx ∧ dx ≤ 2 := by
    by_contra hdx
    refine h ?_
    interval_cases dy <;> simp only [kernelWeight] <;> split_ifs <;> omega
  obtain ⟨hlow, hhigh⟩ := hdx
  revert h
  interval_cases dy <;> interval_cases dx <;> decide

/-! ### One visit -/

section
variable {draw w h x y : Nat}

theorem readByte_applyTap (e : Int) (m : Memory Byte) (t : Tap) (j : Nat) :
    readByte .gray draw (applyTap draw w h x y e m t) j =
      if tapTarget w h x y t = some j then diffused (readByte .gray draw m j) (increment e t.weight)
      else readByte .gray draw m j := by
  unfold applyTap
  cases htarget : tapTarget w h x y t with
  | none => simp
  | some k =>
    by_cases hk : j = k
    · simp [hk]
    · simp [hk, Ne.symm hk]

theorem index_injective {tx ty tx' ty' : Nat} (h1 : tx < w) (h2 : tx' < w) (heq : ty * w + tx = ty' * w + tx') :
    tx = tx' ∧ ty = ty' := by
  have hx := congrArg (· % w) heq
  have hy := congrArg (· / w) heq
  simp only [Nat.mul_comm _ w, Nat.mul_add_mod, Nat.mod_eq_of_lt h1, Nat.mod_eq_of_lt h2] at hx
  simp only [Nat.mul_comm _ w, Nat.mul_add_div (Nat.zero_lt_of_lt h1), Nat.div_eq_of_lt h1, Nat.div_eq_of_lt h2,
    Nat.add_zero] at hy
  exact ⟨hx, hy⟩

/-- A tap of pixel (x, y) falls on (tx, ty) when its offset is the difference of the two. -/
theorem tapTarget_index_iff {tx ty : Nat} (htx : tx < w) (hty : ty < h) {t : Tap} :
    tapTarget w h x y t = some (ty * w + tx) ↔ t.dx = (tx : Int) - x ∧ ty = y + t.dy := by
  rw [tapTarget_eq_some]
  constructor
  · rintro ⟨tx', ty', htx', _, hdx, hdy, hindex⟩
    obtain ⟨rfl, rfl⟩ := index_injective htx htx' hindex
    exact ⟨by omega, hdy⟩
  · rintro ⟨hdx, hdy⟩
    exact ⟨tx, ty, htx, hty, by omega, hdy, rfl⟩

/-- No two taps of the kernel have one offset, so no two fall on one pixel. -/
theorem kernel_target_unique {t u : Tap} {j : Nat} (ht : t ∈ kernel) (hu : u ∈ kernel)
    (htj : tapTarget w h x y t = some j) (huj : tapTarget w h x y u = some j) : u = t := by
  obtain ⟨tx, ty, htx, hty, _, _, rfl⟩ := tapTarget_eq_some.mp htj
  obtain ⟨hdx, hdy⟩ := (tapTarget_index_iff htx hty).mp htj
  obtain ⟨hdx', hdy'⟩ := (tapTarget_index_iff htx hty).mp huj
  have hx : u.dx = t.dx := hdx'.trans hdx.symm
  have hy : u.dy = t.dy := by omega
  have hweight : u.weight = t.weight := by
    rw [← kernelWeight_of_mem hu, ← kernelWeight_of_mem ht, hx, hy]
  cases u
  cases t
  simp_all

/-- A pixel that one tap of the kernel falls on takes that tap's increment and no other. -/
theorem readByte_kernel_of_target {e : Int} {m : Memory Byte} {j : Nat} {t : Tap} (ht : t ∈ kernel)
    (hj : tapTarget w h x y t = some j) :
    readByte .gray draw (kernel.foldl (applyTap draw w h x y e) m) j =
      diffused (readByte .gray draw m j) (increment e t.weight) := by
  have hother : ∀ u ∈ kernel, tapTarget w h x y u = some j → u = t := fun u hu => kernel_target_unique ht hu hj
  have hnodup : kernel.Nodup := by decide
  obtain ⟨before, after, hsplit⟩ := List.append_of_mem ht
  rw [hsplit] at hnodup hother
  have hafter : t ∉ after := (List.nodup_cons.mp hnodup.of_append_right).1
  have hbefore : t ∉ before := fun hmem => List.disjoint_of_nodup_append hnodup hmem List.mem_cons_self
  have hskip : ∀ (m : Memory Byte) (u : Tap), u ∈ before ∨ u ∈ after →
      readByte .gray draw (applyTap draw w h x y e m u) j = readByte .gray draw m j := by
    intro m u hu
    rw [readByte_applyTap, if_neg]
    intro huj
    obtain rfl := hother u (by simp [hu, or_left_comm]) huj
    exact hu.elim hbefore hafter
  rw [hsplit, List.foldl_append, List.foldl_cons, readByte_foldl _ after j fun m u hu => hskip m u (.inr hu),
    readByte_applyTap, if_pos hj, readByte_foldl _ before j fun m u hu => hskip m u (.inl hu)]

/-- A pixel of the image takes the increment of its entry in the kernel matrix, 0 where there is no tap. -/
theorem readByte_kernel {e : Int} {m : Memory Byte} {tx ty : Nat} (htx : tx < w) (hty : ty < h) (hy : y ≤ ty) :
    readByte .gray draw (kernel.foldl (applyTap draw w h x y e) m) (ty * w + tx) =
      diffused (readByte .gray draw m (ty * w + tx)) (increment e (kernelWeight ((tx : Int) - x) (ty - y))) := by
  by_cases hweight : kernelWeight ((tx : Int) - x) (ty - y) = 0
  · rw [hweight, increment_zero_right, diffused_zero]
    refine readByte_foldl _ _ _ (fun m t ht => ?_) m
    rw [readByte_applyTap, ite_eq_right_iff]
    intro hj
    obtain ⟨hdx, hdy⟩ := (tapTarget_index_iff htx hty).mp hj
    have hzero : t.weight = 0 := by
      rw [← kernelWeight_of_mem ht, hdx, show t.dy = ty - y by omega, hweight]
    rw [hzero, increment_zero_right, diffused_zero]
  · have hdy : ty = y + (ty - y) := by omega
    have htarget : tapTarget w h x y ⟨(tx : Int) - x, ty - y, kernelWeight ((tx : Int) - x) (ty - y)⟩ =
        some (ty * w + tx) := (tapTarget_index_iff htx hty).mpr ⟨rfl, hdy⟩
    rw [readByte_kernel_of_target (mem_kernel_of_weight hweight) htarget]

/-- The visit of pixel (x, y), pixel by pixel of the image (43_disperser.md R91 to R93). -/
theorem readByte_visitPixel {m : Memory Byte} {tx ty : Nat} (hx : x < w) (hy : y < h) (htx : tx < w) (hty : ty < h) :
    readByte .gray draw (visitPixel draw w h m (y * w + x)) (ty * w + tx) =
      if tx = x ∧ ty = y then BitVec.ofNat 8 (quantise (readByte .gray draw m (y * w + x)).toNat)
      else if y ≤ ty then
        diffused (readByte .gray draw m (ty * w + tx))
          (increment (residual (readByte .gray draw m (y * w + x)).toNat) (kernelWeight ((tx : Int) - x) (ty - y)))
      else readByte .gray draw m (ty * w + tx) := by
  have hcolumn : (y * w + x) % w = x := by rw [Nat.mul_comm, Nat.mul_add_mod, Nat.mod_eq_of_lt hx]
  have hrow : (y * w + x) / w = y := by
    rw [Nat.mul_comm, Nat.mul_add_div (Nat.zero_lt_of_lt hx), Nat.div_eq_of_lt hx, Nat.add_zero]
  split_ifs with hself hbelow
  · obtain ⟨rfl, rfl⟩ := hself
    rw [visitPixel_read_le (index_lt hx hy) le_rfl, if_pos rfl]
  · have hne : ty * w + tx ≠ y * w + x := fun heq => hself (index_injective htx hx heq)
    unfold visitPixel
    rw [hcolumn, hrow, readByte_kernel htx hty hbelow, readByte_store, if_neg hne]
  · have hlt : ty * w + tx < y * w + x := by
      have hrows : (ty + 1) * w ≤ y * w := Nat.mul_le_mul_right w (by omega)
      rw [Nat.succ_mul] at hrows
      omega
    rw [visitPixel_read_le (index_lt hx hy) hlt.le, if_neg hlt.ne]

end

/-- Settles O21: the visit is `readByte_visitPixel` with its arithmetic written out. -/
theorem visitDiffusesForward : Obligations.VisitDiffusesForward := by
  unfold Obligations.VisitDiffusesForward
  intro draw w h x y m hx hy o e
  have he : residual (readByte .gray draw m (y * w + x)).toNat = e := residual_eq _
  refine ⟨fun tx ty htx hty => ?_, fun j hj => visitPixel_read_ge (index_lt hx hy) hj⟩
  rw [readByte_visitPixel hx hy htx hty, ofNat_quantise, he, diffused_increment]
  simp only [o, Nat.cast_le_ofNat]

/-! ### The scan -/

/-- DTH executes in EQD on an image that fits. -/
theorem exec_dth_of_eqd {s : State} (hphase : s.phase = .eqd) (hn : s.n ≤ s.params.nmax) :
    exec .dth s = .next (complete (dthBody s)) := by
  refine exec_of_executes (turnedAway_eq_none.mpr ⟨?_, ?_, rfl⟩) (engineFault_eq_none_iff_dth.mpr hn)
  · simp [hphase]
  · simp [legal, hphase]

theorem dthBody_grayAt_binary {s : State} {i : Nat} (hi : i < s.n) :
    (dthBody s).grayAt i = 0#8 ∨ (dthBody s).grayAt i = 255#8 :=
  disperse_binary hi

theorem dthBody_grayAt_ge {s : State} {i : Nat} (hi : s.n ≤ i) : (dthBody s).grayAt i = s.grayAt i :=
  disperse_read_ge hi

/-- Settles O22: DTH completes with the fold of the visits, which leaves the image binary and the bytes beyond alone. -/
theorem dthVisitsEveryPixelOnce : Obligations.DthVisitsEveryPixelOnce := by
  unfold Obligations.DthVisitsEveryPixelOnce
  intro s hphase hn
  exact ⟨complete (dthBody s), exec_dth_of_eqd hphase hn, rfl, rfl, fun i => dthBody_grayAt_binary,
    fun i => dthBody_grayAt_ge⟩

theorem residual_of_binary {b : Byte} (hb : b = 0#8 ∨ b = 255#8) : residual b.toNat = 0 := by
  rcases hb with rfl | rfl <;> decide

theorem quantise_of_binary {b : Byte} (hb : b = 0#8 ∨ b = 255#8) : BitVec.ofNat 8 (quantise b.toNat) = b := by
  rcases hb with rfl | rfl <;> decide

/-- A pixel that is 0 or 255 has no residual to push, and is quantised to itself (43_disperser.md R94 item 2). -/
theorem readByte_visitPixel_of_binary {draw w h i : Nat} {m : Memory Byte}
    (hi : readByte .gray draw m i = 0#8 ∨ readByte .gray draw m i = 255#8) (j : Nat) :
    readByte .gray draw (visitPixel draw w h m i) j = readByte .gray draw m j := by
  unfold visitPixel
  dsimp only
  rw [residual_of_binary hi, quantise_of_binary hi, readByte_foldl, readByte_store, ite_eq_right_iff]
  · rintro rfl
    rfl
  · intro m t _
    rw [readByte_applyTap, increment_zero_left, diffused_zero, ite_self]

theorem readByte_disperse_of_binary {draw w h : Nat} {m : Memory Byte}
    (hm : ∀ i, i < w * h → readByte .gray draw m i = 0#8 ∨ readByte .gray draw m i = 255#8) (j : Nat) :
    readByte .gray draw (disperse draw w h m) j = readByte .gray draw m j := by
  refine List.foldlRecOn (motive := fun m' => ∀ j, readByte .gray draw m' j = readByte .gray draw m j)
    (List.range (w * h)) (visitPixel draw w h) (fun _ => rfl) (fun m' hm' i hi j => ?_) j
  have hbinary := hm i (List.mem_range.mp hi)
  rw [← hm' i] at hbinary
  rw [readByte_visitPixel_of_binary hbinary j, hm' j]

/-- Settles O23: each visit of a binary image leaves every byte as it is. -/
theorem dthKeepsBinaryImages : Obligations.DthKeepsBinaryImages := by
  unfold Obligations.DthKeepsBinaryImages
  intro s hphase hn hbinary
  exact ⟨complete (dthBody s), exec_dth_of_eqd hphase hn, readByte_disperse_of_binary hbinary⟩

end Sys2Proof.Machine
end

section
/-! PACK and RUN in the terms of the rules: each dot of the canvas, OFFSET, and what the composition of the stages
writes (44_canvas_compositor.md R100 to R105, 45_sequencing_commands.md R114). -/

namespace Sys2Proof.Machine

/-! ### PACK -/

/-- PACK executes in LUMD without photo mode and in DTHD, on an image that fits its memories. -/
theorem exec_pack_of_ready {s : State} (hphase : s.phase = .lumd ∧ s.photo = false ∨ s.phase = .dthd)
    (h8 : s.wc % 8 = 0) (hw : s.w ≤ s.wc) (hn : s.n ≤ s.params.nmax) (hb : s.h * s.stride ≤ s.params.bmax) :
    exec .pack s = .next (complete (packBody s)) := by
  refine exec_of_executes (turnedAway_eq_none.mpr ⟨?_, ?_, rfl⟩) (engineFault_eq_none_iff_pack.mpr ⟨hn, h8, hw, hb⟩)
  · rcases hphase with ⟨hlumd, _⟩ | hdthd <;> simp [*]
  · simpa [legal] using hphase

theorem isInk_iff {v : Byte} : isInk v = true ↔ v.toNat ≤ 128 :=
  decide_eq_true_iff

section
variable {s : State} (h8 : s.wc % 8 = 0) (hw : s.w ≤ s.wc)
include hw

theorem placedAt_fits : s.w + placedAt s ≤ s.wc := by
  rw [← canvasOffset_eq_placedAt]
  exact canvasOffset_fits s.align s.rotate hw

/-- OFFSET holds the offset exactly: it lies on the canvas, whose width is a register (log 10). -/
theorem packBody_offset_toNat : (packBody s).offset.toNat = placedAt s := by
  have hlt : s.wc < 2 ^ 32 := s.canvasWidth.isLt
  have hfits := placedAt_fits hw
  rw [packBody_offset, canvasOffset_eq_placedAt, BitVec.toNat_ofNat]
  exact Nat.mod_eq_of_lt (by omega)

include h8

theorem packBody_dotAt {cx y : Nat} (hc : cx < s.wc) (hy : y < s.h) :
    dotAt (packBody s) cx y = true ↔
      placedAt s ≤ cx ∧ cx < placedAt s + s.w ∧ (s.grayAt (sourceAt s (cx - placedAt s) y)).toNat ≤ 128 := by
  have hdot := packed_dot s h8 (placedAt_fits hw) hc hy
  rw [← canvasOffset_eq_placedAt] at hdot ⊢
  unfold dotAt
  refine (Eq.congr_left hdot).trans ?_
  rw [decide_eq_true_iff, isInk_iff]
  refine and_congr_right fun hleft => and_congr_right fun hright => ?_
  rw [sourcePixel_eq_sourceAt (by omega) hy]

theorem packBody_bmpAt_ge {k : Nat} (hk : s.h * s.stride ≤ k) : (packBody s).bmpAt k = s.bmpAt k :=
  packed_read_ge s h8 (canvasOffset_fits s.align s.rotate hw) hk

end

/-- Settles O25: the body of PACK completes; OFFSET and the bitmap are read by their own lemmas. -/
theorem packDrawsTheBitmap : Obligations.PackDrawsTheBitmap := by
  unfold Obligations.PackDrawsTheBitmap
  intro s hphase h8 hw hn hb
  exact ⟨complete (packBody s), exec_pack_of_ready hphase h8 hw hn hb, rfl, packBody_offset_toNat hw,
    fun cx y => packBody_dotAt h8 hw, fun k => packBody_bmpAt_ge h8 hw⟩

/-! ### RUN -/

/-- The state RUN hands to PACK: after LUM, and in photo mode after EQ and DTH. -/
def imaged (s : State) : State := if s.photo then dthBody (eqBody (lumBody s)) else lumBody s

theorem runBody_eq_pack (s : State) : runBody s = packBody (imaged s) := rfl

theorem imaged_photo {s : State} (h : s.photo = true) : imaged s = dthBody (eqBody (lumBody s)) := if_pos h

theorem imaged_noPhoto {s : State} (h : s.photo = false) : imaged s = lumBody s := if_neg (by simp [h])

/-- EQ and DTH write LUT, GRAY and PHASE only. -/
theorem imaged_frame (s : State) :
    imaged s = { lumBody s with lut := (imaged s).lut, gray := (imaged s).gray, phase := (imaged s).phase } := by
  cases h : s.photo
  · rw [imaged_noPhoto h]
  · rw [imaged_photo h]
    rfl

section
variable (s : State)

@[simp] theorem imaged_w : (imaged s).w = s.w := by rw [imaged_frame]; rfl
@[simp] theorem imaged_h : (imaged s).h = s.h := by rw [imaged_frame]; rfl
@[simp] theorem imaged_wc : (imaged s).wc = s.wc := by rw [imaged_frame]; rfl
@[simp] theorem imaged_stride : (imaged s).stride = s.stride := by rw [imaged_frame]; rfl
@[simp] theorem imaged_bmpAt (k : Nat) : (imaged s).bmpAt k = s.bmpAt k := by rw [imaged_frame]; rfl
@[simp] theorem imaged_placedAt : placedAt (imaged s) = placedAt s := by rw [imaged_frame]; rfl
@[simp] theorem imaged_sourceAt (x y : Nat) : sourceAt (imaged s) x y = sourceAt s x y := by rw [imaged_frame]; rfl

/-- RUN's whole effect but for the contents of what it writes (45_sequencing_commands.md R114). -/
theorem runBody_frame :
    runBody s = { s with
      gray := (imaged s).gray, hist := (lumBody s).hist, distinct := (lumBody s).distinct, warn := (lumBody s).warn
      lut := (imaged s).lut, bmp := (runBody s).bmp, offset := (runBody s).offset, phase := .packd } := by
  rw [runBody_eq_pack, imaged_frame]
  rfl

theorem runBody_grayAt (i : Nat) : (runBody s).grayAt i = (imaged s).grayAt i := by
  rw [runBody_eq_pack, packBody_grayAt]

end

theorem imaged_grayAt_ge {s : State} {i : Nat} (hi : s.n ≤ i) : (imaged s).grayAt i = s.grayAt i := by
  have hlum : (lumBody s).grayAt i = s.grayAt i := by rw [lumBody_grayAt, if_neg (by omega)]
  cases h : s.photo
  · rw [imaged_noPhoto h, hlum]
  · have heq : (eqBody (lumBody s)).grayAt i = s.grayAt i := by
      rw [eqBody_grayAt, lumBody_n, if_neg (by omega), hlum]
    rw [imaged_photo h, dthBody_grayAt_ge (s := eqBody (lumBody s)) hi, heq]

/-- Every pixel is counted once (10_state.md R33 item 3). -/
theorem lumBody_histSum {s : State} (hn : s.n < 2 ^ 32) : histSum (lumBody s) = s.n := by
  have hbuckets : (List.range 256).map (fun v => ((lumBody s).histAt v).toNat) =
      (List.range 256).map (levelCount s.n (imageLuma s)) :=
    List.map_congr_left fun v hv => lumBody_histAt hn (List.mem_range.mp hv)
  unfold histSum
  rw [hbuckets]
  exact levelCount_sum s.n (imageLuma s) fun i _ => Nat.lt_succ_of_le (imageLuma_le s i)

section
variable {s : State} (hg : GeometryOk s)
include hg

theorem runBody_offset_toNat : (runBody s).offset.toNat = placedAt s := by
  have hfits : (imaged s).w ≤ (imaged s).wc := by simpa using hg.width_fits
  rw [runBody_eq_pack, packBody_offset_toNat hfits, imaged_placedAt]

theorem runBody_dotAt {cx y : Nat} (hc : cx < s.wc) (hy : y < s.h) :
    dotAt (runBody s) cx y = true ↔
      placedAt s ≤ cx ∧ cx < placedAt s + s.w ∧
        ((imaged s).grayAt (sourceAt s (cx - placedAt s) y)).toNat ≤ 128 := by
  have hdot := packBody_dotAt (s := imaged s) (cx := cx) (y := y)
  simp only [imaged_wc, imaged_w, imaged_h, imaged_placedAt, imaged_sourceAt] at hdot
  exact hdot hg.canvas_bytes hg.width_fits hc hy

theorem runBody_bmpAt_ge {k : Nat} (hk : s.h * s.stride ≤ k) : (runBody s).bmpAt k = s.bmpAt k := by
  have hbeyond := packBody_bmpAt_ge (s := imaged s) (k := k)
  simp only [imaged_wc, imaged_w, imaged_h, imaged_stride, imaged_bmpAt] at hbeyond
  exact hbeyond hg.canvas_bytes hg.width_fits hk

end

/-- Settles O26: RUN is PACK on the imaged state, whose GRAY and LUT come from LUM or from LUM, EQ and DTH. -/
theorem runConvertsTheImage : Obligations.RunConvertsTheImage := by
  unfold Obligations.RunConvertsTheImage
  intro s hp hphase hg
  have hn : s.n < 2 ^ 32 := hg.n_lt hp
  refine ⟨complete (runBody s), exec_of_geometry (.inr rfl) hphase hg, ?frame, ?counts, ?levels, ?advice,
    runBody_offset_toNat hg, ?plain, ?photo, ?beyond, ?dots, fun k => runBody_bmpAt_ge hg⟩
  case frame =>
    rw [runBody_frame]
    rfl
  case counts =>
    intro v hv
    rw [runBody_frame]
    exact lumBody_histAt hn hv
  case levels =>
    rw [runBody_frame]
    exact lumBody_levelsPresent hn
  case advice =>
    rw [runBody_frame]
    exact lumBody_warn_eq s
  case plain =>
    intro hphoto
    rw [runBody_eq_pack, imaged_noPhoto hphoto]
    refine ⟨rfl, fun i hi => ?_⟩
    rw [complete_grayAt, packBody_grayAt, lumBody_grayAt, if_pos hi, lumaOf_toNat]
  case photo =>
    intro hphoto
    rw [runBody_photo hphoto]
    exact ⟨fun v => eqBody_lutAt_toNat (lumBody_histSum hn), fun i hi => disperse_binary hi⟩
  case beyond =>
    intro i hi
    rw [complete_grayAt, runBody_grayAt, imaged_grayAt_ge hi]
  case dots =>
    intro cx y hc hy
    rw [complete_grayAt, runBody_grayAt]
    exact runBody_dotAt hg hc hy

theorem sourceAt_lt {s : State} {x y : Nat} (hx : x < s.w) (hy : y < s.h) : sourceAt s x y < s.n := by
  unfold sourceAt State.n
  split
  · exact index_lt (by omega) (by omega)
  · exact index_lt hx hy

/-- Settles O27: without photo mode GRAY holds the luminances, and each dot is the threshold of one. -/
theorem runWithoutPhotoThresholdsEachPixel : Obligations.RunWithoutPhotoThresholdsEachPixel := by
  unfold Obligations.RunWithoutPhotoThresholdsEachPixel
  intro s hphase hg hphoto
  refine ⟨complete (runBody s), exec_of_geometry (.inr rfl) hphase hg, fun cx y hc hy => ?_⟩
  refine (runBody_dotAt hg hc hy).trans (and_congr_right fun hleft => and_congr_right fun hright => ?_)
  rw [imaged_noPhoto hphoto, lumBody_grayAt, if_pos (sourceAt_lt (by omega) hy), lumaOf_toNat]

end Sys2Proof.Machine
end

section
/-! RUN against the stepwise sequence (45_sequencing_commands.md R114): the bodies do not read PENDING, DONE, the inputs
or the replies, so a command issued and performed leaves its body's state, whatever comes next. -/

namespace Sys2Proof.Machine

/-- `s` with PENDING, DONE, the inputs and the replies replaced. -/
def atTurn (s : State) (pending : Option Word) (done : Bool) (inputs : List Input) (replies : List Word) : State :=
  { s with pending := pending, done := done, inputs := inputs, replies := replies }

theorem bodyOf_atTurn (i : Instr) (s : State) (p : Option Word) (d : Bool) (l : List Input) (r : List Word) :
    bodyOf i (atTurn s p d l r) = atTurn (bodyOf i s) p d l r := by
  cases i
  case run =>
    have hphoto : (atTurn s p d l r).photo = s.photo := rfl
    cases h : s.photo
    · simp only [bodyOf]
      rw [runBody_noPhoto (hphoto.trans h), runBody_noPhoto h]
      rfl
    · simp only [bodyOf]
      rw [runBody_photo (hphoto.trans h), runBody_photo h]
      rfl
  all_goals rfl

/-- The Host's issue of a command (30_encoding.md R65). -/
def issueOf (i : Instr) : Input := .access (.write .reg 0x04 4 (encode i))

/-- A command and the issues after it: the second is held, so the Engine performs the first. -/
theorem engineNext_of_issues {s : State} {l : List Instr} (hbusy : s.busy = true) (hin : s.inputs = l.map issueOf) :
    EngineNext s s.inputs := by
  cases l with
  | nil => exact .inl ⟨hin, hin⟩
  | cons j l => exact .inr (.inr ⟨_, _, hin, rfl, hbusy, rfl⟩)

/-- Issue and perform: two steps, and the next command's turn. -/
theorem runSteps_command {s : State} {i : Instr} {l : List Instr} (k : Nat) (d : Bool) (r : List Word)
    (hexec : exec i (atTurn s (some (encode i)) false (l.map issueOf) r) =
      .next (complete (bodyOf i (atTurn s (some (encode i)) false (l.map issueOf) r)))) :
    runSteps (k + 2) (atTurn s none d ((i :: l).map issueOf) r) =
      runSteps k (atTurn (bodyOf i s) none true (l.map issueOf) r) := by
  have hissue : step (atTurn s none d ((i :: l).map issueOf) r) =
      .next (atTurn s (some (encode i)) false (l.map issueOf) r) :=
    step_of_quiescent (s := atTurn s none d ((i :: l).map issueOf) r) rfl rfl
  have hperform : step (atTurn s (some (encode i)) false (l.map issueOf) r) =
      .next (atTurn (bodyOf i s) none true (l.map issueOf) r) := by
    rw [step_of_engineNext (engineNext_of_issues rfl rfl), engineTurn_of_some rfl, perform_of_ok (decode_encode i)]
    rw [bodyOf_atTurn] at hexec
    exact hexec
  rw [runSteps_succ hissue, runSteps_succ hperform]

section
variable {s : State} (hphase : s.phase = .idle) (hg : GeometryOk s) (d : Bool) (r : List Word)
include hphase hg

theorem runSteps_run :
    runSteps 2 (atTurn s none d [issueOf .run] r) = .next (atTurn (runBody s) none true [] r) :=
  runSteps_command (l := []) 0 d r (exec_of_geometry (.inr rfl) hphase (hg.transfer rfl rfl rfl rfl))

theorem runSteps_lum (k : Nat) (l : List Instr) :
    runSteps (k + 2) (atTurn s none d ((.lum :: l).map issueOf) r) =
      runSteps k (atTurn (lumBody s) none true (l.map issueOf) r) :=
  runSteps_command k d r (exec_of_geometry (.inl rfl) hphase (hg.transfer rfl rfl rfl rfl))

/-- LUM, EQ, DTH, PACK in photo mode. -/
theorem runSteps_photo (hphoto : s.photo = true) :
    runSteps 8 (atTurn s none d ([.lum, .eq, .dth, .pack].map issueOf) r) =
      .next (atTurn (runBody s) none true [] r) := by
  rw [runBody_photo hphoto]
  calc
    _ = runSteps 6 (atTurn (lumBody s) none true ([.eq, .dth, .pack].map issueOf) r) := runSteps_lum hphase hg d r 6 _
    _ = runSteps 4 (atTurn (eqBody (lumBody s)) none true ([.dth, .pack].map issueOf) r) :=
      runSteps_command 4 true r (exec_eq_of_lumd rfl hphoto hg.n_pos hg.gray_fits)
    _ = runSteps 2 (atTurn (dthBody (eqBody (lumBody s))) none true ([.pack].map issueOf) r) :=
      runSteps_command 2 true r (exec_dth_of_eqd rfl hg.gray_fits)
    _ = runSteps 0 (atTurn (packBody (dthBody (eqBody (lumBody s)))) none true [] r) :=
      runSteps_command (l := []) 0 true r
        (exec_pack_of_ready (.inr rfl) hg.canvas_bytes hg.width_fits hg.gray_fits hg.bitmap_fits)

/-- LUM, PACK without photo mode. -/
theorem runSteps_noPhoto (hphoto : s.photo = false) :
    runSteps 4 (atTurn s none d ([.lum, .pack].map issueOf) r) = .next (atTurn (runBody s) none true [] r) := by
  rw [runBody_noPhoto hphoto]
  calc
    _ = runSteps 2 (atTurn (lumBody s) none true ([.pack].map issueOf) r) := runSteps_lum hphase hg d r 2 _
    _ = runSteps 0 (atTurn (packBody (lumBody s)) none true [] r) :=
      runSteps_command (l := []) 0 true r
        (exec_pack_of_ready (.inl ⟨rfl, hphoto⟩) hg.canvas_bytes hg.width_fits hg.gray_fits hg.bitmap_fits)

end

/-- Settles O28: each form leaves the composed bodies with DONE set and no input left. -/
theorem runEqualsTheStepwiseSequence : Obligations.RunEqualsTheStepwiseSequence := by
  unfold Obligations.RunEqualsTheStepwiseSequence
  intro s hphase hp _ hg
  have hstart : ∀ l : List Input, { s with inputs := l } = atTurn s none s.done l s.replies := by
    intro l
    rw [← hp]
    rfl
  dsimp only
  rw [hstart, hstart]
  refine ⟨atTurn (runBody s) none true [] s.replies, runSteps_run hphase hg s.done s.replies, ?stepwise, rfl, rfl⟩
  cases hphoto : s.photo
  · exact runSteps_noPhoto hphase hg s.done s.replies hphoto
  · exact runSteps_photo hphase hg s.done s.replies hphoto

end Sys2Proof.Machine
end

section
/-! Two conversions of the same pixels under the same operands (10_state.md R34): each stage reads of GRAY, HIST, LUT
and BMP only what the conversion has written, so both leave the same image, whatever the memories held before. -/

namespace Sys2Proof.Machine

/-- Two memories, each with its own free values, read alike below `n`. -/
def ReadAlike (space : Space) (d d' n : Nat) (m m' : Memory Byte) : Prop :=
  ∀ k, k < n → readByte space d m k = readByte space d' m' k

namespace ReadAlike

variable {space : Space} {d d' n : Nat} {m m' : Memory Byte}

theorem store (hm : ReadAlike space d d' n m m') (a : Nat) (v : Byte) :
    ReadAlike space d d' n (m.store a v) (m'.store a v) := by
  intro k hk
  rw [readByte_store, readByte_store, hm k hk]

theorem applyTap {w h x y : Nat} (hm : ReadAlike .gray d d' (w * h) m m') (e : Int) (t : Tap) :
    ReadAlike .gray d d' (w * h) (applyTap d w h x y e m t) (applyTap d' w h x y e m' t) := by
  unfold Machine.applyTap
  cases hj : tapTarget w h x y t with
  | none => exact hm
  | some j =>
    dsimp only
    rw [hm j (tapTarget_lt hj)]
    exact hm.store j _

theorem visitPixel {w h i : Nat} (hm : ReadAlike .gray d d' (w * h) m m') (hi : i < w * h) :
    ReadAlike .gray d d' (w * h) (visitPixel d w h m i) (visitPixel d' w h m' i) := by
  unfold Machine.visitPixel
  dsimp only
  rw [hm i hi]
  exact List.foldl_rel (hm.store i _) fun t _ _ _ hrel => hrel.applyTap _ t

theorem disperse {w h : Nat} (hm : ReadAlike .gray d d' (w * h) m m') :
    ReadAlike .gray d d' (w * h) (disperse d w h m) (disperse d' w h m') :=
  List.foldl_rel hm fun _ hi _ _ hrel => hrel.visitPixel (List.mem_range.mp hi)

end ReadAlike

/-- The operand registers. Two states that agree on them agree on every operand read from them. -/
def operands (s : State) : Word × Word × Word × BitVec 4 := (s.width, s.height, s.canvasWidth, s.opts)

section
variable {a b : State} (h : operands a = operands b)
include h

theorem operands_w : a.w = b.w := congrArg (fun o => o.1.toNat) h
theorem operands_h : a.h = b.h := congrArg (fun o => o.2.1.toNat) h
theorem operands_wc : a.wc = b.wc := congrArg (fun o => o.2.2.1.toNat) h
theorem operands_n : a.n = b.n := congrArg (fun o => o.1.toNat * o.2.1.toNat) h
theorem operands_stride : a.stride = b.stride := congrArg (fun o => o.2.2.1.toNat / 8) h
theorem operands_photo : a.photo = b.photo := congrArg (fun o => o.2.2.2.getLsbD 0) h
theorem operands_rotate : a.rotate = b.rotate := congrArg (fun o => o.2.2.2.getLsbD 1) h
theorem operands_align : a.align = b.align :=
  congrArg (fun o : Word × Word × Word × BitVec 4 => alignOf (o.2.2.2.getLsbD 3) (o.2.2.2.getLsbD 2)) h

end

/-- GRAY, HIST, DISTINCT and WARN hold the same of the image, which the operands size. -/
def SameContents (a b : State) : Prop :=
  ReadAlike .gray a.draw b.draw a.n a.gray b.gray ∧ (∀ v, v < 256 → a.histAt v = b.histAt v) ∧
    a.distinct = b.distinct ∧ a.warn = b.warn

/-- Two states with the same operands and the same image. -/
def SameImage (a b : State) : Prop := operands a = operands b ∧ SameContents a b

section
variable {a b : State}

/-! ### LUM -/

theorem lumaOf_congr {i : Nat} (h : ∀ k, k < 4 * i + 4 → a.pixAt k = b.pixAt k) : lumaOf a i = lumaOf b i := by
  unfold lumaOf
  rw [h (4 * i) (by omega), h (4 * i + 1) (by omega), h (4 * i + 2) (by omega), h (4 * i + 3) (by omega)]

theorem levelCount_congr {n : Nat} {level level' : Nat → Nat} (h : ∀ i, i < n → level i = level' i) (v : Nat) :
    levelCount n level v = levelCount n level' v := by
  unfold levelCount
  refine List.countP_congr fun i hi => ?_
  rw [h i (List.mem_range.mp hi)]

theorem distinctLevels_congr {d d' : Nat} {m m' : Memory Word}
    (h : ∀ v, v < 256 → readBucket d m v = readBucket d' m' v) : distinctLevels d m = distinctLevels d' m' := by
  unfold distinctLevels
  refine List.countP_congr fun v hv => ?_
  rw [h v (List.mem_range.mp hv)]

theorem SameImage.lumBody (hops : operands a = operands b) (hpix : ∀ k, k < 4 * a.n → a.pixAt k = b.pixAt k) :
    SameImage (lumBody a) (lumBody b) := by
  have hn : a.n = b.n := operands_n hops
  have hluma : ∀ i, i < a.n → lumaOf a i = lumaOf b i := fun i hi =>
    lumaOf_congr fun k hk => hpix k (by omega)
  have hhist : ∀ v, v < 256 → (Machine.lumBody a).histAt v = (Machine.lumBody b).histAt v := by
    intro v hv
    unfold State.histAt
    rw [lumBody_hist, lumBody_hist, readBucket_of_written (histogram_lookup a.draw a.n (lumaOf a) v hv),
      readBucket_of_written (histogram_lookup b.draw b.n (lumaOf b) v hv), ← hn,
      levelCount_congr (fun i hi => congrArg BitVec.toNat (hluma i hi)) v]
  have hdistinct : distinctLevels a.draw (histogram a.draw a.n (lumaOf a)) =
      distinctLevels b.draw (histogram b.draw b.n (lumaOf b)) := distinctLevels_congr hhist
  refine ⟨hops, fun i hi => ?_, hhist, ?_, ?_⟩
  · have hgray : (Machine.lumBody a).grayAt i = (Machine.lumBody b).grayAt i := by
      have hi' : i < a.n := hi
      rw [lumBody_grayAt, lumBody_grayAt, if_pos hi', if_pos (hn ▸ hi'), hluma i hi']
    exact hgray
  · rw [lumBody_distinct, lumBody_distinct, hdistinct]
  · rw [lumBody_warn, lumBody_warn, operands_photo hops, hdistinct]

namespace SameImage

variable (h : SameImage a b)
include h

theorem gray : ReadAlike .gray a.draw b.draw a.n a.gray b.gray := by
  obtain ⟨_, hgray, _⟩ := h
  exact hgray

theorem grayAt_eq {i : Nat} (hi : i < a.n) : a.grayAt i = b.grayAt i := h.gray i hi

theorem histAt_eq {v : Nat} (hv : v < 256) : a.histAt v = b.histAt v := by
  obtain ⟨_, _, hhist, _⟩ := h
  exact hhist v hv

/-! ### EQ and DTH -/

theorem cdfAt_eq {v : Nat} (hv : v < 256) : cdfAt a v = cdfAt b v := by
  unfold cdfAt
  congr 1
  refine List.map_congr_left fun u hu => ?_
  rw [h.histAt_eq (by have := List.mem_range.mp hu; omega)]

theorem eqBody_lutAt_eq {v : Nat} (hv : v < 256) : (Machine.eqBody a).lutAt v = (Machine.eqBody b).lutAt v := by
  rw [eqBody_lutAt hv, eqBody_lutAt hv, h.cdfAt_eq hv, operands_n h.1]

theorem eqBody : SameImage (eqBody a) (eqBody b) := by
  obtain ⟨hops, _, hrest⟩ := id h
  refine ⟨hops, fun i hi => ?_, hrest⟩
  have hgray : (Machine.eqBody a).grayAt i = (Machine.eqBody b).grayAt i := by
    have hi' : i < a.n := hi
    rw [eqBody_grayAt, eqBody_grayAt, if_pos hi', if_pos (operands_n h.1 ▸ hi'), h.grayAt_eq hi',
      h.eqBody_lutAt_eq (b.grayAt i).isLt]
  exact hgray

theorem dthBody : SameImage (dthBody a) (dthBody b) := by
  obtain ⟨hops, hgray, hrest⟩ := id h
  refine ⟨hops, ?_, hrest⟩
  rw [dthBody_gray, dthBody_gray, ← operands_w h.1, ← operands_h h.1]
  exact ReadAlike.disperse hgray

/-! ### PACK -/

theorem packPixel {off N j : Nat} {m m' : Memory Byte} (hm : ReadAlike .bmp a.draw b.draw N m m')
    (hj : j < a.n) (hbyte : (j / a.w * a.wc + (j % a.w + off)) / 8 < N) :
    ReadAlike .bmp a.draw b.draw N (packPixel a off m j) (packPixel b off m' j) := by
  have hsource : sourcePixel a.n a.rotate j < a.n := by
    unfold sourcePixel
    split <;> omega
  unfold Machine.packPixel
  rw [← operands_n h.1, ← operands_rotate h.1, ← operands_w h.1, ← operands_wc h.1, ← h.grayAt_eq hsource]
  split
  · dsimp only
    rw [hm _ hbyte]
    exact hm.store _ _
  · exact hm

theorem packed {off : Nat} (h8 : a.wc % 8 = 0) (hoff : a.w + off ≤ a.wc) :
    ReadAlike .bmp a.draw b.draw (a.h * a.stride) (packed a off) (packed b off) := by
  unfold Machine.packed
  rw [← operands_n h.1, ← operands_h h.1, ← operands_stride h.1]
  refine List.foldl_rel (fun k hk => ?_) fun j hj m m' hm => ?_
  · rw [readByte_overwrite, readByte_overwrite, if_pos hk, if_pos hk]
  · have hj' : j < a.n := List.mem_range.mp hj
    exact h.packPixel hm hj' (packPixel_byte_lt a h8 hoff hj')

theorem packBody : SameImage (packBody a) (packBody b) := h

theorem packBody_offset_eq : (Machine.packBody a).offset = (Machine.packBody b).offset := by
  rw [packBody_offset, packBody_offset, operands_wc h.1, operands_w h.1, operands_align h.1, operands_rotate h.1]

theorem packBody_bmpAt_eq (h8 : a.wc % 8 = 0) (hw : a.w ≤ a.wc) {k : Nat} (hk : k < a.h * a.stride) :
    (Machine.packBody a).bmpAt k = (Machine.packBody b).bmpAt k := by
  have halike := h.packed h8 (canvasOffset_fits a.align a.rotate hw) k hk
  rw [operands_wc h.1, operands_w h.1, operands_align h.1, operands_rotate h.1] at halike
  unfold State.bmpAt
  rw [packBody_bmp, packBody_bmp, operands_wc h.1, operands_w h.1, operands_align h.1, operands_rotate h.1]
  exact halike

end SameImage

end

/-! ### RUN -/

/-- Settles O32: LUM makes the two images the same, whatever was there; EQ, DTH and PACK keep them so. -/
theorem conversionDependsOnPixAndOperandsOnly : Obligations.ConversionDependsOnPixAndOperandsOnly := by
  unfold Obligations.ConversionDependsOnPixAndOperandsOnly
  intro a b ha hb hg hw hh hc ho hparams hpix
  have hg' : GeometryOk b := hg.transfer hw.symm hh.symm hc.symm hparams.symm
  have hops : operands a = operands b := by rw [operands, operands, hw, hh, hc, ho]
  have hlum : SameImage (lumBody a) (lumBody b) := .lumBody hops hpix
  refine ⟨complete (runBody a), complete (runBody b), exec_of_geometry (.inr rfl) ha hg,
    exec_of_geometry (.inr rfl) hb hg', ?_⟩
  have hphotos : b.photo = a.photo := (operands_photo hlum.1).symm
  have himaged : SameImage (imaged a) (imaged b) := by
    cases hphoto : a.photo
    · rw [imaged_noPhoto hphoto, imaged_noPhoto (hphotos.trans hphoto)]
      exact hlum
    · rw [imaged_photo hphoto, imaged_photo (hphotos.trans hphoto)]
      exact hlum.eqBody.dthBody
  have hrun : SameImage (runBody a) (runBody b) := himaged.packBody
  obtain ⟨_, hgray, hhist, hdistinct, hwarn⟩ := hrun
  refine ⟨?gray, hhist, ?lut, ?bmp, hdistinct, hwarn, himaged.packBody_offset_eq⟩
  case gray =>
    intro i hi
    have hn : (runBody a).n = a.n := by rw [runBody_frame]; rfl
    exact hgray i (hn.symm ▸ hi)
  case lut =>
    intro hphoto v hv
    rw [runBody_photo hphoto, runBody_photo (hphotos.trans hphoto)]
    exact hlum.eqBody_lutAt_eq hv
  case bmp =>
    intro k hk
    have hbyte := himaged.packBody_bmpAt_eq (k := k)
    rw [imaged_wc, imaged_w, imaged_h, imaged_stride] at hbyte
    exact hbyte hg.canvas_bytes hg.width_fits hk

end Sys2Proof.Machine
end

section
/-! The invariant of 10_state.md R33 in two parts, the registers (`StatusOk`) and the image of the conversion
(`StageOk`), and that each way a step can go keeps both. -/

namespace Sys2Proof.Machine

/-! ### The two parts of the invariant -/

/-- What the invariant says of the registers and of the form of the memories: the capacities, the canonical form, ERR,
ERRCODE and ERRINFO beside PHASE, DONE beside BUSY, WARN in IDLE. -/
def StatusOk (s : State) : Prop :=
  s.params.WellFormed = true ∧ Canonical s ∧ (s.err = true ↔ s.phase = .fail) ∧
    (s.errcode ≠ .noError ↔ s.phase = .fail) ∧ (s.phase ≠ .fail → s.errinfo = 0) ∧
    (s.busy = true → s.done = false) ∧ (s.phase = .idle → s.warn = false)

/-- What LUM establishes and every later stage of the conversion keeps: the geometry, HIST and GRAY written, the sum of
HIST, DISTINCT and its range, WARN. -/
def ImageOk (s : State) : Prop :=
  GeometryOk s ∧ (∀ v, v < 256 → (Memory.lookup s.hist v).isSome = true) ∧
    (∀ i, i < s.n → (Memory.lookup s.gray i).isSome = true) ∧ histSum s = s.n ∧
    s.distinct.toNat = distinctLevels s.draw s.hist ∧ (1 ≤ s.distinct.toNat ∧ s.distinct.toNat ≤ min s.n 256) ∧
    s.warn = advisory s.photo s.distinct.toNat

/-- LUT is the exact table of 42_tone_mapper.md R82. -/
def LutExact (s : State) : Prop := ∀ v, v < 256 → (s.lutAt v).toNat = 255 * cdfAt s v / s.n

/-- Every pixel of the image is 0 or 255 (43_disperser.md R92). -/
def GrayBinary (s : State) : Prop := ∀ i, i < s.n → s.grayAt i = 0#8 ∨ s.grayAt i = 255#8

/-- What the invariant says of the image, by the stage the conversion has reached. -/
def StageOk (s : State) : Prop :=
  (converting s.phase = true → ImageOk s) ∧ (s.phase = .eqd ∨ s.phase = .dthd → s.photo = true) ∧
    (equalised s = true → LutExact s) ∧ (dithered s = true → GrayBinary s) ∧
    (s.phase = .packd → s.offset.toNat = placedAt s)

theorem inv_iff {s : State} : Inv s ↔ StatusOk s ∧ StageOk s := by
  constructor
  · intro h
    refine ⟨⟨h.params_ok, memoriesOk_iff.mp h.memories_ok, h.err_iff, h.errcode_iff, h.errinfo_zero, h.busy_not_done,
      h.warn_idle⟩, fun hc => ?_, h.photo_stage, h.lut_table, h.gray_binary, h.offset_placed⟩
    exact ⟨h.geometry hc, h.hist_written hc, h.gray_written hc, h.hist_sum hc, h.distinct_count hc, h.distinct_range hc,
      h.warn_advisory hc⟩
  · rintro ⟨⟨hparams, hcanonical, herr, hcode, hinfo, hdone, hidle⟩, himage, hphoto, hlut, hbinary, hoffset⟩
    simp only [ImageOk, imp_and] at himage
    obtain ⟨hgeometry, hhist, hgray, hsum, hcount, ⟨hlow, hhigh⟩, hwarn⟩ := himage
    exact ⟨hparams, memoriesOk_iff.mpr hcanonical, herr, hcode, hinfo, hdone, hidle, hgeometry, hhist, hgray, hsum,
      hcount, fun hc => ⟨hlow hc, hhigh hc⟩, hwarn, hphoto, hlut, hbinary, hoffset⟩

/-! ### The image, stage by stage -/

/-- Outside a conversion nothing is said of the image. -/
theorem StageOk.of_not_converting {s : State} (h : converting s.phase = false) : StageOk s := by
  unfold StageOk
  cases hp : s.phase <;> simp_all [converting, equalised, dithered]

/-- The levels of an image of at least one pixel (10_state.md R33 item 3). -/
theorem lumBody_distinct_range {s : State} (hn : s.n < 2 ^ 32) (hpos : 1 ≤ s.n) :
    1 ≤ (lumBody s).distinct.toNat ∧ (lumBody s).distinct.toNat ≤ min s.n 256 := by
  have hle : (lumBody s).distinct.toNat ≤ 256 := (lumBody_distinct_toNat s).trans_le (distinctLevels_le _ _)
  rw [lumBody_levelsPresent hn] at hle ⊢
  exact ⟨levelsPresent_pos hpos fun i _ => Nat.lt_succ_of_le (imageLuma_le s i),
    le_min (levelsPresent_le s.n (imageLuma s)) hle⟩

theorem ImageOk.lumBody {s : State} (hp : s.params.WellFormed = true) (hg : GeometryOk s) : ImageOk (lumBody s) := by
  refine ⟨hg.transfer rfl rfl rfl rfl, fun v hv => ?hist, fun i hi => ?gray, lumBody_histSum (hg.n_lt hp),
    lumBody_distinct_toNat s, lumBody_distinct_range (hg.n_lt hp) hg.n_pos, lumBody_warn_eq s⟩
  case hist =>
    rw [lumBody_hist, histogram_lookup _ _ _ v hv]
    rfl
  case gray =>
    rw [lumBody_n] at hi
    rw [lumBody_gray, Memory.lookup_overwrite, if_pos hi]
    rfl

namespace ImageOk

variable {s : State} (h : ImageOk s)
include h

theorem eqBody : ImageOk (eqBody s) := by
  obtain ⟨hg, hhist, _, hrest⟩ := h
  refine ⟨hg.transfer rfl rfl rfl rfl, hhist, fun i hi => ?_, hrest⟩
  rw [eqBody_n] at hi
  rw [eqBody_gray, Memory.lookup_overwrite, if_pos hi]
  rfl

theorem dthBody : ImageOk (dthBody s) := by
  obtain ⟨hg, hhist, hgray, hrest⟩ := h
  exact ⟨hg.transfer rfl rfl rfl rfl, hhist, fun i hi => disperse_written (hgray i hi), hrest⟩

theorem packBody : ImageOk (packBody s) := by
  obtain ⟨hg, hrest⟩ := h
  exact ⟨hg.transfer rfl rfl rfl rfl, hrest⟩

end ImageOk

/-- LUM begins a conversion. -/
theorem StageOk.lumBody {s : State} (hp : s.params.WellFormed = true) (hg : GeometryOk s) :
    StageOk (lumBody s) :=
  ⟨fun _ => .lumBody hp hg, by simp, by simp [equalised], by simp [dithered], by simp⟩

namespace StageOk

variable {s : State} (h : StageOk s)
include h

/-- EQ follows LUM. -/
theorem eqBody (hphase : s.phase = .lumd) (hphoto : s.photo = true) : StageOk (eqBody s) := by
  obtain ⟨himage, _⟩ := h
  have himage : ImageOk s := himage (by rw [hphase]; rfl)
  have hsum : histSum s = s.n := by
    obtain ⟨_, _, _, hsum, _⟩ := himage
    exact hsum
  exact ⟨fun _ => himage.eqBody, fun _ => hphoto, fun _ v hv => eqBody_lutAt_toNat hsum hv, by simp [dithered],
    by simp⟩

/-- DTH follows EQ. -/
theorem dthBody (hphase : s.phase = .eqd) : StageOk (dthBody s) := by
  obtain ⟨himage, hphoto, hlut, _⟩ := h
  have himage : ImageOk s := himage (by rw [hphase]; rfl)
  exact ⟨fun _ => himage.dthBody, fun _ => hphoto (.inl hphase), fun _ => hlut (by simp [equalised, hphase]),
    fun _ _ hi => dthBody_grayAt_binary hi, by simp⟩

/-- PACK follows LUM without photo mode, and DTH. -/
theorem packBody (hphase : s.phase = .lumd ∧ s.photo = false ∨ s.phase = .dthd) : StageOk (packBody s) := by
  obtain ⟨himage, _, hlut, hbinary, _⟩ := h
  have hconverting : converting s.phase = true := by
    rcases hphase with ⟨hphase, _⟩ | hphase <;> rw [hphase] <;> rfl
  have hdthd : s.photo = true → s.phase = .dthd := fun hphoto => by simpa [hphoto] using hphase
  have himage : ImageOk s := himage hconverting
  refine ⟨fun _ => himage.packBody, by simp, fun heq => ?lut, fun hdith => ?binary,
    fun _ => packBody_offset_toNat himage.1.width_fits⟩
  case lut => exact hlut (by simp [equalised, hdthd (by simpa [equalised] using heq)])
  case binary => exact hbinary (by simp [dithered, hdthd (by simpa [dithered] using hdith)])

/-- The stage does not depend on what the Host may still write, nor on PENDING, DONE, the inputs and the replies. -/
theorem frame (pix : List Host.Cell) (irqEn : BitVec 2) (pending : Option Word) (done buserr : Bool)
    (inputs : List Input) (replies : List Word) :
    StageOk { s with
      pix := pix, irqEn := irqEn, pending := pending, done := done, buserr := buserr, inputs := inputs
      replies := replies } := by
  obtain ⟨himage, hrest⟩ := h
  refine ⟨fun hc => ?_, hrest⟩
  obtain ⟨hg, hrest⟩ := himage hc
  exact ⟨hg.transfer rfl rfl rfl rfl, hrest⟩

end StageOk

/-- RUN goes through the stages. -/
theorem StageOk.runBody {s : State} (hp : s.params.WellFormed = true) (hg : GeometryOk s) : StageOk (runBody s) := by
  have hlum := StageOk.lumBody hp hg
  cases hphoto : s.photo
  · rw [runBody_noPhoto hphoto]
    exact hlum.packBody (.inl ⟨rfl, hphoto⟩)
  · rw [runBody_photo hphoto]
    exact ((hlum.eqBody rfl hphoto).dthBody rfl).packBody (.inr rfl)

/-- A command that executes keeps the invariant of the image. -/
theorem StageOk.bodyOf {s : State} {i : Instr} (hp : s.params.WellFormed = true) (h : StageOk s)
    (hexec : turnedAway i s = none) : StageOk (bodyOf i s) := by
  obtain ⟨_, hlegal, hchecks⟩ := turnedAway_eq_none.mp hexec
  cases i
  case lum => exact .lumBody hp (startError_eq_none_iff.mp hchecks)
  case run => exact .runBody hp (startError_eq_none_iff.mp hchecks)
  case clr => exact .of_not_converting rfl
  case eq =>
    obtain ⟨hphase, hphoto⟩ : s.phase = .lumd ∧ s.photo = true := by simpa [legal] using hlegal
    exact h.eqBody hphase hphoto
  case dth => exact h.dthBody (by simpa [legal] using hlegal)
  case pack => exact h.packBody (by simpa [legal] using hlegal)

/-! ### The registers -/

/-- The stages leave the error record alone (60_exceptions.md R148). -/
theorem bodyOf_errorRecord {i : Instr} (hi : i ≠ .clr) (s : State) :
    (bodyOf i s).err = s.err ∧ (bodyOf i s).errcode = s.errcode ∧ (bodyOf i s).errinfo = s.errinfo := by
  cases i
  case clr => exact absurd rfl hi
  case run =>
    exact runBody_induction (motive := fun t => t.err = s.err ∧ t.errcode = s.errcode ∧ t.errinfo = s.errinfo)
      ⟨rfl, rfl, rfl⟩ (fun _ h => h) (fun _ h => h) (fun _ h => h)
  all_goals exact ⟨rfl, rfl, rfl⟩

theorem bodyOf_params (i : Instr) (s : State) : (bodyOf i s).params = s.params :=
  congrArg (fun k => k.2.2.1) (keptByCommands_bodyOf i s)

/-- Outside FAIL the error record is clear (10_state.md R17 to R19). -/
theorem StatusOk.errorRecord_clear {s : State} (h : StatusOk s) (hs : s.phase ≠ .fail) :
    s.err = false ∧ s.errcode = .noError ∧ s.errinfo = 0 := by
  obtain ⟨_, _, herr, hcode, hinfo, _⟩ := h
  exact ⟨Bool.eq_false_iff.mpr (mt herr.mp hs), not_not.mp (mt hcode.mp hs), hinfo hs⟩

/-- A command that executes leaves the error record clear: CLR clears it, any other command started outside FAIL. -/
theorem bodyOf_errorRecord_clear {i : Instr} {s : State} (h : StatusOk s) (hfail : s.phase = .fail → i = .clr) :
    (bodyOf i s).err = false ∧ (bodyOf i s).errcode = .noError ∧ (bodyOf i s).errinfo = 0 := by
  by_cases hi : i = .clr
  · subst hi
    exact ⟨rfl, rfl, rfl⟩
  · obtain ⟨herr, hcode, hinfo⟩ := bodyOf_errorRecord hi s
    rw [herr, hcode, hinfo]
    exact h.errorRecord_clear fun hs => hi (hfail hs)

namespace StatusOk

variable {s : State} (h : StatusOk s)
include h

theorem complete_bodyOf {i : Instr} (hexec : turnedAway i s = none) (hfault : engineFault i s = none) :
    StatusOk (complete (bodyOf i s)) := by
  obtain ⟨hfail, _, _⟩ := turnedAway_eq_none.mp hexec
  obtain ⟨herr, hcode, hinfo⟩ := bodyOf_errorRecord_clear h hfail
  obtain ⟨hparams, hcanonical, _⟩ := h
  have hphase : (complete (bodyOf i s)).phase = phaseAfter i := bodyOf_phase i s
  refine ⟨(congrArg Params.WellFormed (bodyOf_params i s)).trans hparams, hcanonical.bodyOf hexec hfault, ?err, ?code,
    fun _ => hinfo, fun hbusy => absurd hbusy Bool.false_ne_true, fun hidle => ?warn⟩
  case err => simp [phaseAfter_ne_fail, herr]
  case code => simp [phaseAfter_ne_fail, hcode]
  case warn =>
    rw [hphase] at hidle
    obtain rfl : i = .clr := by cases i <;> simp_all [phaseAfter]
    rfl

theorem performError {e : ErrCode} (he : e ≠ .noError) (w : Word) : StatusOk (performError e w s) := by
  obtain ⟨hparams, hcanonical, _⟩ := h
  exact ⟨hparams, hcanonical, by simp, by simp [he], by simp, fun hbusy => absurd hbusy Bool.false_ne_true, by simp⟩

theorem retire : StatusOk (retire s) := by
  obtain ⟨hparams, hcanonical, herr, hcode, hinfo, _, hwarn⟩ := h
  exact ⟨hparams, hcanonical, herr, hcode, hinfo, fun hbusy => absurd hbusy Bool.false_ne_true, hwarn⟩

theorem applyReset : StatusOk (applyReset s) := by
  obtain ⟨hparams, hcanonical, _⟩ := h
  exact ⟨hparams, hcanonical.applyReset, by simp, by simp, fun _ => rfl,
    fun hbusy => absurd hbusy Bool.false_ne_true, fun _ => rfl⟩

theorem hostAccess (a : Access) : StatusOk (hostAccess a s) := by
  obtain ⟨hparams, hcanonical, herr, hcode, hinfo, hdone, hwarn⟩ := h
  have hcanonical' := hcanonical.hostAccess a
  have hdone' := hostAccess_busy_not_done a s hdone
  rw [hostAccess_frame] at hcanonical' hdone' ⊢
  exact ⟨hparams, hcanonical', herr, hcode, hinfo, hdone', hwarn⟩

end StatusOk

/-! ### Every step -/

namespace Inv

variable {s : State} (h : Inv s)
include h

theorem status : StatusOk s := (inv_iff.mp h).1

theorem stage : StageOk s := (inv_iff.mp h).2

/-- Which inputs are to come is no matter to the invariant. -/
theorem withInputs (inputs : List Input) : Inv { s with inputs := inputs } :=
  inv_iff.mpr ⟨h.status, h.stage.frame s.pix s.irqEn s.pending s.done s.buserr inputs s.replies⟩

theorem retire : Inv (retire s) :=
  inv_iff.mpr ⟨h.status.retire, h.stage.frame s.pix s.irqEn none s.done s.buserr s.inputs s.replies⟩

theorem performError {e : ErrCode} (he : e ≠ .noError) (w : Word) : Inv (performError e w s) :=
  inv_iff.mpr ⟨h.status.performError he w, .of_not_converting rfl⟩

theorem performIllegal (w : Word) : Inv (performIllegal w s) := by
  by_cases hphase : s.phase = .fail
  · rw [performIllegal_of_fail w hphase]
    exact h.retire
  · rw [performIllegal_of_not_fail w hphase]
    exact h.performError (by decide) w

theorem exec {i : Instr} {t : State} (hnext : exec i s = .next t) : Inv t := by
  rcases exec_next hnext with ⟨_, _, rfl⟩ | ⟨_, _, e, he, rfl⟩ | ⟨hexec, hfault, rfl⟩
  · exact h.retire
  · exact h.performError he (encode i)
  · have hstage := StageOk.bodyOf h.params_ok h.stage hexec
    exact inv_iff.mpr ⟨h.status.complete_bodyOf hexec hfault, hstage.frame _ _ none true _ _ _⟩

theorem applyReset : Inv (applyReset s) :=
  inv_iff.mpr ⟨h.status.applyReset, .of_not_converting rfl⟩

/-- In IDLE there is no image to keep; elsewhere the Host writes nothing the image depends on. -/
theorem hostAccess (a : Access) : Inv (hostAccess a s) := by
  refine inv_iff.mpr ⟨h.status.hostAccess a, ?_⟩
  by_cases hidle : s.phase = .idle
  · refine .of_not_converting ?_
    rw [hostAccess_frame]
    simp [hidle, converting]
  · rw [hostAccess_locked a s hidle]
    exact h.stage.frame _ _ _ _ _ _ _

theorem step {t : State} (hnext : step s = .next t) : Inv t := by
  rcases step_next hnext with ⟨rest, _, rfl⟩ | ⟨rest, _, _, rfl⟩ | ⟨rest, w, i, _, _, _, hexec⟩ |
    ⟨rest, w, e, _, _, _, rfl⟩ | ⟨a, rest, _, _, rfl⟩
  · exact (h.withInputs rest).applyReset
  · exact h.withInputs rest
  · exact (h.withInputs rest).exec hexec
  · exact (h.withInputs rest).performIllegal w
  · exact (h.withInputs rest).hostAccess a

end Inv

/-- Settles O46: one lemma for each way `step_next` gives the next state. -/
theorem everyStepKeepsTheInvariant : Obligations.EveryStepKeepsTheInvariant := by
  unfold Obligations.EveryStepKeepsTheInvariant
  intro s t h hnext
  exact h.step hnext

/-- Settles O45: after reset the registers are clear, the memories are empty and no conversion is under way. -/
theorem resetMeetsTheInvariant : Obligations.ResetMeetsTheInvariant := by
  unfold Obligations.ResetMeetsTheInvariant
  refine inv_iff.mpr ⟨?_, .of_not_converting rfl⟩
  exact ⟨by decide, ⟨rfl, rfl, rfl, rfl, rfl⟩, by decide, by decide, fun _ => rfl, by decide, fun _ => rfl⟩

/-- Settles O43: each is a field of the record. -/
theorem resetValues : Obligations.ResetValues := by
  unfold Obligations.ResetValues
  simp [State.reset, regValue, idWord, statusWord, irq, State.busy, bitAt, phaseCode]

end Sys2Proof.Machine
end

section
/-! The steps of the Engine: when one answers a next state, what it keeps, the stall (20_memory.md R48) and the end of
BUSY (45_sequencing_commands.md R118). -/

namespace Sys2Proof.Machine

/-! ### A step answers a next state, or a command faults outside its geometry -/

theorem exec_next_or_fault (i : Instr) (s : State) :
    (∃ t, exec i s = .next t) ∨
      ∃ f, turnedAway i s = none ∧ engineFault i s = some f ∧ exec i s = .fault f := by
  rw [exec_eq]
  cases turnedAway i s with
  | some t => exact .inl ⟨t, rfl⟩
  | none =>
    cases engineFault i s with
    | some f => exact .inr ⟨f, rfl, rfl, rfl⟩
    | none => exact .inl ⟨_, rfl⟩

theorem step_next_or_fault (s : State) :
    (∃ t, step s = .next t) ∨
      ∃ rest i f, turnedAway i { s with inputs := rest } = none ∧
        engineFault i { s with inputs := rest } = some f ∧ step s = .fault f := by
  rcases input_cases s with ⟨rest, hr⟩ | ⟨rest, hr⟩ | ⟨a, rest, hr, ha⟩
  · exact .inl ⟨_, step_of_reset hr⟩
  · rw [step_of_engineNext hr]
    rcases Option.eq_none_or_eq_some s.pending with hp | ⟨w, hp⟩
    · exact .inl ⟨_, engineTurn_of_none hp⟩
    · rw [engineTurn_of_some hp]
      rcases perform_cases w { s with inputs := rest } with ⟨i, _, he⟩ | ⟨e, _, he⟩
      · rw [he]
        rcases exec_next_or_fault i { s with inputs := rest } with hnext | ⟨f, hfault⟩
        · exact .inl hnext
        · exact .inr ⟨rest, i, f, hfault⟩
      · exact .inl ⟨_, he⟩
  · exact .inl ⟨_, step_of_access hr ha⟩

/-- Settles O49: a step that answers no next state is a fault, and `engineFault_eq_none` excludes it under the
geometry. -/
theorem nothingIsRefusedByTheModel : Obligations.NothingIsRefusedByTheModel := by
  unfold Obligations.NothingIsRefusedByTheModel
  constructor
  · intro s r
    rcases step_next_or_fault s with ⟨t, h⟩ | ⟨_, _, f, _, _, h⟩ <;> simp [h]
  · intro s f hg
    rcases step_next_or_fault s with ⟨t, h⟩ | ⟨rest, i, f', _, hfault, _⟩
    · simp [h]
    · have hg' : GeometryOk { s with inputs := rest } := hg.transfer rfl rfl rfl rfl
      rw [engineFault_eq_none hg' i] at hfault
      cases hfault

/-- The commands that can fault are legal in a conversion only. -/
theorem converting_of_engineFault {i : Instr} {s : State} {f : Fault} (hexec : turnedAway i s = none)
    (hfault : engineFault i s = some f) : converting s.phase = true := by
  obtain ⟨_, hlegal, _⟩ := turnedAway_eq_none.mp hexec
  cases i <;> simp only [engineFault, reduceCtorEq] at hfault
  case eq =>
    obtain ⟨hphase, _⟩ : s.phase = .lumd ∧ s.photo = true := by simpa [legal] using hlegal
    rw [hphase]
    rfl
  case dth =>
    have hphase : s.phase = .eqd := by simpa [legal] using hlegal
    rw [hphase]
    rfl
  case pack =>
    have hphase : s.phase = .lumd ∧ s.photo = false ∨ s.phase = .dthd := by simpa [legal] using hlegal
    rcases hphase with ⟨hphase, _⟩ | hphase <;> rw [hphase] <;> rfl

/-- Under the invariant a conversion has its geometry, so no command faults. -/
theorem exists_step_of_inv {s : State} (h : Inv s) : ∃ t, step s = .next t := by
  rcases step_next_or_fault s with hnext | ⟨rest, i, f, hexec, hfault, _⟩
  · exact hnext
  · have hg := (h.withInputs rest).geometry (converting_of_engineFault hexec hfault)
    rw [engineFault_eq_none hg i] at hfault
    cases hfault

/-- Settles O47, by `exists_step_of_inv`. -/
theorem blockNeverStopsUnderTheInvariant : Obligations.BlockNeverStopsUnderTheInvariant := by
  unfold Obligations.BlockNeverStopsUnderTheInvariant
  intro s h
  exact exists_step_of_inv h

/-! ### What a perform step keeps, whatever the word -/

@[simp] theorem performIllegal_pending (w : Word) (s : State) : (performIllegal w s).pending = none := by
  unfold performIllegal
  split <;> rfl

theorem keptByCommands_performIllegal (w : Word) (s : State) :
    keptByCommands (performIllegal w s) = keptByCommands s := by
  unfold performIllegal
  split <;> rfl

theorem perform_keeps {w : Word} {s t : State} (h : perform w s = .next t) :
    keptByCommands t = keptByCommands s ∧ t.pending = none := by
  rcases perform_cases w s with ⟨i, _, he⟩ | ⟨e, _, he⟩
  · rw [he] at h
    exact ⟨keptByCommands_exec h, exec_pending h⟩
  · rw [he] at h
    obtain rfl := Host.Outcome.next.inj h
    exact ⟨keptByCommands_performIllegal w s, performIllegal_pending w s⟩

/-! ### Issue and stall -/

theorem isStatusRead_eq_false_iff {a : Access} : isStatusRead a = false ↔ a ≠ .read .reg 0x08 4 :=
  beq_eq_false_iff_ne

/-- A held access stays the oldest input and the Engine performs the pending command. -/
theorem step_of_held {s : State} {w : Word} {a : Access} {rest : List Input} (hp : s.pending = some w)
    (hin : s.inputs = .access a :: rest) (ha : isStatusRead a = false) : step s = perform w s := by
  have hbusy : s.busy = true := Option.isSome_of_eq_some hp
  rw [step_of_engineNext (.inr (.inr ⟨a, rest, hin, rfl, hbusy, ha⟩))]
  exact engineTurn_of_pending hp

theorem step_of_held_keeps {s t : State} {w : Word} {a : Access} {rest : List Input} (hp : s.pending = some w)
    (hin : s.inputs = .access a :: rest) (ha : isStatusRead a = false) (h : step s = .next t) :
    t.inputs = s.inputs ∧ t.replies = s.replies ∧ t.pending = none := by
  rw [step_of_held hp hin ha] at h
  obtain ⟨hkept, hpending⟩ := perform_keeps h
  simp only [keptByCommands, Prod.mk.injEq] at hkept
  obtain ⟨_, _, _, _, hinputs, hreplies⟩ := hkept
  exact ⟨hinputs, hreplies, hpending⟩

/-- The read of STATUS has its step whether the block is busy or not. -/
theorem step_of_statusRead {s : State} {rest : List Input} (hin : s.inputs = .access (.read .reg 0x08 4) :: rest) :
    step s = .next { s with inputs := rest, replies := s.replies ++ [statusWord s] } :=
  step_of_access hin (.inr rfl)

/-- Settles O5: the write has its step when nothing is pending, and is held otherwise. -/
theorem issueLatchesTheWord : Obligations.IssueLatchesTheWord := by
  unfold Obligations.IssueLatchesTheWord
  intro s w rest hin
  refine ⟨fun hp => step_of_quiescent hp hin, fun v t hp h => ?_⟩
  obtain ⟨hinputs, _, hpending⟩ := step_of_held_keeps hp hin rfl h
  exact ⟨hinputs, hpending⟩

/-- The bits of STATUS and the number above them (10_state.md R16), over the finitely many values of the flags. -/
theorem statusBits (busy done err warn buserr : Bool) (p : Phase) :
    let w := BitVec.ofNat 32 (bitAt busy 0 + bitAt done 1 + bitAt err 2 + bitAt warn 3 + bitAt buserr 4
      + 256 * phaseCode p)
    (w.getLsbD 0 = busy ∧ w.getLsbD 1 = done ∧ w.getLsbD 2 = err ∧ w.getLsbD 3 = warn ∧ w.getLsbD 4 = buserr) ∧
      (∀ i, i < 8 → 5 ≤ i → w.getLsbD i = false) ∧ w.toNat / 256 = phaseCode p := by
  cases p <;> revert busy done err warn buserr <;> decide

/-- Settles O36, by `statusBits`. -/
theorem statusLayout : Obligations.StatusLayout := by
  unfold Obligations.StatusLayout
  intro s
  obtain ⟨⟨hbusy, hdone, herr, hwarn, hbuserr⟩, hreserved, hphase⟩ :=
    statusBits s.busy s.done s.err s.warn s.buserr s.phase
  refine ⟨hbusy, hdone, herr, hwarn, hbuserr, fun i hlow hhigh => hreserved i (by omega) hlow, hphase.trans ?_⟩
  cases s.phase <;> rfl

/-- Settles O6: the read of STATUS answers with BUSY set, any other access is held. -/
theorem stallHoldsOtherAccesses : Obligations.StallHoldsOtherAccesses := by
  unfold Obligations.StallHoldsOtherAccesses
  intro s w a rest hp hin
  constructor
  · rintro rfl
    obtain ⟨hbusy, _⟩ := statusLayout s
    exact ⟨step_of_statusRead hin, hbusy.trans (Option.isSome_of_eq_some hp)⟩
  · intro ha t h
    exact step_of_held_keeps hp hin (isStatusRead_eq_false_iff.mpr ha) h

/-- Settles O4: on the Engine's turn the decoded command is performed; the placed word has the Engine's turn next. -/
theorem stepPerformsThePendingCommand : Obligations.StepPerformsThePendingCommand := by
  unfold Obligations.StepPerformsThePendingCommand
  intro s w i hd
  have hengine : ∀ rest, s.inputs = .engine :: rest → step s = engineTurn { s with inputs := rest } :=
    fun rest hin => step_of_engineNext (.inr (.inl hin))
  refine ⟨fun hp => ⟨fun hin => ?empty, fun rest hin => ?turn, fun a rest hin ha => ?held⟩, ?placed, hengine⟩
  case empty =>
    rw [step_of_engineNext (.inl ⟨hin, hin⟩), engineTurn_of_some hp, perform_of_ok hd]
  case turn => rw [hengine rest hin, engineTurn_of_some hp, perform_of_ok hd]
  case held => rw [step_of_held hp hin (isStatusRead_eq_false_iff.mpr ha), perform_of_ok hd]
  case placed =>
    have hword : BitVec.ofNat 32 (w.toNat % 2 ^ 32) = w := by
      rw [Nat.mod_eq_of_lt w.isLt, BitVec.ofNat_toNat, BitVec.setWidth_eq]
    unfold State.withFetchWord
    rw [hword, step_of_engineNext (.inr (.inl rfl)), engineTurn_of_some (issue_pending w s), perform_of_ok hd]
    rfl

/-! ### The end of BUSY -/

/-- A step of a busy block ends BUSY, or answers a read of STATUS and leaves the block busy. -/
theorem step_of_busy {s t : State} (hbusy : s.busy = true) (h : step s = .next t) :
    t.busy = false ∨ ∃ a, s.inputs = .access a :: t.inputs ∧ t.busy = true := by
  have hidle : ∀ {t : State}, t.pending = none → t.busy = false := fun ht => by simp [State.busy, ht]
  rcases step_next h with ⟨rest, _, rfl⟩ | ⟨rest, _, hp, _⟩ | ⟨rest, w, i, _, _, _, hexec⟩ |
    ⟨rest, w, e, _, _, _, rfl⟩ | ⟨a, rest, hin, ha, _⟩
  · exact .inl rfl
  · rw [hidle hp] at hbusy
    cases hbusy
  · exact .inl (hidle (exec_pending hexec))
  · exact .inl (hidle (performIllegal_pending w _))
  · have hread : a = .read .reg 0x08 4 := by
      rcases ha with ha | ha
      · rw [ha] at hbusy
        cases hbusy
      · exact eq_of_beq ha
    subst hread
    obtain rfl := Host.Outcome.next.inj ((step_of_statusRead hin).symm.trans h)
    exact .inr ⟨_, hin, hbusy⟩

theorem busy_ends {s : State} {inputs : List Input} (hin : s.inputs = inputs) (hinv : Inv s) (hbusy : s.busy = true) :
    ∃ k t, k ≤ inputs.length + 1 ∧ runSteps k s = .next t ∧ t.busy = false := by
  induction inputs generalizing s with
  | nil =>
    obtain ⟨t, ht⟩ := exists_step_of_inv hinv
    rcases step_of_busy hbusy ht with hidle | ⟨a, ha, _⟩
    · exact ⟨1, t, le_rfl, runSteps_succ ht, hidle⟩
    · rw [hin] at ha
      cases ha
  | cons i rest ih =>
    obtain ⟨t, ht⟩ := exists_step_of_inv hinv
    rcases step_of_busy hbusy ht with hidle | ⟨a, ha, hbusy'⟩
    · exact ⟨1, t, Nat.le_add_left 1 _, runSteps_succ ht, hidle⟩
    · have hrest : t.inputs = rest := (List.cons.inj (ha.symm.trans hin)).2
      obtain ⟨k, u, hk, hrun, hidle⟩ := ih hrest (hinv.step ht) hbusy'
      exact ⟨k + 1, u, Nat.succ_le_succ hk, (runSteps_succ ht).trans hrun, hidle⟩

/-- Settles O7, by induction on the inputs: the Engine moves unless a read of STATUS takes an input. -/
theorem busyEndsWithinItsInputs : Obligations.BusyEndsWithinItsInputs := by
  unfold Obligations.BusyEndsWithinItsInputs
  intro s hinv hbusy
  exact busy_ends rfl hinv hbusy

/-! ### FAIL, reset and the interrupt line -/

/-- Settles O14: a Host access keeps PHASE, and in FAIL the Engine ignores every word but that of CLR. -/
theorem onlyClrAndResetLeaveFailure : Obligations.OnlyClrAndResetLeaveFailure := by
  unfold Obligations.OnlyClrAndResetLeaveFailure
  intro s t hfail h ht
  rcases step_next h with ⟨rest, hin, _⟩ | ⟨rest, _, _, rfl⟩ | ⟨rest, w, i, _, hp, hd, hexec⟩ |
    ⟨rest, w, e, _, _, _, rfl⟩ | ⟨a, rest, _, _, rfl⟩
  · exact .inl ⟨rest, hin⟩
  · exact absurd hfail ht
  · rcases exec_next hexec with ⟨_, _, rfl⟩ | ⟨hs, _, _⟩ | ⟨haway, _, _⟩
    · exact absurd hfail ht
    · exact absurd hfail hs
    · obtain rfl := (turnedAway_eq_none.mp haway).1 hfail
      exact .inr (hp.trans (congrArg some (decode_eq_ok_iff.mp hd)))
  · rw [performIllegal_of_fail (s := { s with inputs := rest }) w hfail] at ht
    exact absurd hfail ht
  · rw [hostAccess_frame] at ht
    exact absurd hfail ht

/-- Settles O44: the step is `applyReset`, which keeps the memories of an idle block and PIX always. -/
theorem resetPutsRegistersBack : Obligations.ResetPutsRegistersBack := by
  unfold Obligations.ResetPutsRegistersBack
  intro s rest hin
  refine ⟨_, step_of_reset hin, rfl, rfl, fun k => rfl, fun hp => ?_⟩
  simp [State.busy, hp]

/-- A perform step under the invariant leaves DONE or ERR, not both. -/
theorem exec_err_of_done {i : Instr} {s t : State} (hinv : Inv s) (hbusy : s.busy = true) (h : exec i s = .next t)
    (hdone : t.done = true) : t.err = false := by
  have hnotDone : s.done = false := hinv.busy_not_done hbusy
  rcases exec_next h with ⟨_, _, rfl⟩ | ⟨_, _, e, _, rfl⟩ | ⟨_, _, rfl⟩
  · exact absurd (hnotDone.symm.trans hdone) Bool.false_ne_true
  · exact absurd (hnotDone.symm.trans hdone) Bool.false_ne_true
  · rw [Bool.eq_false_iff, ne_eq, (hinv.exec h).err_iff]
    exact fun hfail => phaseAfter_ne_fail i ((bodyOf_phase i s).symm.trans hfail)

/-- Settles O42: `irq` reads DONE, ERR and IRQ_EN, of which a command leaves one flag and no change of the enables. -/
theorem irqFollowsStatusAndEnables : Obligations.IrqFollowsStatusAndEnables := by
  unfold Obligations.IrqFollowsStatusAndEnables
  refine ⟨fun s => ?level, fun s t i hinv hbusy h => ?command, fun s d hd herr => ?acknowledge, fun s w herr => ?issue⟩
  case level =>
    obtain ⟨_, hdone, herr, _⟩ := statusLayout s
    rw [hdone, herr]
    rfl
  case command =>
    have henables : t.irqEn = s.irqEn := congrArg (fun k => k.2.1.1) (keptByCommands_exec h)
    rw [← henables]
    constructor
    · intro hdone
      simp [irq, State.doneIe, hdone, exec_err_of_done hinv hbusy h hdone]
    · intro herr
      have hdone : t.done = false := by
        rw [Bool.eq_false_iff]
        intro hdone
        exact Bool.false_ne_true ((exec_err_of_done hinv hbusy h hdone).symm.trans herr)
      simp [irq, State.errIe, hdone, herr]
  case acknowledge => simp [irq, writeStatus, hd, herr]
  case issue => simp [irq, herr]

end Sys2Proof.Machine
end

section
/-! The Host's accesses one by one (10_state.md R11 to R25, 20_memory.md R40 to R45, 60_exceptions.md R150, R151): a
register by its offset, what is refused, and the little-endian bytes of the memories. -/

namespace Sys2Proof.Machine

/-! ### Registers -/

theorem regAt_regOffset (r : RegName) : regAt (regOffset r) = some r := by
  cases r <;> rfl

theorem regAt_eq_some {addr : Nat} {r : RegName} (h : regAt addr = some r) : addr = regOffset r := by
  unfold regAt at h
  split at h <;> cases h <;> rfl

/-- Every register is a word inside REG (10_state.md R23). -/
theorem accessOk_reg (p : Params) (r : RegName) : accessOk p .reg (regOffset r) 4 = true := by
  cases r <;> rfl

theorem memRead_reg (r : RegName) (s : State) : memRead .reg (regOffset r) 4 s = (regValue r s, s) := by
  simp [memRead, accessOk_reg, regAt_regOffset]

theorem memWrite_reg (r : RegName) (v : Word) (s : State) : memWrite .reg (regOffset r) 4 v s = regWrite r v s := by
  simp [memWrite, accessOk_reg, hostWritable, regAt_regOffset]

/-- A register read does not look at the inputs. -/
theorem regValue_withInputs (r : RegName) (s : State) (inputs : List Input) :
    regValue r { s with inputs := inputs } = regValue r s := by
  cases r <;> rfl

section
variable {s : State} {rest : List Input} (hp : s.pending = none)
include hp

theorem step_of_regWrite (r : RegName) {v : Word} (hin : s.inputs = .access (.write .reg (regOffset r) 4 v) :: rest) :
    step s = .next (regWrite r v { s with inputs := rest }) := by
  rw [step_of_quiescent hp hin, hostAccess, memWrite_reg]

theorem step_of_regRead (r : RegName) (hin : s.inputs = .access (.read .reg (regOffset r) 4) :: rest) :
    step s = .next { s with inputs := rest, replies := s.replies ++ [regValue r s] } := by
  rw [step_of_quiescent hp hin, hostAccess, memRead_reg, regValue_withInputs]

end

/-- The operand registers are stored in IDLE and refused outside it (10_state.md R25). -/
theorem lockedWrite_of_not_idle {s : State} (h : s.phase ≠ .idle) (written : State) :
    lockedWrite s written = refuseAccess s :=
  if_neg h

/-- Settles O34: each write is its register's `lockedWrite`. -/
theorem operandRegistersLockOutsideIdle : Obligations.OperandRegistersLockOutsideIdle := by
  unfold Obligations.OperandRegistersLockOutsideIdle
  intro s v rest hp
  refine ⟨step_of_regWrite hp .width, step_of_regWrite hp .height, step_of_regWrite hp .canvasWidth, fun hin => ?_⟩
  rw [BitVec.ofNat_toNat]
  exact step_of_regWrite hp .opts hin

/-- Write-1-to-clear as a mask (10_state.md R16). -/
theorem writeStatus_eq (d : Word) (s : State) :
    writeStatus d s = { s with done := s.done && !d.getLsbD 1, buserr := s.buserr && !d.getLsbD 4 } := by
  unfold writeStatus
  generalize d.getLsbD 1 = clearDone
  generalize d.getLsbD 4 = clearBuserr
  cases clearDone <;> cases clearBuserr <;> simp

/-- Settles O35: neither write is locked. -/
theorem controlRegisterWrites : Obligations.ControlRegisterWrites := by
  unfold Obligations.ControlRegisterWrites
  intro s v rest hp
  refine ⟨fun hin => ?enables, fun hin => ?status⟩
  case enables =>
    rw [BitVec.ofNat_toNat]
    exact step_of_regWrite hp .irqEn hin
  case status =>
    rw [step_of_regWrite hp .status hin]
    exact congrArg Host.Outcome.next (writeStatus_eq v _)

/-- Settles O37: each pair of the list is a register's offset and value. -/
theorem registerReads : Obligations.RegisterReads := by
  unfold Obligations.RegisterReads
  intro s rest addr v hp hin hmem
  obtain ⟨r, rfl, rfl⟩ : ∃ r, addr = regOffset r ∧ v = regValue r s := by
    simp only [List.mem_cons, List.not_mem_nil, or_false, Prod.mk.injEq, BitVec.ofNat_toNat] at hmem
    rcases hmem with ⟨rfl, rfl⟩ | ⟨rfl, rfl⟩ | ⟨rfl, rfl⟩ | ⟨rfl, rfl⟩ | ⟨rfl, rfl⟩ | ⟨rfl, rfl⟩ | ⟨rfl, rfl⟩ |
      ⟨rfl, rfl⟩ | ⟨rfl, rfl⟩ | ⟨rfl, rfl⟩ | ⟨rfl, rfl⟩ | ⟨rfl, rfl⟩
    · exact ⟨.id, rfl, rfl⟩
    · exact ⟨.cmd, rfl, rfl⟩
    · exact ⟨.status, rfl, rfl⟩
    · exact ⟨.errinfo, rfl, rfl⟩
    · exact ⟨.width, rfl, rfl⟩
    · exact ⟨.height, rfl, rfl⟩
    · exact ⟨.canvasWidth, rfl, rfl⟩
    · exact ⟨.offset, rfl, rfl⟩
    · exact ⟨.irqEn, rfl, rfl⟩
    · exact ⟨.opts, rfl, rfl⟩
    · exact ⟨.distinct, rfl, rfl⟩
    · refine ⟨.errcode, rfl, ?_⟩
      unfold regValue
      cases s.errcode <;> rfl
  exact step_of_regRead hp r hin

/-! ### Refused accesses -/

section
variable {s : State} {space : Space} {addr n : Nat}

theorem memRead_of_not_inRange (h : ¬inRange s space addr n) : memRead space addr n s = (0, refuseAccess s) := by
  rw [← accessOk_iff] at h
  exact if_neg h

theorem memRead_of_unmapped (h : regAt addr = none) : memRead .reg addr n s = (0, refuseAccess s) := by
  unfold memRead
  rw [h]
  exact ite_self _

theorem memWrite_of_not_inRange (h : ¬inRange s space addr n) (v : Word) :
    memWrite space addr n v s = refuseAccess s := by
  rw [← accessOk_iff] at h
  simp [memWrite, h]

theorem memWrite_of_readOnly_space (h : hostWritable space = false) (v : Word) :
    memWrite space addr n v s = refuseAccess s := by
  simp [memWrite, h]

/-- A write into REG is refused at every offset whose register, if any, refuses it. -/
theorem memWrite_of_reg_refused {v : Word} (h : ∀ r, regAt addr = some r → regWrite r v s = refuseAccess s) :
    memWrite .reg addr n v s = refuseAccess s := by
  unfold memWrite
  split
  · cases hr : regAt addr with
    | none => rfl
    | some r => exact h r hr
  · rfl

end

theorem regAt_of_unmapped {addr : Nat} (h : addr ∈ unmappedOffsets) : regAt addr = none := by
  have hall : ∀ a ∈ unmappedOffsets, regAt a = none := by decide
  exact hall addr h

theorem regWrite_of_readOnly {s : State} {addr : Nat} {r : RegName} (h : addr ∈ readOnlyOffsets)
    (hr : regAt addr = some r) (v : Word) : regWrite r v s = refuseAccess s := by
  rw [regAt_eq_some hr] at h
  cases r <;> simp [readOnlyOffsets, regOffset] at h <;> rfl

theorem regWrite_of_locked {s : State} {addr : Nat} {r : RegName} (h : addr ∈ lockedOffsets) (hs : s.phase ≠ .idle)
    (hr : regAt addr = some r) (v : Word) : regWrite r v s = refuseAccess s := by
  rw [regAt_eq_some hr] at h
  cases r <;> simp [lockedOffsets, regOffset] at h <;> exact lockedWrite_of_not_idle hs _

/-- Settles O33: one lemma for each reason of R151. -/
theorem refusedAccessesSetBuserr : Obligations.RefusedAccessesSetBuserr := by
  unfold Obligations.RefusedAccessesSetBuserr
  intro s space addr n rest hp
  refine ⟨fun hin hrefused => ?read, fun v hin hrefused => ?write⟩
  case read =>
    have hread : memRead space addr n { s with inputs := rest } = (0, refuseAccess { s with inputs := rest }) := by
      rcases hrefused with hrange | ⟨rfl, hunmapped⟩
      · exact memRead_of_not_inRange hrange
      · exact memRead_of_unmapped (regAt_of_unmapped hunmapped)
    rw [step_of_quiescent hp hin, hostAccess, hread]
    rfl
  case write =>
    have hwrite : memWrite space addr n v { s with inputs := rest } = refuseAccess { s with inputs := rest } := by
      rcases hrefused with hrange | ⟨hreg, hpix⟩ | ⟨rfl, hunmapped | hreadOnly | ⟨hlocked, hphase⟩⟩
      · exact memWrite_of_not_inRange (s := { s with inputs := rest }) hrange v
      · exact memWrite_of_readOnly_space (by cases space <;> simp_all [hostWritable]) v
      · exact memWrite_of_reg_refused fun r hr => by simp [regAt_of_unmapped hunmapped] at hr
      · exact memWrite_of_reg_refused fun r hr => regWrite_of_readOnly hreadOnly hr v
      · exact memWrite_of_reg_refused fun r hr =>
          regWrite_of_locked (s := { s with inputs := rest }) hlocked hphase hr v
    rw [step_of_quiescent hp hin, hostAccess, hwrite]
    rfl

/-! ### BUSERR -/

theorem lockedWrite_buserr {s t : State} (ht : t.buserr = true) : (lockedWrite s t).buserr = true := by
  unfold lockedWrite
  split
  · exact ht
  · rfl

/-- No register but STATUS clears BUSERR. -/
theorem regWrite_buserr {r : RegName} (hr : r ≠ .status) (v : Word) {s : State} (hs : s.buserr = true) :
    (regWrite r v s).buserr = true := by
  cases r
  case status => exact absurd rfl hr
  case cmd => exact hs
  case irqEn => exact hs
  case width => exact lockedWrite_buserr hs
  case height => exact lockedWrite_buserr hs
  case canvasWidth => exact lockedWrite_buserr hs
  case opts => exact lockedWrite_buserr hs
  all_goals rfl

/-- STATUS clears BUSERR by bit 4. -/
theorem regWrite_clears_buserr {r : RegName} {v : Word} {s : State} (hs : s.buserr = true)
    (h : (regWrite r v s).buserr = false) : r = .status ∧ v.getLsbD 4 = true := by
  by_cases hr : r = .status
  · subst hr
    have hmask : (s.buserr && !v.getLsbD 4) = false := (congrArg State.buserr (writeStatus_eq v s)).symm.trans h
    rw [hs, Bool.true_and, Bool.not_eq_false'] at hmask
    exact ⟨rfl, hmask⟩
  · exact absurd (h.symm.trans (regWrite_buserr hr v hs)) Bool.false_ne_true

theorem hostAccess_clears_buserr {a : Access} {s : State} (hs : s.buserr = true)
    (h : (hostAccess a s).buserr = false) : ∃ v, a = .write .reg 0x08 4 v ∧ v.getLsbD 4 = true := by
  rcases hostAccess_cases a s with ⟨space, addr, n, v, rfl, ha⟩ | ⟨_, _, _, _, _, ha | ha⟩ <;> rw [ha] at h
  · rcases memWrite_cases space addr n v s with hw | ⟨r, rfl, rfl, hr, hw⟩ | ⟨_, _, hw⟩ <;> rw [hw] at h
    · exact absurd h.symm Bool.false_ne_true
    · obtain ⟨rfl, hbit⟩ := regWrite_clears_buserr hs h
      rw [regAt_eq_some hr]
      exact ⟨v, rfl, hbit⟩
    · exact absurd (h.symm.trans hs) Bool.false_ne_true
  · exact absurd (h.symm.trans hs) Bool.false_ne_true
  · exact absurd h.symm Bool.false_ne_true

/-- Settles O41: the Engine keeps BUSERR, and the Host clears it by one write only. -/
theorem buserrIsSticky : Obligations.BuserrIsSticky := by
  unfold Obligations.BuserrIsSticky
  intro s t hs h ht
  have hkept : ∀ {u : State}, keptByCommands t = keptByCommands u → u.buserr = true → False := fun hk hu =>
    Bool.false_ne_true (ht.symm.trans ((congrArg (fun k => k.2.1.2.1) hk).trans hu))
  rcases step_next h with ⟨rest, hin, _⟩ | ⟨rest, _, _, rfl⟩ | ⟨rest, w, i, _, _, _, hexec⟩ |
    ⟨rest, w, e, _, _, _, rfl⟩ | ⟨a, rest, hin, _, rfl⟩
  · exact .inl ⟨rest, hin⟩
  · exact absurd (ht.symm.trans hs) Bool.false_ne_true
  · exact (hkept (keptByCommands_exec hexec) hs).elim
  · exact (hkept (keptByCommands_performIllegal w _) hs).elim
  · obtain ⟨v, rfl, hbit⟩ := hostAccess_clears_buserr (s := { s with inputs := rest }) hs ht
    exact .inr ⟨v, rest, hin, hbit⟩

/-! ### Little-endian bytes -/

/-- Bytes below the top one read as a sum of powers (20_memory.md R41). -/
theorem littleEndian_map_range (n : Nat) (byte : Nat → Byte) :
    littleEndian ((List.range n).map byte) =
      ((List.range n).map fun j => (byte j).toNat * 2 ^ (8 * j)).sum := by
  induction n generalizing byte with
  | zero => rfl
  | succ n ih =>
    have hpow : ∀ j, (byte (j + 1)).toNat * 2 ^ (8 * (j + 1)) = 256 * ((byte (j + 1)).toNat * 2 ^ (8 * j)) := by
      intro j
      rw [Nat.mul_succ, Nat.pow_add]
      ring
    rw [List.range_succ_eq_map, List.map_cons, List.map_cons, List.map_map, List.map_map, littleEndian,
      List.sum_cons, Nat.mul_zero, Nat.pow_zero, Nat.mul_one]
    have htail := ih fun j => byte (j + 1)
    simp only [Function.comp_def, Nat.succ_eq_add_one, hpow, htail, List.sum_map_mul_left]

theorem littleEndian_lt (bytes : List Byte) : littleEndian bytes < 256 ^ bytes.length := by
  induction bytes with
  | nil => decide
  | cons b bytes ih =>
    have hb : b.toNat < 256 := b.isLt
    rw [littleEndian, List.length_cons, Nat.pow_succ]
    omega

/-- The bytes of a number by position are its little-endian bytes. -/
theorem map_range_byte (n v : Nat) :
    ((List.range n).map fun j => BitVec.ofNat 8 (v / 256 ^ j)) = littleEndianBytes n v := by
  induction n generalizing v with
  | zero => rfl
  | succ n ih =>
    rw [List.range_succ_eq_map, List.map_cons, List.map_map, littleEndianBytes, ← ih, Nat.pow_zero, Nat.div_one]
    simp only [Function.comp_def, Nat.succ_eq_add_one, Nat.pow_succ', Nat.div_div_eq_div_mul]

theorem extractLsb'_byte (w : Word) (j : Nat) : w.extractLsb' (8 * j) 8 = BitVec.ofNat 8 (w.toNat / 256 ^ j) := by
  rw [BitVec.extractLsb', Nat.shiftRight_eq_div_pow, Nat.pow_mul]

/-- The low `n` bytes of a word read back as its value modulo 256 ^ n. -/
theorem littleEndian_extract (w : Word) (n : Nat) :
    littleEndian ((List.range n).map fun j => w.extractLsb' (8 * j) 8) = w.toNat % 256 ^ n := by
  simp only [extractLsb'_byte, map_range_byte, littleEndian_littleEndianBytes]

/-! ### Memory accesses -/

theorem memRead_of_inRange {s : State} {space : Space} {addr n : Nat} (hspace : space ≠ .reg)
    (h : inRange s space addr n) : memRead space addr n s = (BitVec.ofNat 32 (spaceValue s space addr n), s) := by
  have hok := (accessOk_iff s space addr n).mpr h
  unfold memRead
  rw [if_pos hok]
  cases space
  case reg => exact absurd rfl hspace
  all_goals rfl

/-- A memory read does not look at the inputs. -/
theorem spaceValue_withInputs (s : State) (space : Space) (addr n : Nat) (inputs : List Input) :
    spaceValue { s with inputs := inputs } space addr n = spaceValue s space addr n := by
  cases space <;> rfl

theorem step_of_memRead {s : State} {rest : List Input} {space : Space} {addr n : Nat} (hp : s.pending = none)
    (hspace : space ≠ .reg) (h : inRange s space addr n) (hin : s.inputs = .access (.read space addr n) :: rest) :
    step s = .next { s with
      inputs := rest, replies := s.replies ++ [BitVec.ofNat 32 (spaceValue s space addr n)] } := by
  have hread := memRead_of_inRange (s := { s with inputs := rest }) hspace h
  rw [step_of_quiescent hp hin, hostAccess, hread, spaceValue_withInputs]

/-- An access of a legal size has at most four bytes (20_memory.md R44), so its value fits a word. -/
theorem spaceValue_lt {s : State} {space : Space} {addr n : Nat} (h : inRange s space addr n) :
    spaceValue s space addr n < 2 ^ 32 := by
  obtain ⟨hsize, _, _⟩ := h
  have hn : n ≤ 4 := by
    unfold sizeAdmitted at hsize
    split at hsize <;> omega
  have hlt := littleEndian_lt ((List.range n).map fun j => spaceByte s space (addr + j))
  rw [List.length_map, List.length_range] at hlt
  exact hlt.trans_le (Nat.pow_le_pow_right (by decide) hn)

/-- Bucket v of HIST, read whole at offset 4v (20_memory.md R40). -/
theorem spaceValue_hist (s : State) (v : Nat) : spaceValue s .hist (4 * v) 4 = (s.histAt v).toNat := by
  have hbytes : ((List.range 4).map fun j => spaceByte s .hist (4 * v + j)) =
      (List.range 4).map fun j => (s.histAt v).extractLsb' (8 * j) 8 := by
    refine List.map_congr_left fun j hj => ?_
    have hj := List.mem_range.mp hj
    unfold spaceByte
    rw [show (4 * v + j) / 4 = v by omega, show (4 * v + j) % 4 = j by omega]
  unfold spaceValue
  rw [hbytes, littleEndian_extract]
  exact Nat.mod_eq_of_lt (s.histAt v).isLt

/-- Settles O39: the word returned is the value of the bytes, which fits a word. -/
theorem memoryReadsAreLittleEndian : Obligations.MemoryReadsAreLittleEndian := by
  unfold Obligations.MemoryReadsAreLittleEndian
  intro s rest hp
  refine ⟨fun space byteAt addr n hmem hrange hin => ?bytes, fun v hv hin => ?bucket⟩
  case bytes =>
    obtain ⟨hspace, hbyte⟩ : space ≠ .reg ∧ spaceByte s space = byteAt := by
      simp only [List.mem_cons, List.not_mem_nil, or_false, Prod.mk.injEq] at hmem
      rcases hmem with ⟨rfl, rfl⟩ | ⟨rfl, rfl⟩ | ⟨rfl, rfl⟩ | ⟨rfl, rfl⟩ <;> exact ⟨by decide, rfl⟩
    refine ⟨_, step_of_memRead hp hspace hrange hin, ?_⟩
    rw [BitVec.toNat_ofNat, Nat.mod_eq_of_lt (spaceValue_lt hrange), spaceValue, hbyte]
    exact littleEndian_map_range n fun j => byteAt (addr + j)
  case bucket =>
    have hrange : inRange s .hist (4 * v) 4 := ⟨by simp [sizeAdmitted], by omega, by simp only [spaceBytes]; omega⟩
    rw [step_of_memRead hp (by decide) hrange hin, spaceValue_hist, BitVec.ofNat_toNat, BitVec.setWidth_eq]

theorem memWrite_pix_of_inRange {s : State} {addr n : Nat} (h : inRange s .pix addr n) (v : Word) :
    memWrite .pix addr n v s = { s with pix := pixStore s.pix addr n v } := by
  have hok := (accessOk_iff s .pix addr n).mpr h
  simp [memWrite, hok, hostWritable]

/-- The bytes just written read back as the data (20_memory.md R43). -/
theorem spaceValue_pixStore (s : State) (addr n : Nat) {v : Word} (hv : v.toNat < 2 ^ (8 * n)) :
    spaceValue { s with pix := pixStore s.pix addr n v } .pix addr n = v.toNat := by
  have hbytes : ((List.range n).map fun j =>
      spaceByte { s with pix := pixStore s.pix addr n v } .pix (addr + j)) =
      (List.range n).map fun j => v.extractLsb' (8 * j) 8 := by
    refine List.map_congr_left fun j hj => ?_
    have hj := List.mem_range.mp hj
    refine (pixStore_read 0 s.pix addr n v (addr + j)).trans ?_
    rw [if_pos (by omega), Nat.add_sub_cancel_left]
  unfold spaceValue
  rw [hbytes, littleEndian_extract]
  exact Nat.mod_eq_of_lt (hv.trans_eq (Nat.pow_mul 2 8 n))

/-- Settles O38: the write stores the bytes of the data in the range and nowhere else. -/
theorem pixWriteThenRead : Obligations.PixWriteThenRead := by
  unfold Obligations.PixWriteThenRead
  intro s addr n v hp hrange hv
  have hwrite := memWrite_pix_of_inRange (s := { s with inputs := [] }) hrange v
  refine ⟨{ s with pix := pixStore s.pix addr n v, inputs := [] }, ?write, rfl, ?inside, ?outside, ?readBack⟩
  case write =>
    rw [step_of_quiescent (s := { s with inputs := [.access (.write .pix addr n v)] }) hp rfl, hostAccess]
    exact congrArg Host.Outcome.next hwrite
  case inside =>
    intro j hj
    have hread := pixStore_read 0 s.pix addr n v (addr + j)
    rw [if_pos (by omega), Nat.add_sub_cancel_left] at hread
    refine (congrArg BitVec.toNat hread).trans ?_
    rw [BitVec.extractLsb'_toNat, Nat.shiftRight_eq_div_pow]
  case outside =>
    intro k hk
    refine (pixStore_read 0 s.pix addr n v k).trans ?_
    rw [if_neg (by omega)]
    rfl
  case readBack =>
    have hvalue := spaceValue_pixStore { s with inputs := [.access (.read .pix addr n)] } addr n hv
    refine (step_of_memRead (s := { s with
      pix := pixStore s.pix addr n v, inputs := [.access (.read .pix addr n)] }) hp (by decide) hrange rfl).trans ?_
    rw [hvalue, BitVec.ofNat_toNat, BitVec.setWidth_eq]

end Sys2Proof.Machine
end

section
/-! The stream of the Sink Writer (48_host_framing.md R122 to R127): when there is one, and its length. -/

namespace Sys2Proof.Machine

/-- The stream without the cut trailer (48_host_framing.md R125). -/
def uncutStream (bmp : Nat → Byte) (wc h lmax : Nat) : List Byte :=
  preamble ++ ((List.range (bandCount h lmax)).map (bandFrame bmp wc h lmax)).flatten

section
variable (bmp : Nat → Byte) {wc h lmax : Nat} (cut : Bool)

theorem sinkStream_of_fits (hwc : wc ≤ 65535) (hlow : 1 ≤ lmax) (hhigh : lmax ≤ 65535) :
    sinkStream bmp wc h lmax cut = .ok (uncutStream bmp wc h lmax ++ cutBytes cut) := by
  unfold sinkStream
  rw [if_neg (by omega), if_neg (by omega), if_neg (by omega)]
  rfl

/-- Outside the fields of the wire format there is no stream (48_host_framing.md R127). -/
theorem sinkStream_of_not_fits (hfits : 65535 < wc ∨ 65535 < lmax ∨ lmax = 0) :
    ∃ r, sinkStream bmp wc h lmax cut = .error r := by
  unfold sinkStream
  split_ifs with hwc hhigh hzero
  · exact ⟨_, rfl⟩
  · exact ⟨_, rfl⟩
  · exact ⟨_, rfl⟩
  · omega

end

/-- A frame is the store command, 17 bytes and the rows, and the flush command, 7 bytes (48_host_framing.md R123,
R124). -/
@[simp] theorem length_bandFrame (bmp : Nat → Byte) (wc h lmax b : Nat) :
    (bandFrame bmp wc h lmax b).length = 24 + bandRows h lmax b * (wc / 8) := by
  have hflush : flushCommand.length = 7 := rfl
  rw [bandFrame, List.length_append, length_storeCommand, hflush]
  omega

/-- All bands together hold the rows of the image (48_host_framing.md R122). -/
theorem sum_bandRows (h : Nat) {lmax : Nat} (hlow : 1 ≤ lmax) :
    ((List.range (bandCount h lmax)).map (bandRows h lmax)).sum = h := by
  rw [sum_bandRows_range, min_eq_right ((bandCount_le_iff hlow).mp le_rfl)]

theorem length_uncutStream (bmp : Nat → Byte) (wc h : Nat) {lmax : Nat} (hlow : 1 ≤ lmax) :
    (uncutStream bmp wc h lmax).length = 2 + 24 * bandCount h lmax + h * (wc / 8) := by
  have hframes : ((List.range (bandCount h lmax)).map (bandFrame bmp wc h lmax)).flatten.length =
      24 * bandCount h lmax + h * (wc / 8) := by
    rw [List.length_flatten, List.map_map]
    simp only [Function.comp_def, length_bandFrame]
    rw [List.sum_map_add, List.sum_map_mul_right, sum_bandRows h hlow, List.map_const', List.sum_replicate,
      List.length_range, smul_eq_mul, Nat.mul_comm]
  have hpreamble : preamble.length = 2 := rfl
  rw [uncutStream, List.length_append, hpreamble, hframes, Nat.add_assoc]

/-- Settles O51: the stream is the preamble and one frame for each band. -/
theorem sinkStreamLength : Obligations.SinkStreamLength := by
  unfold Obligations.SinkStreamLength
  intro bmp wc h lmax
  refine ⟨fun hlow hhigh hwc => ?_, sinkStream_of_not_fits bmp false⟩
  refine ⟨uncutStream bmp wc h lmax, ?_, rfl, length_uncutStream bmp wc h hlow⟩
  rw [sinkStream_of_fits bmp false hwc hlow hhigh]
  exact congrArg Except.ok (List.append_nil _)

end Sys2Proof.Machine
end

section
/-! The Host's conversion (48_host_framing.md R128), script by script: the writes before it, the command part in either
form, and what the Host does with the STATUS it reads. -/

namespace Sys2Proof.Machine

/-! ### The Host's writes before a conversion -/

/-- OPTS as the Host writes it (30_encoding.md R66 `OPT`). -/
def optsOf (photo rotate : Bool) (align : Align) : BitVec 4 :=
  (BitVec.ofNat 32 (photo.toNat + 2 * rotate.toNat + 4 * alignCode align)).setWidth 4

theorem optsOf_fields (photo rotate : Bool) (align : Align) :
    (optsOf photo rotate align).getLsbD 0 = photo ∧ (optsOf photo rotate align).getLsbD 1 = rotate ∧
      alignOf ((optsOf photo rotate align).getLsbD 3) ((optsOf photo rotate align).getLsbD 2) = align := by
  cases photo <;> cases rotate <;> cases align <;> decide

/-- `s` with the operands of a conversion, PIX and BUSERR replaced, and no input left. -/
def prepared (c : HostConfig) (img : Image) (pix : List Host.Cell) (buserr : Bool) (s : State) : State :=
  { s with
    width := img.width, height := img.height, canvasWidth := c.canvasWidth, opts := optsOf c.photo c.rotate c.align
    pix := pix, buserr := buserr, inputs := [] }

section
variable (c : HostConfig) (img : Image) (pix : List Host.Cell) (buserr : Bool) (s : State)

@[simp] theorem prepared_photo : (prepared c img pix buserr s).photo = c.photo :=
  (optsOf_fields c.photo c.rotate c.align).1

@[simp] theorem prepared_rotate : (prepared c img pix buserr s).rotate = c.rotate :=
  (optsOf_fields c.photo c.rotate c.align).2.1

@[simp] theorem prepared_align : (prepared c img pix buserr s).align = c.align :=
  (optsOf_fields c.photo c.rotate c.align).2.2

end

/-- In IDLE an operand register takes the Host's write (10_state.md R25). -/
theorem runScript_operandWrite {s t : State} {r : RegName} {v : Word} {rest : List Input} (hphase : s.phase = .idle)
    (hp : s.pending = none) (hwrite : regWrite r v { s with inputs := [] } = lockedWrite { s with inputs := [] } t) :
    runScript (wr r v :: rest) s = runScript rest t := by
  rw [wr, runScript_access hp, hostAccess, memWrite_reg, hwrite, lockedWrite, if_pos hphase]

/-- `s` with the four operand registers replaced and no input left. -/
def withOperands (w h wc : Word) (opts : BitVec 4) (s : State) : State :=
  { s with width := w, height := h, canvasWidth := wc, opts := opts, inputs := [] }

/-- The writes before the pixels leave `prepared`. -/
theorem runScript_prepare (c : HostConfig) (img : Image) {s : State} (hphase : s.phase = .idle)
    (hp : s.pending = none) :
    runScript (prepare c img) s = runScript (loadPix img.pixels) (prepared c img s.pix s.buserr s) := by
  let optsWrite := opt c.photo c.rotate c.align
  calc
    _ = runScript (wr .height img.height :: wr .canvasWidth c.canvasWidth :: optsWrite :: loadPix img.pixels)
        (withOperands img.width s.height s.canvasWidth s.opts s) :=
      runScript_operandWrite (r := .width) hphase hp rfl
    _ = runScript (wr .canvasWidth c.canvasWidth :: optsWrite :: loadPix img.pixels)
        (withOperands img.width img.height s.canvasWidth s.opts s) :=
      runScript_operandWrite (s := withOperands img.width s.height s.canvasWidth s.opts s) hphase hp rfl
    _ = runScript (optsWrite :: loadPix img.pixels)
        (withOperands img.width img.height c.canvasWidth s.opts s) :=
      runScript_operandWrite (s := withOperands img.width img.height s.canvasWidth s.opts s) hphase hp rfl
    _ = runScript (loadPix img.pixels) (prepared c img s.pix s.buserr s) :=
      runScript_operandWrite (s := withOperands img.width img.height c.canvasWidth s.opts s) hphase hp rfl

/-- Whatever the number of pixels, LOADPIX writes PIX and BUSERR only. -/
theorem runScript_loadPixFrom_frame (ps : List Pixel) (k : Nat) {s : State} (hp : s.pending = none)
    (hin : s.inputs = []) :
    ∃ pix buserr, runScript (loadPixFrom k ps) s = .next { s with pix := pix, buserr := buserr } := by
  induction ps generalizing k s with
  | nil => exact ⟨s.pix, s.buserr, rfl⟩
  | cons p ps ih =>
    have hwrite : ∃ pix buserr, hostAccess (.write .pix (4 * k) 4 (pixelWord p)) { s with inputs := [] } =
        { s with pix := pix, buserr := buserr } := by
      rw [← hin]
      rcases memWrite_cases .pix (4 * k) 4 (pixelWord p) s with h | ⟨r, h, _⟩ | ⟨_, _, h⟩
      · exact ⟨s.pix, true, h⟩
      · cases h
      · exact ⟨_, s.buserr, h⟩
    obtain ⟨pix, buserr, hu⟩ := hwrite
    rw [loadPixFrom, wrm, runScript_access hp, hu]
    exact ih (k + 1) (s := { s with pix := pix, buserr := buserr }) hp hin

/-- The Host's writes, whatever the number of pixels. -/
theorem runScript_prepare_frame (c : HostConfig) (img : Image) {s : State} (hphase : s.phase = .idle)
    (hp : s.pending = none) :
    ∃ pix buserr, runScript (prepare c img) s = .next (prepared c img pix buserr s) := by
  obtain ⟨pix, buserr, hload⟩ :=
    runScript_loadPixFrom_frame img.pixels 0 (s := prepared c img s.pix s.buserr s) hp rfl
  exact ⟨pix, buserr, (runScript_prepare c img hphase hp).trans hload⟩

/-- Each pixel of the image stands at its place in PIX (10_state.md R28). -/
def HoldsPixels (img : Image) (s : State) : Prop :=
  ∀ k px, img.pixels[k]? = some px →
    s.pixAt (4 * k) = px.r ∧ s.pixAt (4 * k + 1) = px.g ∧ s.pixAt (4 * k + 2) = px.b ∧ s.pixAt (4 * k + 3) = px.a

/-- The Host's writes when the pixels fit in PIX; the bytes beyond them are kept. -/
theorem runScript_prepare_pixels (c : HostConfig) (img : Image) {s : State} (hphase : s.phase = .idle)
    (hp : s.pending = none) (hfits : img.pixels.length ≤ s.params.nmax) :
    ∃ pix, runScript (prepare c img) s = .next (prepared c img pix s.buserr s) ∧
      HoldsPixels img (prepared c img pix s.buserr s) ∧
      ∀ k, 4 * img.pixels.length ≤ k → (prepared c img pix s.buserr s).pixAt k = s.pixAt k := by
  obtain ⟨t, hload, hframe, hpixels, hbeyond⟩ :=
    runScript_loadPixFrom img.pixels 0 (prepared c img s.pix s.buserr s) hp rfl (by rw [Nat.zero_add]; exact hfits)
  have ht : t = prepared c img t.pix s.buserr s := hframe
  refine ⟨t.pix, ?_⟩
  rw [← ht]
  refine ⟨(runScript_prepare c img hphase hp).trans hload, fun k px hk => ?_, fun k hk => ?_⟩
  · simpa only [Nat.zero_add] using hpixels k px hk
  · exact hbeyond k (.inr (by rwa [Nat.zero_add]))

/-- Settles O53: the register writes and LOADPIX leave `prepared`, whose fields are the configuration's. -/
theorem configurationReachesTheRegisters : Obligations.ConfigurationReachesTheRegisters := by
  unfold Obligations.ConfigurationReachesTheRegisters
  refine ⟨fun _ => rfl, fun c img s hphase hp hfits => ?_⟩
  obtain ⟨pix, hrun, hpixels, hbeyond⟩ := runScript_prepare_pixels c img hphase hp hfits
  exact ⟨prepared c img pix s.buserr s, hrun, rfl, prepared_photo .., prepared_rotate .., prepared_align .., hpixels,
    hbeyond⟩

end Sys2Proof.Machine
end

section
/-! The command part of a conversion and its end (48_host_framing.md R128, R130): in either form the block is left
converted or in FAIL, the Host reads which, and takes the branch to its report. -/

namespace Sys2Proof.Machine

/-! ### Scripts of commands -/

/-- A quiescent block: `s` with nothing pending and no input left. -/
def quiet (s : State) (done : Bool) (words : List Word) : State := atTurn s none done [] words

/-- The script takes the quiescent block from `s` to `t`, whatever DONE is and the Host has read. -/
def Leads (script : List Input) (s t : State) : Prop :=
  ∀ done words, ∃ done' words', runScript script (quiet s done words) = .next (quiet t done' words')

theorem Leads.append {a b : List Input} {s t u : State} (hst : Leads a s t) (htu : Leads b t u) :
    Leads (a ++ b) s u := by
  intro done words
  obtain ⟨done', words', ha⟩ := hst done words
  rw [runScript_append, ha, thenDo_next]
  exact htu done' words'

/-- `CMD i; WAIT`, from what the perform step of `i` answers. -/
theorem leads_command {i : Instr} {s t : State} {done : Bool} (polls : Nat)
    (hexec : ∀ words, exec i (atTurn s (some (encode i)) false [] words) = .next (quiet t done words)) :
    Leads (cmd i :: wait polls) s t := by
  intro d words
  obtain ⟨polled, hrun⟩ := runScript_command (s := quiet s d words) (i := i) rfl polls
  exact ⟨done, _, hrun _ (hexec polled)⟩

/-- A command that executes leaves its body. -/
theorem leads_body {i : Instr} {s : State} (polls : Nat)
    (hexec : ∀ words, exec i (atTurn s (some (encode i)) false [] words) =
      .next (complete (bodyOf i (atTurn s (some (encode i)) false [] words)))) :
    Leads (cmd i :: wait polls) s (bodyOf i s) := by
  refine leads_command (done := true) polls fun words => ?_
  rw [hexec, bodyOf_atTurn]
  rfl

/-- In FAIL a command but CLR leaves the block as it is (60_exceptions.md R149). -/
theorem leads_ignored {i : Instr} {s : State} (polls : Nat) (hfail : s.phase = .fail) (hi : i ≠ .clr) :
    Leads (cmd i :: wait polls) s s :=
  leads_command (done := false) polls fun words =>
    exec_of_turnedAway (turnedAway_of_fail (s := atTurn s (some (encode i)) false [] words) hfail hi)

/-- LUM and RUN leave the error record when a start check fails (45_sequencing_commands.md R113). -/
theorem leads_startError {i : Instr} {s : State} {e : ErrCode} (polls : Nat) (hi : i = .lum ∨ i = .run)
    (hphase : s.phase = .idle) (he : startError s = some e) :
    Leads (cmd i :: wait polls) s (raiseError e (encode i) s) :=
  leads_command (done := false) polls fun words =>
    exec_of_startError (s := atTurn s (some (encode i)) false [] words) hi hphase he

section
variable {c : HostConfig} {s : State} (form : ConversionForm) (polls : Nat) (hphase : s.phase = .idle)
include hphase

/-- Either form converts an image that passes the start checks (45_sequencing_commands.md R114). -/
theorem leads_converted (hg : GeometryOk s) (hphoto : s.photo = c.photo) :
    Leads (commands c form polls) s (runBody s) := by
  cases form with
  | run => exact leads_body polls fun words => exec_of_geometry (.inr rfl) hphase (hg.transfer rfl rfl rfl rfl)
  | stepwise =>
    have hlum : Leads (cmd .lum :: wait polls) s (lumBody s) :=
      leads_body polls fun words => exec_of_geometry (.inl rfl) hphase (hg.transfer rfl rfl rfl rfl)
    unfold commands convert
    cases hc : c.photo
    · rw [runBody_noPhoto (hphoto.trans hc)]
      have hpack : Leads (cmd .pack :: wait polls) (lumBody s) (packBody (lumBody s)) :=
        leads_body polls fun words =>
          exec_pack_of_ready (.inl ⟨rfl, hphoto.trans hc⟩) hg.canvas_bytes hg.width_fits hg.gray_fits hg.bitmap_fits
      simpa using hlum.append hpack
    · rw [runBody_photo (hphoto.trans hc)]
      have heq : Leads (cmd .eq :: wait polls) (lumBody s) (eqBody (lumBody s)) :=
        leads_body polls fun words => exec_eq_of_lumd rfl (hphoto.trans hc) hg.n_pos hg.gray_fits
      have hdth : Leads (cmd .dth :: wait polls) (eqBody (lumBody s)) (dthBody (eqBody (lumBody s))) :=
        leads_body polls fun words => exec_dth_of_eqd rfl hg.gray_fits
      have hpack : Leads (cmd .pack :: wait polls) (dthBody (eqBody (lumBody s)))
          (packBody (dthBody (eqBody (lumBody s)))) :=
        leads_body polls fun words =>
          exec_pack_of_ready (.inr rfl) hg.canvas_bytes hg.width_fits hg.gray_fits hg.bitmap_fits
      exact (hlum.append (heq.append hdth)).append hpack

/-- Either form leaves the first failing start check's error record: after it the other commands are ignored. -/
theorem leads_failed {e : ErrCode} (he : startError s = some e) :
    ∃ w, Leads (commands c form polls) s (raiseError e w s) := by
  cases form with
  | run => exact ⟨_, leads_startError polls (.inr rfl) hphase he⟩
  | stepwise =>
    have hlum := leads_startError polls (.inl rfl) hphase he
    have hignored : ∀ i, i ≠ .clr → Leads (cmd i :: wait polls) (raiseError e (encode .lum) s)
        (raiseError e (encode .lum) s) := fun i hi => leads_ignored polls rfl hi
    refine ⟨encode .lum, ?_⟩
    unfold commands convert
    cases c.photo
    · simpa using hlum.append (hignored .pack (by decide))
    · exact (hlum.append ((hignored .eq (by decide)).append (hignored .dth (by decide)))).append
        (hignored .pack (by decide))

end

/-! ### What the Host reads -/

theorem lastReply_quiet (s : State) (done : Bool) (words : List Word) (w : Word) :
    lastReply (quiet s done (words ++ [w])) = w := by
  simp [lastReply, quiet, atTurn]

/-- The script of a conversion up to `RD STATUS`: the Host reads ERR and WARN of the state the commands lead to. -/
theorem ask_conversionScript {c : HostConfig} {form : ConversionForm} {polls : Nat} {img : Image} {s u v : State}
    {done : Bool} (hprepare : runScript (prepare c img) { s with replies := [] } = .next (quiet u done []))
    (hcommands : Leads (commands c form polls) u v) :
    ∃ done' words, ask (conversionScript c form polls img) s = .next (quiet v done' words) ∧
      statusErr (lastReply (quiet v done' words)) = v.err ∧ statusWarn (lastReply (quiet v done' words)) = v.warn := by
  obtain ⟨done', words, hrun⟩ := hcommands done []
  refine ⟨done', words ++ [statusWord (quiet v done' words)], ?_, ?_⟩
  · rw [ask, conversionScript, runScript_append, hprepare, thenDo_next, runScript_append, hrun, thenDo_next, runScript,
      feed_status, thenDo_next]
    rfl
  · rw [lastReply_quiet]
    exact statusErr_statusWord (quiet v done' words)

/-- The end of a conversion or of a failure: the block is cleared. -/
theorem ask_clearScript (polls : Nat) (s : State) (done : Bool) (words : List Word) :
    ∃ words', ask (clearScript polls) (quiet s done words) = .next (quiet (clearErrors s) true words') := by
  obtain ⟨words', hrun⟩ := runScript_clear (quiet s done []) rfl polls
  exact ⟨words', hrun⟩

theorem reportedError_errNumber (e : ErrCode) :
    reportedError (BitVec.ofNat 32 (errNumber e)) = (hostError e).getD (.programming .noError) := by
  cases e <;> rfl

/-- The failure branch reports ERRCODE, writes nothing and clears the block. -/
theorem afterFailure_quiet (polls : Nat) (warning : Bool) (s : State) (done : Bool) (words : List Word) :
    ∃ words', afterFailure polls warning (quiet s done words) = .next {
      report := .failure ((hostError s.errcode).getD (.programming .noError)), warning := warning, written := []
      block := quiet (clearErrors s) true words' } := by
  let code := BitVec.ofNat 32 (errNumber s.errcode)
  have hread : ask [rd .errcode] (quiet s done words) = .next (quiet s done [code]) := by
    rw [ask, rd, runScript_access rfl, hostAccess, memRead_reg]
    rfl
  obtain ⟨words', hclear⟩ := ask_clearScript polls s done [code]
  have hreport : reportedError (lastReply (quiet s done [code])) =
      (hostError s.errcode).getD (.programming .noError) := reportedError_errNumber s.errcode
  refine ⟨words', ?_⟩
  rw [afterFailure, hread, thenDo_next, hclear, thenDo_next, hreport]

/-- The success branch feeds the bitmap the block has drawn to the Frame Encoder and clears the block. -/
theorem afterSuccess_quiet (c : HostConfig) (polls : Nat) (room : Option Nat) (img : Image) (warning : Bool) (s : State)
    (done : Bool) (words : List Word) (hfits : bitmapBytes c img ≤ s.params.bmax) :
    ∃ words', afterSuccess c polls room img warning (quiet s done words) =
      .next (emit room warning
        (sinkStream s.bmpAt c.canvasWidth.toNat img.height.toNat c.maxBandHeight.toNat c.cut)
        (quiet (clearErrors s) true words')) := by
  let bytes := (List.range (bitmapBytes c img)).map fun k => (s.bmpAt k).setWidth 32
  have hread : ask (bitmapScript (bitmapBytes c img)) (quiet s done words) = .next (quiet s done bytes) :=
    runScript_bitmapBytes _ (quiet s done []) rfl rfl fun k hk => (List.mem_range.mp hk).trans_le hfits
  obtain ⟨words', hclear⟩ := ask_clearScript polls s done bytes
  have hstream : sinkStream (readBitmap bytes) c.canvasWidth.toNat img.height.toNat c.maxBandHeight.toNat c.cut =
      sinkStream s.bmpAt c.canvasWidth.toNat img.height.toNat c.maxBandHeight.toNat c.cut := by
    refine sinkStream_congr fun k hk => ?_
    have hk' : k < bitmapBytes c img := hk
    simp [readBitmap, bytes, List.getD_eq_getElem?_getD, hk']
  refine ⟨words', ?_⟩
  rw [afterSuccess, hread, thenDo_next, hclear, thenDo_next, ← hstream]
  rfl

end Sys2Proof.Machine
end

section
/-! The Host's report (48_host_framing.md R128, R130): one theorem for an image that passes the start checks and one for
an image that fails them; success, the sink's failure and the framing refusal are read off them. -/

namespace Sys2Proof.Machine

/-- The end of a delivered conversion: `s` converted and cleared. -/
def delivered (s : State) (words : List Word) : State := quiet (clearErrors (runBody s)) true words

section
variable (s : State) (words : List Word)

@[simp] theorem delivered_distinct : (delivered s words).distinct = (lumBody s).distinct := by
  have h : (runBody s).distinct = (lumBody s).distinct := by rw [runBody_frame]
  exact h

theorem delivered_placedAt : placedAt (delivered s words) = placedAt s := by
  have h : placedAt (runBody s) = placedAt s := by rw [runBody_frame]; rfl
  exact h

theorem delivered_sourceAt (x y : Nat) : sourceAt (delivered s words) x y = sourceAt s x y := by
  have h : sourceAt (runBody s) x y = sourceAt s x y := by rw [runBody_frame]; rfl
  exact h

theorem delivered_grayAt (i : Nat) : (delivered s words).grayAt i = (imaged s).grayAt i :=
  runBody_grayAt s i

end

theorem imageLuma_of_holdsPixels {img : Image} {s : State} (h : HoldsPixels img s) {k : Nat} {px : Pixel}
    (hk : img.pixels[k]? = some px) :
    imageLuma s k = expectedLuma px.r.toNat px.g.toNat px.b.toNat px.a.toNat := by
  obtain ⟨hr, hg, hb, ha⟩ := h k px hk
  rw [imageLuma, hr, hg, hb, ha]

/-- The prepared block of a conversion under the start checks, before LOADPIX. -/
def configured (c : HostConfig) (img : Image) (s : State) : State := prepared c img s.pix s.buserr s

section
variable {c : HostConfig} {img : Image} {s : State}

theorem geometryOk_configured (hw : 1 ≤ img.width.toNat) (hh : 1 ≤ img.height.toNat)
    (h8 : c.canvasWidth.toNat % 8 = 0) (hcap : img.width.toNat ≤ c.canvasWidth.toNat)
    (hn : img.width.toNat * img.height.toNat ≤ s.params.nmax)
    (hb : img.height.toNat * (c.canvasWidth.toNat / 8) ≤ s.params.bmax) : GeometryOk (configured c img s) :=
  ⟨hw, hh, h8, hcap, hn, hb⟩

/-- The prepared block is quiescent. -/
theorem prepared_quiet (pix : List Host.Cell) (buserr : Bool) (hp : s.pending = none) :
    prepared c img pix buserr { s with replies := [] } = quiet (prepared c img pix buserr s) s.done [] := by
  unfold quiet atTurn
  rw [← hp]
  rfl

variable (form : ConversionForm) (polls : Nat) (room : Option Nat) (hinv : Inv s) (hphase : s.phase = .idle)
  (hp : s.pending = none)
include hinv hphase hp

/-- An image that passes the start checks is converted, and the Host emits the stream of the bitmap drawn with the
advisory as its warning. -/
theorem hostConvert_of_geometry (hwf : img.WellFormed = true) (hg : GeometryOk (configured c img s)) :
    ∃ pix words u, u = prepared c img pix s.buserr s ∧ HoldsPixels img u ∧ GeometryOk u ∧
      hostConvert c form polls room (.ok img) s =
        .next (emit room (advisory c.photo (delivered u words).distinct.toNat)
          (sinkStream (delivered u words).bmpAt c.canvasWidth.toNat img.height.toNat c.maxBandHeight.toNat c.cut)
          (delivered u words)) := by
  have hlength : img.pixels.length ≤ s.params.nmax := (of_decide_eq_true hwf).trans_le hg.gray_fits
  obtain ⟨pix, hload, hpixels, _⟩ := runScript_prepare_pixels c img (s := { s with replies := [] }) hphase hp hlength
  let u := prepared c img pix s.buserr s
  have hprepare : runScript (prepare c img) { s with replies := [] } = .next (quiet u s.done []) :=
    hload.trans (congrArg _ (prepared_quiet pix s.buserr hp))
  have hgu : GeometryOk u := hg.transfer rfl rfl rfl rfl
  have hconverted := leads_converted (c := c) (s := u) form polls hphase hgu (prepared_photo c img pix s.buserr s)
  obtain ⟨done, words, hask, herr, hwarn⟩ := ask_conversionScript hprepare hconverted
  obtain ⟨words', hsuccess⟩ := afterSuccess_quiet c polls room img (runBody u).warn (runBody u) done words
    (by rw [runBody_frame]; exact hgu.bitmap_fits)
  have herr' : (runBody u).err = false := by
    rw [runBody_frame, Bool.eq_false_iff]
    exact mt hinv.err_iff.mp (by rw [hphase]; decide)
  have hwarn' : (runBody u).warn = advisory c.photo (delivered u words').distinct.toNat := by
    rw [delivered_distinct, ← prepared_photo c img pix s.buserr s, runBody_frame]
    exact lumBody_warn_eq u
  refine ⟨pix, words', u, rfl, hpixels, hgu, ?_⟩
  rw [hostConvert, hask, thenDo_next]
  dsimp only
  rw [herr, herr', hwarn, if_neg Bool.false_ne_true, hsuccess, hwarn']
  rfl

/-- An image that fails a start check is reported as that failure, with no warning and nothing written. -/
theorem hostConvert_of_startError {e : ErrCode} (he : startError (configured c img s) = some e) :
    ∃ t, hostConvert c form polls room (.ok img) s =
        .next { report := .failure ((hostError e).getD (.programming .noError)), warning := false, written := []
                block := t } ∧
      t.phase = .idle ∧ t.pending = none := by
  obtain ⟨pix, buserr, hload⟩ := runScript_prepare_frame c img (s := { s with replies := [] }) hphase hp
  let u := prepared c img pix buserr s
  have hprepare : runScript (prepare c img) { s with replies := [] } = .next (quiet u s.done []) :=
    hload.trans (congrArg _ (prepared_quiet pix buserr hp))
  obtain ⟨w, hfailed⟩ := leads_failed (c := c) (s := u) form polls hphase he
  obtain ⟨done, words, hask, herr, hwarn⟩ := ask_conversionScript hprepare hfailed
  have hnoWarn : (raiseError e w u).warn = false := hinv.warn_idle hphase
  obtain ⟨words', hfailure⟩ := afterFailure_quiet polls false (raiseError e w u) done words
  refine ⟨quiet (clearErrors (raiseError e w u)) true words', ?_, rfl, rfl⟩
  rw [hostConvert, hask, thenDo_next]
  dsimp only
  rw [herr, hwarn, hnoWarn, raiseError_err, if_pos rfl, hfailure, raiseError_errcode]

end

/-- Settles O54: the stream exists, an unlimited sink takes it, and the dots and the gray values are those of RUN. -/
theorem hostDeliversTheBitmap : Obligations.HostDeliversTheBitmap := by
  unfold Obligations.HostDeliversTheBitmap
  intro c form polls img s hinv hphase hp hwf hw hh h8 hcap hn hb hwc hlow hhigh
  obtain ⟨pix, words, _, rfl, hpixels, hg, hrun⟩ := hostConvert_of_geometry form polls none hinv hphase hp hwf
    (geometryOk_configured hw hh h8 hcap hn hb)
  rw [sinkStream_of_fits _ _ hwc hlow hhigh] at hrun
  refine ⟨_, hrun, rfl, rfl, sinkStream_of_fits _ _ hwc hlow hhigh, rfl, rfl, fun hphoto k px hk => ?_,
    fun cx y hc hy => ?_⟩
  · have hlt : k < img.pixels.length := (List.getElem?_eq_some_iff.mp hk).1
    have hk' : k < (prepared c img pix s.buserr s).n := hlt.trans_eq (of_decide_eq_true hwf)
    rw [emit_block, delivered_grayAt, imaged_noPhoto ((prepared_photo ..).trans hphoto), lumBody_grayAt, if_pos hk',
      lumaOf_toNat, imageLuma_of_holdsPixels hpixels hk]
  · rw [emit_block, delivered_placedAt, delivered_sourceAt, delivered_grayAt]
    exact runBody_dotAt hg hc hy

section
variable (warning : Bool) (bytes : List Byte) (block : State)

/-- A sink with room for the whole stream takes it. -/
theorem emit_of_room {k : Nat} (h : bytes.length ≤ k) :
    emit (some k) warning (.ok bytes) block = emit none warning (.ok bytes) block :=
  if_pos h

/-- A sink that fails has taken the first bytes of the stream (48_host_framing.md R130). -/
theorem emit_of_no_room {k : Nat} (h : k < bytes.length) :
    emit (some k) warning (.ok bytes) block =
      { report := .failure .sinkWriteFailure, warning := warning, written := bytes.take k, block := block } :=
  if_neg (Nat.not_le.mpr h)

end

/-- Settles O55: the warning stands beside every report `emit` gives. -/
theorem hostSurfacesTheAdvisory : Obligations.HostSurfacesTheAdvisory := by
  unfold Obligations.HostSurfacesTheAdvisory
  intro c form polls room img s hinv hphase hp hwf hw hh h8 hcap hn hb
  obtain ⟨pix, words, u, _, _, _, hrun⟩ := hostConvert_of_geometry form polls room hinv hphase hp hwf
    (geometryOk_configured hw hh h8 hcap hn hb)
  refine ⟨_, hrun, ?_⟩
  rw [emit_warning, emit_block]
  refine ⟨rfl, rfl, rfl, rfl, ?_⟩
  generalize sinkStream _ _ _ _ _ = stream
  cases stream with
  | error e => exact ⟨rfl, rfl⟩
  | ok bytes =>
    refine ⟨?noLimit, fun k hk => ⟨fun hroom => ?taken, fun hshort => ?cut⟩⟩
    case noLimit =>
      rintro rfl
      exact ⟨rfl, rfl⟩
    case taken =>
      rw [hk, emit_of_room _ _ _ hroom]
      exact ⟨rfl, rfl⟩
    case cut =>
      rw [hk, emit_of_no_room _ _ _ hshort]
      exact ⟨rfl, rfl⟩

/-- Settles O56: each failing line of the start checks is the report of its code. -/
theorem hostReportsFailuresAndWritesNothing : Obligations.HostReportsFailuresAndWritesNothing := by
  unfold Obligations.HostReportsFailuresAndWritesNothing
  intro c form polls room s
  refine ⟨rfl, rfl, fun img hinv hphase hp => ⟨fun hcfg => ?config, fun hw hh h8 => ⟨fun hcap => ?capacity,
    fun hcap halloc => ?allocation⟩⟩⟩
  case config => exact hostConvert_of_startError form polls room hinv hphase hp (startError_eq_eCfg hcfg)
  case capacity => exact hostConvert_of_startError form polls room hinv hphase hp (startError_eq_eCap hw hh h8 hcap)
  case allocation =>
    exact hostConvert_of_startError form polls room hinv hphase hp (startError_eq_eAlloc hw hh h8 hcap halloc)

end Sys2Proof.Machine
end
